-- ==== Sys2Proof/Word.lean ====
section
/-! DEFINITION. The word types of the EPDC and their plainest arithmetic: bytes, 32-bit host words, 22-bit host
addresses, pin levels, and the rounding-up division of R15. -/

namespace Sys2Proof

/-- A byte of a memory, of a table or of the SPI wire. -/
abbrev Byte := BitVec 8

/-- A 32-bit host data word (R59, section 2 of 10_state.md). -/
abbrev Word := BitVec 32

/-- A host byte address; address bits above bit 21 do not exist (R42, R44). -/
abbrev HostAddr := BitVec 22

/-- The level of a pin or a one-bit field: `true` is 1, `false` is 0. -/
abbrev Level := Bool

/-- `ceil(a / b)`, the smallest integer that is at least a/b (R15), for b ≥ 1. -/
def ceilDiv (a b : Nat) : Nat := (a + b - 1) / b

end Sys2Proof
end

