-- ==== Sys2Proof/Config.lean ====
section
/-! DEFINITION. The parameters of one EPDC (R11), their derived constants (R12), the check a parameter set must pass
(R14, R99, R131), the free values of the environment (R10, R179), and the two standard parameter sets that
`State.reset` and the decoder's table interface stand on. -/

namespace Sys2Proof

/-- The controller variant, `P_VARIANT` (R3): FW is encoded 0, NF is encoded 1. -/
inductive Variant where
  | fw
  | nf
  deriving DecidableEq, Repr

/-- The refresh mode (R13): GRAY 0, FULL 1, PART 2, FAST 3. -/
inductive Mode where
  | gray
  | full
  | part
  | fast
  deriving DecidableEq, Repr

/-- The 2-bit number of a mode (R13). -/
def Mode.code : Mode → BitVec 2
  | .gray => 0
  | .full => 1
  | .part => 2
  | .fast => 3

/-- The mode a 2-bit field names (R13, R62). -/
def Mode.ofCode (b : BitVec 2) : Mode :=
  if b = 0 then .gray else if b = 1 then .full else if b = 2 then .part else .fast

/-- `DIFF = {PART, FAST}`, the differential modes (R13). -/
def Mode.isDiff : Mode → Bool
  | .part => true
  | .fast => true
  | .gray => false
  | .full => false

/-- `fmt(m)`: 1 (two bits a pixel) for GRAY, else 0 (R33, R123). -/
def Mode.fmt (m : Mode) : Level := m == .gray

/-- One value for each mode. -/
structure ByMode (α : Type) where
  gray : α
  full : α
  part : α
  fast : α
  deriving DecidableEq, Repr

def ByMode.get {α : Type} (t : ByMode α) : Mode → α
  | .gray => t.gray
  | .full => t.full
  | .part => t.part
  | .fast => t.fast

/-- One value for each of the five NF register sub-tables, in the order of R90: index 0 VCOM, 1 white-to-white,
2 black-to-white, 3 white-to-black, 4 black-to-black. -/
structure Five (α : Type) where
  vcom : α
  ww : α
  bw : α
  wb : α
  bb : α
  deriving DecidableEq, Repr

def Five.toList {α : Type} (t : Five α) : List α := [t.vcom, t.ww, t.bw, t.wb, t.bb]

/-- One entry of a sequence table, format SEQENTRY (R69). -/
inductive SeqEntry where
  | cmd (op : Byte) (data : List Byte) (wait : Bool)
  | wait
  | windowFull
  | lut
  deriving DecidableEq, Repr

/-- The data and the wait bit of a `CMD` entry (R69). -/
structure EntryArgs where
  data : List Byte
  wait : Bool
  deriving DecidableEq, Repr

/-- A panel command as the sequencer holds it before it is decoded: the opcode byte (R64) and, when a sequence table
emits it, the entry's data and wait bit; when a fixed rule emits it there are none, for the rule gives its data
(R66). -/
structure Frame where
  op : Byte
  args : Option EntryArgs
  deriving DecidableEq, Repr

/-- The four OPEN payload functions `F_XWIN`, `F_YWIN`, `F_XCUR`, `F_YCUR` (R11, R116) as plain data: the arguments at
which a unit's function differs from the reference default of R116, with the payload it gives there. The arguments
of rectangles inside a panel are finitely many, so every function on them is one of these (log 9). -/
structure PayloadTables where
  xWin : List ((Nat × Nat) × List Byte)
  yWin : List ((Nat × Nat) × List Byte)
  xCur : List (Nat × List Byte)
  yCur : List (Nat × List Byte)
  deriving DecidableEq, Repr

/-- The parameters of one EPDC, fixed at construction and never changed (R11). `P_UPD[FULL]` is fixed at 0xC7 (R124)
and so is no field; the lengths 105, 5 and 30 are fixed too and stand as constants below. -/
structure Config where
  /-- `P_VARIANT` -/
  variant : Variant
  /-- `P_WIDTH`, in pixels -/
  width : Nat
  /-- `P_HEIGHT`, in pixels -/
  height : Nat
  /-- `P_BUSY_ACTIVE`, the BUSY level that means busy -/
  busyActive : Level
  /-- `P_CMD_SETTLE_MS` -/
  cmdSettleMs : Nat
  /-- `P_POLL_MS` -/
  pollMs : Nat
  /-- `P_POST_IDLE_MS` -/
  postIdleMs : Nat
  /-- `P_RESET_HOLD_MS` -/
  resetHoldMs : Nat
  /-- `P_MAX_CHUNK`, in bytes -/
  maxChunk : Nat
  /-- `P_DEFAULT_TIMEOUT_MS` (OPEN) -/
  defaultTimeoutMs : Nat
  /-- `P_TRANSPORT_CAN_FAIL` -/
  transportCanFail : Bool
  /-- `T_LUTF[m]` (OPEN), the FW profiles -/
  lutFlash : ByMode (List Byte)
  /-- `T_REGLUT[PART][i]` (OPEN) -/
  lutRegPart : Five (List Byte)
  /-- `T_REGLUT[FAST][i]` (OPEN) -/
  lutRegFast : Five (List Byte)
  /-- `P_REG_LUT_OP[i]` (OPEN) -/
  regLutOp : Five Byte
  /-- `P_UPD[GRAY]` (OPEN) -/
  updGray : Byte
  /-- `P_UPD[PART]` (OPEN) -/
  updPart : Byte
  /-- `P_UPD[FAST]` (OPEN) -/
  updFast : Byte
  /-- `T_INIT_SEQ` -/
  initSeq : List SeqEntry
  /-- `T_SLEEP_SEQ` -/
  sleepSeq : List SeqEntry
  /-- `F_XWIN`, `F_YWIN`, `F_XCUR`, `F_YCUR` (OPEN) -/
  payloads : PayloadTables
  /-- `P_SPI_HZ` (OPEN; cannot be seen in the trace) -/
  spiHz : Nat
  /-- `P_SPI_CPOL` (OPEN; cannot be seen in the trace) -/
  spiCpol : Level
  /-- `P_SPI_CPHA` (OPEN; cannot be seen in the trace) -/
  spiCpha : Level
  deriving DecidableEq, Repr

namespace Config

/-! ### Constants and derived constants -/

/-- `P_FLASH_LUT_LEN` (R11). -/
def flashLutLen : Nat := 105

/-- `P_REG_LUT_SUB_LEN` (R11). -/
def regLutSubLen : Nat := 30

/-- `BPR1`, bytes a row of a 1-bit buffer (R12). -/
def bpr1 (c : Config) : Nat := ceilDiv c.width 8

/-- `BPR2`, bytes a row of a 2-bit buffer (R12). -/
def bpr2 (c : Config) : Nat := ceilDiv c.width 4

/-- `FRAME1` (R12). -/
def frame1 (c : Config) : Nat := c.bpr1 * c.height

/-- `FRAME2` (R12). -/
def frame2 (c : Config) : Nat := c.bpr2 * c.height

/-- `SLOT_CAP`, the capacity in bytes of STAGE, NEW and OLD (R12). -/
def slotCap (c : Config) : Nat := c.frame2

/-- `P_UPD[m]`, the FW display-update-control byte; `P_UPD[FULL]` = 0xC7 (R124). -/
def upd (c : Config) : Mode → Byte
  | .gray => c.updGray
  | .full => 0xC7
  | .part => c.updPart
  | .fast => c.updFast

/-- `HasProfile(m)` (R88). -/
def hasProfile (c : Config) (m : Mode) : Bool :=
  match c.variant with
  | .fw => true
  | .nf => m.isDiff

/-! ### The parameter check -/

/-- The variant's refresh trigger (R99, R131). -/
def triggerOps : Variant → List Byte
  | .fw => [0x20]
  | .nf => [0x12]

/-- The LUT-upload commands (R99, R131). -/
def lutOps (c : Config) : List Byte :=
  match c.variant with
  | .fw => [0x32]
  | .nf => c.regLutOp.toList

/-- The plane writes of FW, the transmission writes of NF (R99, R131). -/
def writeOps : Variant → List Byte
  | .fw => [0x24, 0x26]
  | .nf => [0x10, 0x13]

/-- The variant's deep-sleep command (R99, R131). -/
def sleepOp : Variant → Byte
  | .fw => 0x10
  | .nf => 0x07

/-- R99, check 4, for one entry of `T_INIT_SEQ`. -/
def initEntryOk (c : Config) : SeqEntry → Bool
  | .cmd op data _ =>
    !((triggerOps c.variant).contains op) && !(c.lutOps.contains op) && !((writeOps c.variant).contains op)
      && !(op == sleepOp c.variant)
      && !(c.variant == .fw && op == 0x22 && data == [0xC7]) && decide (data.length ≤ 255)
  | .wait => true
  | .windowFull => true
  | .lut => true

/-- R99, check 1: the power-on step of the variant is the first entry. -/
def powerOnFirst (v : Variant) : List SeqEntry → Bool
  | [] => false
  | e :: _ =>
    match v with
    | .fw => e == .wait
    | .nf => e == .cmd 0x04 [] true

/-- R99: `T_INIT_SEQ` is well formed. -/
def initSeqOk (c : Config) : Bool :=
  powerOnFirst c.variant c.initSeq
    && c.initSeq.count .lut == 1 && c.initSeq.getLast? == some .lut
    && c.initSeq.count .windowFull == (match c.variant with | .fw => 1 | .nf => 0)
    && c.initSeq.all c.initEntryOk

/-- R131, for one entry of `T_SLEEP_SEQ` but the last. -/
def sleepEntryOk (c : Config) : SeqEntry → Bool
  | .cmd op data _ =>
    !((triggerOps c.variant).contains op) && !(c.lutOps.contains op) && !((writeOps c.variant).contains op)
      && !(op == sleepOp c.variant)
      && !(c.variant == .fw && op == 0x22) && decide (data.length ≤ 255)
  | .wait => true
  | .windowFull => false
  | .lut => false

/-- R131: the last entry of `T_SLEEP_SEQ` is the deep-sleep command, without a wait. -/
def sleepLastOk (c : Config) : SeqEntry → Bool
  | .cmd op data wait => op == sleepOp c.variant && !wait && decide (data.length ≤ 255)
  | .wait => false
  | .windowFull => false
  | .lut => false

/-- R131: `T_SLEEP_SEQ` is well formed. -/
def sleepSeqOk (c : Config) : Bool :=
  match c.sleepSeq.getLast? with
  | none => false
  | some e => c.sleepLastOk e && c.sleepSeq.dropLast.all c.sleepEntryOk

/-- A payload of 1 to 255 bytes (R14, R115). -/
def payloadLenOk (p : List Byte) : Bool := decide (1 ≤ p.length) && decide (p.length ≤ 255)

/-- R14 on the payload functions: each gives 1 to 255 bytes for every rectangle inside the panel. The reference default
gives 1 to 4 bytes, so only the entries that replace it are checked. -/
def payloadsOk (c : Config) : Bool :=
  c.payloads.xWin.all (fun e => !(decide (1 ≤ e.1.2) && decide (e.1.1 + e.1.2 ≤ c.width)) || payloadLenOk e.2)
    && c.payloads.yWin.all (fun e => !(decide (1 ≤ e.1.2) && decide (e.1.1 + e.1.2 ≤ c.height)) || payloadLenOk e.2)
    && c.payloads.xCur.all (fun e => !(decide (e.1 < c.width)) || payloadLenOk e.2)
    && c.payloads.yCur.all (fun e => !(decide (e.1 < c.height)) || payloadLenOk e.2)

/-- The NF command bytes that no register-LUT opcode may equal (R14, R160). -/
def nfFixedOps : List Byte := [0x02, 0x04, 0x07, 0x10, 0x12, 0x13]

/-- R14 on the five register-LUT opcodes (NF). -/
def regLutOpsOk (c : Config) : Bool :=
  decide c.regLutOp.toList.Nodup && c.regLutOp.toList.all (fun op => !(nfFixedOps.contains op))

/-- R14: the parameter set is well formed. A set that fails is no EPDC and is refused (I16). -/
def wf (c : Config) : Bool :=
  decide (1 ≤ c.width) && decide (c.width ≤ 2048) && decide (1 ≤ c.height) && decide (c.height ≤ 2048)
    && decide (200 ≤ c.resetHoldMs) && decide (1 ≤ c.maxChunk) && decide (1 ≤ c.pollMs)
    && [Mode.gray, Mode.full, Mode.part, Mode.fast].all (fun m => (c.lutFlash.get m).length == flashLutLen)
    && c.lutRegPart.toList.all (fun t => t.length == regLutSubLen)
    && c.lutRegFast.toList.all (fun t => t.length == regLutSubLen)
    && c.initSeqOk && c.sleepSeqOk
    && (match c.variant with | .fw => c.payloadsOk | .nf => c.regLutOpsOk)

/-! ### Free values

None of these has a body: no proof can learn what they are, so a claim about a machine that reads one holds
whatever it is. -/

/-- The level of the n-th BUSY sample that the state's given levels do not cover (R10, I1; log 1). -/
opaque freeBusy : Nat → Level

/-- The outcome of the n-th SPI transfer that the state's given outcomes do not cover, `true` for success (R10, I2;
log 1). -/
opaque freeXfer : Nat → Bool

/-- Whether the host moves before the sequencer at the n-th point where both can (R50, R54; log 2). -/
opaque freeSched : Nat → Bool

/-- The byte STAGE holds at an offset that nothing has written since reset (R179, I7; log 5). -/
opaque stageDraw : Nat → Byte

/-- The OPEN bytes (LUT contents, table payloads, update-control bytes) of the standard parameter sets (log 3). -/
opaque openByte : Nat → Byte

/-- `P_DEFAULT_TIMEOUT_MS` of the standard parameter sets (OPEN, N8; log 3). -/
opaque openTimeoutMs : Nat

/-- `P_BUSY_ACTIVE` of the standard parameter sets (no default, R81; log 3). -/
opaque openBusyActive : Level

/-- `P_SPI_HZ` of the standard parameter sets (OPEN; log 3). -/
opaque openSpiHz : Nat

/-- `P_SPI_CPOL` and `P_SPI_CPHA` of the standard parameter sets (OPEN; log 3). -/
opaque openSpiMode : Nat → Level

/-! ### The standard parameter sets -/

/-- n OPEN bytes, numbered from k. -/
def openBytes (k n : Nat) : List Byte := (List.range n).map (fun i => openByte (k + i))

/-- Five OPEN sub-tables of 30 bytes, numbered from k. -/
def openSubTables (k : Nat) : Five (List Byte) :=
  ⟨openBytes k 30, openBytes (k + 30) 30, openBytes (k + 60) 30, openBytes (k + 90) 30, openBytes (k + 120) 30⟩

/-- The reference skeleton of `T_INIT_SEQ` on FW (R100), with the nine payloads given. -/
def fwInitSkeleton (gate gatev srcv entry border boost sensor vcom option : List Byte) : List SeqEntry :=
  [.wait, .cmd 0x01 gate false, .cmd 0x03 gatev false, .cmd 0x04 srcv false, .cmd 0x11 entry false,
    .cmd 0x3C border false, .cmd 0x0C boost false, .cmd 0x18 sensor false, .cmd 0x2C vcom false, .windowFull,
    .cmd 0x37 option false, .lut]

/-- The reference skeleton of `T_INIT_SEQ` on NF (R101), with the configuration entries given. -/
def nfInitSkeleton (cfgEntries : List SeqEntry) : List SeqEntry := .cmd 0x04 [] true :: cfgEntries ++ [.lut]

/-- The reference skeletons of `T_SLEEP_SEQ` (R132), with the deep-sleep payload given. -/
def sleepSkeleton (v : Variant) (payload : List Byte) : List SeqEntry :=
  match v with
  | .fw => [.cmd 0x10 payload false]
  | .nf => [.cmd 0x02 [] true, .cmd 0x07 payload false]

/-- The standard parameter set of a variant: the spec's defaults (R11), the source's one geometry 416 × 240 (N2), the
reference skeletons (R100, R101, R132) and payload functions (R116), and free values for the rest. DESIGN CHOICE (log
3): the geometry, one-byte table payloads, no NF configuration entries, and the register-LUT opcodes 0xA0 to 0xA4. -/
def standard (v : Variant) : Config where
  variant := v
  width := 416
  height := 240
  busyActive := openBusyActive
  cmdSettleMs := 1
  pollMs := 10
  postIdleMs := 200
  resetHoldMs := 200
  maxChunk := 512
  defaultTimeoutMs := openTimeoutMs
  transportCanFail := true
  lutFlash := ⟨openBytes 0 105, openBytes 105 105, openBytes 210 105, openBytes 315 105⟩
  lutRegPart := openSubTables 420
  lutRegFast := openSubTables 570
  regLutOp := ⟨0xA0, 0xA1, 0xA2, 0xA3, 0xA4⟩
  updGray := openByte 720
  updPart := openByte 721
  updFast := openByte 722
  initSeq :=
    match v with
    | .fw =>
      fwInitSkeleton [openByte 723] [openByte 724] [openByte 725] [openByte 726] [openByte 727] [openByte 728]
        [openByte 729] [openByte 730] [openByte 731]
    | .nf => nfInitSkeleton []
  sleepSeq := sleepSkeleton v [openByte 732]
  payloads := ⟨[], [], [], []⟩
  spiHz := openSpiHz
  spiCpol := openSpiMode 0
  spiCpha := openSpiMode 1

end Config

end Sys2Proof
end

