-- ==== Sys2Proof/Syntax.lean ====
section
/-! DEFINITION. The instructions of the EPDC, one constructor for each row of the opcode table: the six host operations
(R60) and the thirty panel commands (R67). -/

namespace Sys2Proof

/-- An instruction. A host operation carries the operand fields of its CMD word (R59, R62). A panel command that a
sequence table emits carries the data and the wait bit of its `CMD` entry (R69); the deep-sleep commands carry the
data only, since their entry never waits (R131). A panel command that a fixed rule emits carries nothing: its data
comes from the state by that rule. -/
inductive Instr where
  /-- RESET, 0x01 (R97) -/
  | reset
  /-- INIT, 0x02 (R102) -/
  | init (mode : Mode)
  /-- TRANSFER, 0x03 (R121) -/
  | transfer (win : Bool)
  /-- REFRESH, 0x04 (R126) -/
  | refresh (mode : Mode)
  /-- SLEEP, 0x05 (R130) -/
  | sleep
  /-- WAKE, 0x06 (R106) -/
  | wake
  /-- FW 0x01, gate-setting (R135) -/
  | fwGateSetting (data : List Byte) (wait : Bool)
  /-- FW 0x03, gate-voltage (R136) -/
  | fwGateVoltage (data : List Byte) (wait : Bool)
  /-- FW 0x04, source-voltage (R137) -/
  | fwSourceVoltage (data : List Byte) (wait : Bool)
  /-- FW 0x0C, booster (R138) -/
  | fwBooster (data : List Byte) (wait : Bool)
  /-- FW 0x10, deep-sleep (R139) -/
  | fwDeepSleep (data : List Byte)
  /-- FW 0x11, data-entry-mode (R140) -/
  | fwDataEntryMode (data : List Byte) (wait : Bool)
  /-- FW 0x18, sensor-enable (R141) -/
  | fwSensorEnable (data : List Byte) (wait : Bool)
  /-- FW 0x20, refresh-trigger (R142) -/
  | fwRefreshTrigger
  /-- FW 0x22, display-update-control (R143) -/
  | fwUpdateControl
  /-- FW 0x24, RAM-write-plane-A (R144) -/
  | fwRamWriteA
  /-- FW 0x26, RAM-write-plane-B (R145) -/
  | fwRamWriteB
  /-- FW 0x2C, VCOM (R146) -/
  | fwVcom (data : List Byte) (wait : Bool)
  /-- FW 0x32, LUT-upload (R147) -/
  | fwLutUpload
  /-- FW 0x37, display-option (R148) -/
  | fwDisplayOption (data : List Byte) (wait : Bool)
  /-- FW 0x3C, border (R149) -/
  | fwBorder (data : List Byte) (wait : Bool)
  /-- FW 0x44, X-window (R150) -/
  | fwXWindow
  /-- FW 0x45, Y-window (R151) -/
  | fwYWindow
  /-- FW 0x4E, X-cursor (R152) -/
  | fwXCursor
  /-- FW 0x4F, Y-cursor (R153) -/
  | fwYCursor
  /-- NF 0x02, power-off (R154) -/
  | nfPowerOff (data : List Byte) (wait : Bool)
  /-- NF 0x04, power-on (R155) -/
  | nfPowerOn (data : List Byte) (wait : Bool)
  /-- NF 0x07, deep-sleep (R156) -/
  | nfDeepSleep (data : List Byte)
  /-- NF 0x10, transmission-1 (R157) -/
  | nfTransmission1
  /-- NF 0x12, legacy-refresh (R158) -/
  | nfLegacyRefresh
  /-- NF 0x13, transmission-2 (R159) -/
  | nfTransmission2
  /-- NF `P_REG_LUT_OP[0]`, register LUT VCOM (R160) -/
  | nfRegLut0
  /-- NF `P_REG_LUT_OP[1]`, register LUT white-to-white (R160) -/
  | nfRegLut1
  /-- NF `P_REG_LUT_OP[2]`, register LUT black-to-white (R160) -/
  | nfRegLut2
  /-- NF `P_REG_LUT_OP[3]`, register LUT white-to-black (R160) -/
  | nfRegLut3
  /-- NF `P_REG_LUT_OP[4]`, register LUT black-to-black (R160) -/
  | nfRegLut4
  deriving DecidableEq, Repr

end Sys2Proof
end

