-- ==== Sys2Proof/WellFormed.lean ====
section
/-! DEFINITION. Which instructions are well formed, and which instructions a given EPDC can meet. -/

namespace Sys2Proof

/-- A table entry's data has 0 to 255 bytes (R69, R99, R131). -/
def dataOk (data : List Byte) : Bool := decide (data.length ≤ 255)

/-- The data bytes an instruction carries as an operand. -/
def Instr.operandData : Instr → List Byte
  | .reset | .init _ | .transfer _ | .refresh _ | .sleep | .wake => []
  | .fwGateSetting d _ | .fwGateVoltage d _ | .fwSourceVoltage d _ | .fwBooster d _ | .fwDeepSleep d => d
  | .fwDataEntryMode d _ | .fwSensorEnable d _ | .fwVcom d _ | .fwDisplayOption d _ | .fwBorder d _ => d
  | .fwRefreshTrigger | .fwUpdateControl | .fwRamWriteA | .fwRamWriteB | .fwLutUpload => []
  | .fwXWindow | .fwYWindow | .fwXCursor | .fwYCursor => []
  | .nfPowerOff d _ | .nfPowerOn d _ | .nfDeepSleep d => d
  | .nfTransmission1 | .nfLegacyRefresh | .nfTransmission2 => []
  | .nfRegLut0 | .nfRegLut1 | .nfRegLut2 | .nfRegLut3 | .nfRegLut4 => []

/-- An instruction is well formed iff its operand data has at most 255 bytes (R69); every other operand is bounded by
its type. -/
def Instr.wf (i : Instr) : Bool := dataOk i.operandData

/-- The variant whose panel an instruction speaks to (R67), none for a host operation, which both variants have. -/
def Instr.variant? : Instr → Option Variant
  | .reset | .init _ | .transfer _ | .refresh _ | .sleep | .wake => none
  | .fwGateSetting _ _ | .fwGateVoltage _ _ | .fwSourceVoltage _ _ | .fwBooster _ _ | .fwDeepSleep _ => some .fw
  | .fwDataEntryMode _ _ | .fwSensorEnable _ _ | .fwVcom _ _ | .fwDisplayOption _ _ | .fwBorder _ _ => some .fw
  | .fwRefreshTrigger | .fwUpdateControl | .fwRamWriteA | .fwRamWriteB | .fwLutUpload => some .fw
  | .fwXWindow | .fwYWindow | .fwXCursor | .fwYCursor => some .fw
  | .nfPowerOff _ _ | .nfPowerOn _ _ | .nfDeepSleep _ => some .nf
  | .nfTransmission1 | .nfLegacyRefresh | .nfTransmission2 => some .nf
  | .nfRegLut0 | .nfRegLut1 | .nfRegLut2 | .nfRegLut3 | .nfRegLut4 => some .nf

/-- An EPDC can meet an instruction iff it is a host operation or a command of that EPDC's variant (R67, R68). -/
def Instr.fits (c : Config) (i : Instr) : Bool :=
  match i.variant? with
  | none => true
  | some v => v == c.variant

end Sys2Proof
end

