-- ==== Sys2Proof/Decode.lean ====
section
/-! DEFINITION. Decoding and encoding: the CMD word (R59 to R63), the panel command frames (R64, R65, R67, R69), and the
host's view of the decoder by opcode-table words. -/

namespace Sys2Proof

/-- An encoded instruction: a word the host writes to CMD, or a panel command frame (section 2 of 30_encoding.md). -/
inductive Code where
  | hostWord (w : Word)
  | frame (f : Frame)
  deriving DecidableEq, Repr

/-- Why a code is no instruction. -/
inductive DecodeError where
  /-- Bits [31:11] of a CMD word are not 0 (R61). -/
  | reservedBits
  /-- The OP field names no operation (R61). -/
  | unknownOp (op : Byte)
  /-- WIN or MODE is set for an operation that has no such operand (R61). -/
  | operandNotAllowed
  /-- The byte is not among the rows of R67 for the variant and for what emits it; a table's byte is then sent
  unchanged and has no meaning (R68). -/
  | notListed (op : Byte)
  /-- A table entry asks a wait of the deep-sleep command (R131). -/
  | deepSleepWaits
  /-- A table entry's data has more than 255 bytes (R69). -/
  | payloadTooLong
  deriving DecidableEq, Repr

/-! ### The CMD word -/

/-- `w[7:0]`, OP (R59). -/
def cmdOp (w : Word) : Byte := w.extractLsb' 0 8

/-- `w[8]`, WIN (R59). -/
def cmdWin (w : Word) : Bool := w.getLsbD 8

/-- `w[10:9]`, MODE (R59). -/
def cmdMode (w : Word) : BitVec 2 := w.extractLsb' 9 2

/-- `w[31:11]`, RSV (R59). -/
def cmdRsv (w : Word) : BitVec 21 := w.extractLsb' 11 21

/-- Whether a CMD word has neither WIN nor MODE set. -/
def cmdPlain (w : Word) : Bool := !cmdWin w && cmdMode w == 0

/-- Decoding a CMD word (R61, R62). -/
def decodeHostOp (w : Word) : Except DecodeError Instr :=
  if cmdRsv w ≠ 0 then .error .reservedBits
  else if cmdOp w = 0x01 then (if cmdPlain w then .ok .reset else .error .operandNotAllowed)
  else if cmdOp w = 0x02 then (if cmdWin w then .error .operandNotAllowed else .ok (.init (Mode.ofCode (cmdMode w))))
  else if cmdOp w = 0x03 then (if cmdMode w = 0 then .ok (.transfer (cmdWin w)) else .error .operandNotAllowed)
  else if cmdOp w = 0x04 then (if cmdWin w then .error .operandNotAllowed else .ok (.refresh (Mode.ofCode (cmdMode w))))
  else if cmdOp w = 0x05 then (if cmdPlain w then .ok .sleep else .error .operandNotAllowed)
  else if cmdOp w = 0x06 then (if cmdPlain w then .ok .wake else .error .operandNotAllowed)
  else .error (.unknownOp (cmdOp w))

/-- A CMD word from its fields (R59): RSV, MODE, WIN, OP from the top down. -/
def cmdWord (op : Byte) (win : Bool) (mode : BitVec 2) : Word :=
  (0 : BitVec 21) ++ mode ++ BitVec.ofBool win ++ op

/-! ### Panel command frames -/

/-- FW commands that `T_INIT_SEQ` and `T_SLEEP_SEQ` emit, by their byte (R67). -/
def decodeFwTable (op : Byte) (a : EntryArgs) : Except DecodeError Instr :=
  if op = 0x01 then .ok (.fwGateSetting a.data a.wait)
  else if op = 0x03 then .ok (.fwGateVoltage a.data a.wait)
  else if op = 0x04 then .ok (.fwSourceVoltage a.data a.wait)
  else if op = 0x0C then .ok (.fwBooster a.data a.wait)
  else if op = 0x10 then (if a.wait then .error .deepSleepWaits else .ok (.fwDeepSleep a.data))
  else if op = 0x11 then .ok (.fwDataEntryMode a.data a.wait)
  else if op = 0x18 then .ok (.fwSensorEnable a.data a.wait)
  else if op = 0x2C then .ok (.fwVcom a.data a.wait)
  else if op = 0x37 then .ok (.fwDisplayOption a.data a.wait)
  else if op = 0x3C then .ok (.fwBorder a.data a.wait)
  else .error (.notListed op)

/-- FW commands that a fixed rule emits, by their byte (R67). -/
def decodeFwRule (op : Byte) : Except DecodeError Instr :=
  if op = 0x20 then .ok .fwRefreshTrigger
  else if op = 0x22 then .ok .fwUpdateControl
  else if op = 0x24 then .ok .fwRamWriteA
  else if op = 0x26 then .ok .fwRamWriteB
  else if op = 0x32 then .ok .fwLutUpload
  else if op = 0x44 then .ok .fwXWindow
  else if op = 0x45 then .ok .fwYWindow
  else if op = 0x4E then .ok .fwXCursor
  else if op = 0x4F then .ok .fwYCursor
  else .error (.notListed op)

/-- NF commands that `T_INIT_SEQ` and `T_SLEEP_SEQ` emit, by their byte (R67). -/
def decodeNfTable (op : Byte) (a : EntryArgs) : Except DecodeError Instr :=
  if op = 0x02 then .ok (.nfPowerOff a.data a.wait)
  else if op = 0x04 then .ok (.nfPowerOn a.data a.wait)
  else if op = 0x07 then (if a.wait then .error .deepSleepWaits else .ok (.nfDeepSleep a.data))
  else .error (.notListed op)

/-- NF commands that a fixed rule emits, by their byte; the register-LUT opcodes are parameters (R67, R160). -/
def decodeNfRule (c : Config) (op : Byte) : Except DecodeError Instr :=
  if op = 0x10 then .ok .nfTransmission1
  else if op = 0x12 then .ok .nfLegacyRefresh
  else if op = 0x13 then .ok .nfTransmission2
  else if op = c.regLutOp.vcom then .ok .nfRegLut0
  else if op = c.regLutOp.ww then .ok .nfRegLut1
  else if op = c.regLutOp.bw then .ok .nfRegLut2
  else if op = c.regLutOp.wb then .ok .nfRegLut3
  else if op = c.regLutOp.bb then .ok .nfRegLut4
  else .error (.notListed op)

/-- Decoding a panel command frame on an EPDC with parameters `c` (R67). -/
def decodeFrame (c : Config) (f : Frame) : Except DecodeError Instr :=
  match f.args with
  | none =>
    match c.variant with
    | .fw => decodeFwRule f.op
    | .nf => decodeNfRule c f.op
  | some a =>
    if dataOk a.data then
      match c.variant with
      | .fw => decodeFwTable f.op a
      | .nf => decodeNfTable f.op a
    else .error .payloadTooLong

/-- Decoding a code on an EPDC with parameters `c`. -/
def decode (c : Config) : Code → Except DecodeError Instr
  | .hostWord w => decodeHostOp w
  | .frame f => decodeFrame c f

/-! ### The encoder -/

/-- A frame that a sequence table emits. -/
def tableFrame (op : Byte) (data : List Byte) (wait : Bool) : Frame := ⟨op, some ⟨data, wait⟩⟩

/-- A frame that a fixed rule emits. -/
def ruleFrame (op : Byte) : Frame := ⟨op, none⟩

/-- The code of an instruction, written from R59, R60 and R67. -/
def encode (c : Config) : Instr → Code
  | .reset => .hostWord (cmdWord 0x01 false 0)
  | .init m => .hostWord (cmdWord 0x02 false m.code)
  | .transfer win => .hostWord (cmdWord 0x03 win 0)
  | .refresh m => .hostWord (cmdWord 0x04 false m.code)
  | .sleep => .hostWord (cmdWord 0x05 false 0)
  | .wake => .hostWord (cmdWord 0x06 false 0)
  | .fwGateSetting data wait => .frame (tableFrame 0x01 data wait)
  | .fwGateVoltage data wait => .frame (tableFrame 0x03 data wait)
  | .fwSourceVoltage data wait => .frame (tableFrame 0x04 data wait)
  | .fwBooster data wait => .frame (tableFrame 0x0C data wait)
  | .fwDeepSleep data => .frame (tableFrame 0x10 data false)
  | .fwDataEntryMode data wait => .frame (tableFrame 0x11 data wait)
  | .fwSensorEnable data wait => .frame (tableFrame 0x18 data wait)
  | .fwRefreshTrigger => .frame (ruleFrame 0x20)
  | .fwUpdateControl => .frame (ruleFrame 0x22)
  | .fwRamWriteA => .frame (ruleFrame 0x24)
  | .fwRamWriteB => .frame (ruleFrame 0x26)
  | .fwVcom data wait => .frame (tableFrame 0x2C data wait)
  | .fwLutUpload => .frame (ruleFrame 0x32)
  | .fwDisplayOption data wait => .frame (tableFrame 0x37 data wait)
  | .fwBorder data wait => .frame (tableFrame 0x3C data wait)
  | .fwXWindow => .frame (ruleFrame 0x44)
  | .fwYWindow => .frame (ruleFrame 0x45)
  | .fwXCursor => .frame (ruleFrame 0x4E)
  | .fwYCursor => .frame (ruleFrame 0x4F)
  | .nfPowerOff data wait => .frame (tableFrame 0x02 data wait)
  | .nfPowerOn data wait => .frame (tableFrame 0x04 data wait)
  | .nfDeepSleep data => .frame (tableFrame 0x07 data false)
  | .nfTransmission1 => .frame (ruleFrame 0x10)
  | .nfLegacyRefresh => .frame (ruleFrame 0x12)
  | .nfTransmission2 => .frame (ruleFrame 0x13)
  | .nfRegLut0 => .frame (ruleFrame c.regLutOp.vcom)
  | .nfRegLut1 => .frame (ruleFrame c.regLutOp.ww)
  | .nfRegLut2 => .frame (ruleFrame c.regLutOp.bw)
  | .nfRegLut3 => .frame (ruleFrame c.regLutOp.wb)
  | .nfRegLut4 => .frame (ruleFrame c.regLutOp.bb)

/-! ### The table's words

A host operation's table word is the CMD word, 32 bits. A panel command's table word is its opcode byte, 8 bits. The
byte alone does not say the variant, nor whether a table or a rule emits it, so the four readings are tried in a
fixed order, FW before NF and rule before table, each on the standard parameter set (log 10). -/

/-- A table entry with no data and no wait: a lone command byte. -/
def loneArgs : EntryArgs := ⟨[], false⟩

/-- The variant and the frame that a lone panel byte stands for; a byte no row lists is a raw table byte of FW (R68). -/
def frameOfByte (b : Byte) : Variant × Frame :=
  if (decodeFwRule b).isOk then (.fw, ruleFrame b)
  else if (decodeFwTable b loneArgs).isOk then (.fw, ⟨b, some loneArgs⟩)
  else if (decodeNfRule (Config.standard .nf) b).isOk then (.nf, ruleFrame b)
  else if (decodeNfTable b loneArgs).isOk then (.nf, ⟨b, some loneArgs⟩)
  else (.fw, ⟨b, some loneArgs⟩)

/-- The code of a table word of `nbits` bits: 32 for a CMD word, 8 for a panel byte. -/
def codeOfTableWord (nbits w : Nat) : Option (Variant × Code) :=
  if nbits = 32 then some (.fw, .hostWord (BitVec.ofNat 32 w))
  else if nbits = 8 then some ((frameOfByte (BitVec.ofNat 8 w)).1, .frame (frameOfByte (BitVec.ofNat 8 w)).2)
  else none

/-- The instruction the decoder reads from a table word; `none` where it refuses. -/
def decodeTableWord (nbits w : Nat) : Option Instr :=
  match codeOfTableWord nbits w with
  | none => none
  | some (v, code) => (decode (Config.standard v) code).toOption

end Sys2Proof
end

