-- ==== Sys2Proof/Machine/State.lean ====
section
/-! DEFINITION. The state of the EPDC and of what stands around it (R19 to R41, R9, R10, R177), the ways a step stops,
and the state after the EPDC's own reset (R178). -/

namespace Sys2Proof.Machine

/-! ### The enumerated registers -/

/-- The operation state `st.state` (R30). -/
inductive OpState where
  | uninit
  | idle
  | transferring
  | refreshing
  | sleeping
  | initializing
  | resetting
  | enteringSleep
  deriving DecidableEq, Repr

/-- The operation code `st.op` (R34, R60). -/
inductive OpCode where
  | reset
  | init
  | transfer
  | refresh
  | sleep
  | wake
  deriving DecidableEq, Repr

/-- The result code `st.err` (R161); the codes 0x0A to 0xFF never occur. -/
inductive ErrCode where
  | ok
  | busyTimeout
  | invalidBufferSize
  | notInitialized
  | driverAsleep
  | transportFailure
  | degraded
  | badOp
  | badMode
  | badWindow
  deriving DecidableEq, Repr

/-! ### The trace -/

/-- An output pin driven by `SetPin` (R16). -/
inductive Pin where
  | rst
  | dc
  deriving DecidableEq, Repr

/-- An event on the panel interface (R9). -/
inductive Event where
  | pin (p : Pin) (v : Level)
  | cs (asserted : Bool)
  | xfer (bytes : List Byte)
  | xferFail (bytes : List Byte)
  | delay (ms : Nat)
  | busySample (v : Level)
  deriving DecidableEq, Repr

/-! ### The sequencer's step pointer, as the pseudocode that is left -/

/-- A rectangle of pixels (R110). -/
structure Rect where
  x0 : Nat
  y0 : Nat
  ww : Nat
  wh : Nat
  deriving DecidableEq, Repr

/-- Where the bytes of a data frame come from; memory is read at the step of the transfer (R50). -/
inductive Source where
  /-- bytes of a table or of a parameter -/
  | lit (bytes : List Byte)
  /-- `Region1(rect)` of NEW (R118) -/
  | region (r : Rect)
  /-- plane A of `Planes(rect)` (R119) -/
  | planeA (r : Rect)
  /-- plane B of `Planes(rect)` (R119) -/
  | planeB (r : Rect)
  /-- `MemRead(OLD, 0, n)` (R125) -/
  | oldFrame (n : Nat)
  deriving DecidableEq, Repr

/-- A primitive step of the sequencer (R35), or one of the assignments between them. -/
inductive Prim where
  /-- `SetPin(RST, v)` -/
  | setRst (v : Level)
  /-- `SetPin(DC, v)` -/
  | setDc (v : Level)
  /-- `CS_Assert()` -/
  | csAssert
  /-- `CS_Deassert()` -/
  | csDeassert
  /-- `st.touched <- 1` and `SpiXfer` of the bytes lo to hi − 1 of a source -/
  | xfer (src : Source) (lo hi : Nat)
  /-- `Delay(ms)` -/
  | delay (ms : Nat)
  /-- the loop of `WaitIdle(st.ltimeout)` with k polls behind it (R82) -/
  | poll (k : Nat)
  /-- `Merge(rect)`, one atomic step (R114) -/
  | merge
  /-- `CopyForward()`, one atomic step (R127) -/
  | copyForward
  /-- `st.lutValid <- 0`, the start of `InstallLut` (R93) -/
  | lutClear
  /-- `st.lutValid <- 1; st.lutMode <- m`, the end of `InstallLut` (R93) -/
  | lutSet (m : Mode)
  /-- `raise E(TRANSPORT_FAILURE)`, behind the deassertion of CS (R74, R75, R78) -/
  | raiseTransport
  deriving DecidableEq, Repr

/-- A piece of the running operation's pseudocode that is left: a panel command still to be decoded, or a primitive. -/
inductive Micro where
  | frame (f : Frame)
  | prim (p : Prim)
  deriving DecidableEq, Repr

/-! ### The host -/

/-- The width of a host access in bytes (R46). -/
inductive Width where
  | b1
  | b2
  | b4
  deriving DecidableEq, Repr

/-- A host access (R46): a read, or a write whose data stands in the low bits of the word. -/
inductive Access where
  | rd (w : Width) (addr : HostAddr)
  | wr (w : Width) (addr : HostAddr) (value : Word)
  deriving DecidableEq, Repr

/-- A statement of a host program (R70, R71): an access, or `waitdone`, the polling of STATUS until RUN = 0. -/
inductive HostStmt where
  | access (a : Access)
  | waitdone
  deriving DecidableEq, Repr

/-- A stream of draws: the ones given, and how many of the free value's were used after they ran out. -/
structure DrawStream where
  given : List Bool
  used : Nat
  deriving DecidableEq, Repr

/-! ### The state -/

/-- The host-writable registers (R24 to R26). XFER_LEN has 21 writable bits. -/
structure HostRegs where
  winOrg : Word
  winSize : Word
  xferLen : BitVec 21
  timeout : Word
  deriving DecidableEq, Repr

/-- The operands latched at acceptance (R34): `st.op`, `st.lmode`, `st.lwin`, `st.lorg`, `st.lsize`, `st.llen`,
`st.ltimeout`. -/
structure Latch where
  op : OpCode
  mode : Mode
  win : Bool
  org : Word
  size : Word
  len : BitVec 21
  timeout : Word
  deriving DecidableEq, Repr

/-- The output pins (R36): RST (0 = in reset), DC (0 = command), CS (`true` = asserted). -/
structure Pins where
  rst : Level
  dc : Level
  cs : Bool
  deriving DecidableEq, Repr

/-- The cells of a byte memory, by rising offset; what an offset without a cell reads as is the memory's own (`newByte`,
`oldByte`, `stageByte` in Machine/Ops.lean). -/
abbrev Memory := List Host.Cell

/-- The state (R19). -/
structure State where
  /-- the parameters and read-only tables (R11, R39) -/
  cfg : Config
  /-- WIN_ORG, WIN_SIZE, XFER_LEN, TIMEOUT -/
  regs : HostRegs
  /-- `st.state` -/
  state : OpState
  /-- `st.run` -/
  run : Bool
  /-- `st.degraded` -/
  degraded : Bool
  /-- `st.lutValid` -/
  lutValid : Bool
  /-- `st.lutMode` -/
  lutMode : Mode
  /-- `st.err` -/
  err : ErrCode
  /-- `st.overrun` -/
  overrun : Bool
  /-- `st.fmt` -/
  fmt : Level
  /-- `st.sessMode` -/
  sessMode : Mode
  /-- `st.touched` -/
  touched : Bool
  /-- the latched operands -/
  latch : Latch
  /-- `st.seqpc`, the primitive steps of the running operation so far -/
  seqpc : Nat
  /-- the pseudocode of the running operation that is left: where `st.seqpc` stands -/
  todo : List Micro
  /-- `st.rst`, `st.dc`, `st.cs` -/
  pins : Pins
  /-- STAGE -/
  stage : Memory
  /-- NEW -/
  new : Memory
  /-- OLD -/
  old : Memory
  /-- the event trace (R9) -/
  trace : List Event
  /-- the BUSY levels to come (R10) -/
  busyIn : DrawStream
  /-- the SPI outcomes to come, `true` for success (R10) -/
  xferIn : DrawStream
  /-- who moves where host and sequencer both can, `true` for the host (R50) -/
  schedIn : DrawStream
  /-- the host's remaining program (R177) -/
  hostq : List HostStmt
  /-- the data words of the host's reads so far (R70) -/
  reads : List Word
  deriving DecidableEq, Repr

/-! ### Stops -/

/-- How a run stops as faulted: an access with the host bus's error response (R177). Both leave no next state, so no
claim about a next state can rest on them: safe. -/
inductive Fault where
  /-- Raised by a host access: a 1- or 2-byte access to the register space, or an address that is no multiple of the
  width (R46, I12). Safe. -/
  | misalignedAccess
  /-- Raised by a host access: a write to the STAGE aperture while RUN = 1 (R48, I13). Safe. -/
  | stageLocked
  deriving DecidableEq, Repr

/-- What the model gives no meaning to. -/
inductive Refusal where
  /-- Raised by a refused arm of `exec`: the instruction has no meaning yet. Safe. -/
  | notModelled (mnemonic : String)
  /-- Raised by `step`: the parameter set fails R14, so there is no such EPDC (I16). Safe. -/
  | illFormedParameters
  deriving DecidableEq, Repr

/-- What a step or an instruction answers. -/
abbrev Result := Host.Outcome State Fault Refusal

/-! ### Reset -/

/-- The state after the reset of an EPDC with the given parameters (R41, R178): the spec's value for every field it
names; for the latched operands and the step pointer, which it leaves unspecified, the values of log 4; STAGE lists
nothing, so every byte of it is a free value (log 5); no draw is given (logs 1, 2); the host's program is empty (log
6). -/
def State.resetOf (c : Config) : State where
  cfg := c
  regs := ⟨0, 0, 0, BitVec.ofNat 32 c.defaultTimeoutMs⟩
  state := .uninit
  run := false
  degraded := false
  lutValid := false
  lutMode := .gray
  err := .ok
  overrun := false
  fmt := false
  sessMode := .full
  touched := false
  latch := ⟨.reset, .gray, false, 0, 0, 0, 0⟩
  seqpc := 0
  todo := []
  pins := ⟨true, false, false⟩
  stage := []
  new := []
  old := []
  trace := []
  busyIn := ⟨[], 0⟩
  xferIn := ⟨[], 0⟩
  schedIn := ⟨[], 0⟩
  hostq := []
  reads := []

/-- The state after reset of the standard FW unit (log 3). -/
def State.reset : State := State.resetOf (Config.standard .fw)

end Sys2Proof.Machine
end

