-- ==== Sys2Proof/Machine/Ops.lean ====
section
/-! DEFINITION. The named operations over memories, draws, pins and flags, and the shared ways an operation is accepted,
rejected, ended and aborted (R162, R164). -/

namespace Sys2Proof.Machine

/-! ### Byte memories -/

/-- The byte a cell lists for an offset. -/
def Memory.lookup : Memory → Nat → Option Byte
  | [], _ => none
  | (k, b) :: rest, a => if k = a then some b else Memory.lookup rest a

/-- Write one byte. `blank` is what an offset without a cell reads as, where that is known; writing it
removes the cell. -/
def Memory.set (blank : Option Byte) : Memory → Nat → Byte → Memory
  | [], a, b => if blank = some b then [] else [(a, b)]
  | (k, c) :: rest, a, b =>
    if a < k then (if blank = some b then (k, c) :: rest else (a, b) :: (k, c) :: rest)
    else if a = k then (if blank = some b then rest else (a, b) :: rest)
    else (k, c) :: Memory.set blank rest a b

/-- The canonical form: offsets strictly rising, and no cell equal to what its offset reads as without it. -/
def Memory.wf (blank : Option Byte) : Memory → Bool
  | [] => true
  | (k, b) :: rest => decide (blank ≠ some b) && rest.all (fun c => decide (k < c.1)) && Memory.wf blank rest

/-- Every cell lies below the memory's capacity. -/
def Memory.below (cap : Nat) (m : Memory) : Bool := m.all (fun c => decide (c.1 < cap))

/-- `MemWrite` of a list of cells in order; a memory of `cap` bytes has no byte at or past `cap`. -/
def Memory.setAll (blank : Option Byte) (cap : Nat) (m : Memory) (cells : List Host.Cell) : Memory :=
  cells.foldl (fun acc c => if c.1 < cap then acc.set blank c.1 c.2 else acc) m

/-- What a byte of NEW and of OLD reads as until it is written: 0xFF, white (R41). -/
def white : Byte := 0xFF

/-- One byte of STAGE; a byte nothing has written since reset is a free value (R179, log 5). -/
def State.stageByte (s : State) (a : Nat) : Byte := (s.stage.lookup a).getD (Config.stageDraw a)

/-- One byte of NEW (R41). -/
def State.newByte (s : State) (a : Nat) : Byte := (s.new.lookup a).getD white

/-- One byte of OLD (R41). -/
def State.oldByte (s : State) (a : Nat) : Byte := (s.old.lookup a).getD white

/-- `MemRead(STAGE, a, n)` (R16). -/
def State.readStage (s : State) (a n : Nat) : List Byte := (List.range n).map (fun i => s.stageByte (a + i))

/-- `MemRead(NEW, a, n)` (R16). -/
def State.readNew (s : State) (a n : Nat) : List Byte := (List.range n).map (fun i => s.newByte (a + i))

/-- `MemRead(OLD, a, n)` (R16). -/
def State.readOld (s : State) (a n : Nat) : List Byte := (List.range n).map (fun i => s.oldByte (a + i))

/-- `MemWrite` to STAGE; an unwritten byte's value is not known, so no written byte is dropped. -/
def writeStage (cells : List Host.Cell) (s : State) : State :=
  { s with stage := s.stage.setAll none s.cfg.slotCap cells }

/-- `MemWrite` to NEW, as one atomic step of the sequencer (R50). -/
def writeNew (cells : List Host.Cell) (s : State) : State :=
  { s with new := s.new.setAll (some white) s.cfg.slotCap cells, seqpc := s.seqpc + 1 }

/-- `CopyForward()`: OLD[a] <- NEW[a] for every a below `SLOT_CAP`, one atomic step (R127). -/
def copyForward (s : State) : State :=
  { s with
    old := s.new.filter (fun c => decide (c.1 < s.cfg.slotCap))
      ++ s.old.filter (fun c => decide (s.cfg.slotCap ≤ c.1)),
    seqpc := s.seqpc + 1 }

/-! ### Draws -/

/-- The next draw of a stream: the first given one, else the free value of the counter (R10). -/
def DrawStream.next (free : Nat → Bool) (d : DrawStream) : Bool :=
  match d.given with
  | b :: _ => b
  | [] => free d.used

/-- The stream after one draw. -/
def DrawStream.rest (d : DrawStream) : DrawStream :=
  match d.given with
  | _ :: bs => ⟨bs, d.used⟩
  | [] => ⟨[], d.used + 1⟩

/-- The stream after n draws. -/
def DrawStream.drop : Nat → DrawStream → DrawStream
  | 0, d => d
  | n + 1, d => DrawStream.drop n d.rest

/-- The draw that comes after n others. -/
def DrawStream.nth (free : Nat → Bool) (n : Nat) (d : DrawStream) : Bool := (d.drop n).next free

/-! ### Primitive steps of the sequencer (R16, R35) -/

/-- `SetPin(RST, v)`. -/
def setRst (v : Level) (s : State) : State :=
  { s with pins := { s.pins with rst := v }, trace := s.trace ++ [.pin .rst v], seqpc := s.seqpc + 1 }

/-- `SetPin(DC, v)`; the event is emitted even when the level does not change (R74). -/
def setDc (v : Level) (s : State) : State :=
  { s with pins := { s.pins with dc := v }, trace := s.trace ++ [.pin .dc v], seqpc := s.seqpc + 1 }

/-- `CS_Assert()` and `CS_Deassert()`. -/
def setCs (asserted : Bool) (s : State) : State :=
  { s with pins := { s.pins with cs := asserted }, trace := s.trace ++ [.cs asserted], seqpc := s.seqpc + 1 }

/-- The events of `Delay(ms)`: none for 0 (R16). -/
def delayEvents (ms : Nat) : List Event := if ms = 0 then [] else [.delay ms]

/-- `Delay(ms)`. -/
def delay (ms : Nat) (s : State) : State :=
  { s with trace := s.trace ++ delayEvents ms, seqpc := s.seqpc + 1 }

/-- The level the next `SampleBusy()` returns: a draw (R10). -/
def State.busyLevel (s : State) : Level := s.busyIn.next Config.freeBusy

/-- `SampleBusy()`. -/
def sampleBusy (s : State) : State :=
  { s with busyIn := s.busyIn.rest, trace := s.trace ++ [.busySample s.busyLevel], seqpc := s.seqpc + 1 }

/-- Whether the next SPI transfer succeeds: a draw, or always when `P_TRANSPORT_CAN_FAIL` is false (R10). -/
def State.xferOk (s : State) : Bool := if s.cfg.transportCanFail then s.xferIn.next Config.freeXfer else true

/-- `st.touched <- 1` and `SpiXfer(bytes)` (R16, R74, R75). -/
def spiXfer (bytes : List Byte) (s : State) : State :=
  { s with
    touched := true,
    xferIn := if s.cfg.transportCanFail then s.xferIn.rest else s.xferIn,
    trace := s.trace ++ [if s.xferOk then .xfer bytes else .xferFail bytes],
    seqpc := s.seqpc + 1 }

/-- `st.lutValid <- 0` (R93). -/
def clearTracker (s : State) : State := { s with lutValid := false }

/-- `st.lutValid <- 1; st.lutMode <- m` (R93). -/
def setTracker (m : Mode) (s : State) : State := { s with lutValid := true, lutMode := m }

/-- What a procedure answers: it returns, or it raises an error (R16). -/
inductive Res where
  | ok (s : State)
  | raised (code : ErrCode) (s : State)
  deriving DecidableEq, Repr

/-- `WaitIdle(T)`, from the point where k polls lie behind it and at most `fuel` are still to come (R82). -/
def waitIdle (T : Nat) : (fuel k : Nat) → State → Res
  | fuel, k, s =>
    if s.busyLevel ≠ s.cfg.busyActive then .ok (delay s.cfg.postIdleMs (sampleBusy s))
    else if T ≤ k * s.cfg.pollMs then .raised .busyTimeout (sampleBusy s)
    else
      match fuel with
      | 0 => .raised .busyTimeout (sampleBusy s)
      | fuel + 1 => waitIdle T fuel (k + 1) (delay s.cfg.pollMs (sampleBusy s))

/-- `K = ceil(T / P_POLL_MS)`, the most poll delays a `WaitIdle(T)` makes (R83). -/
def State.maxPolls (s : State) : Nat := ceilDiv s.latch.timeout.toNat s.cfg.pollMs

/-! ### Acceptance, rejection, end and abort of an operation -/

/-- The running state of an operation (R31). -/
def runningState : OpCode → OpState
  | .reset => .resetting
  | .init => .initializing
  | .wake => .initializing
  | .transfer => .transferring
  | .refresh => .refreshing
  | .sleep => .enteringSleep

/-- Acceptance: the operands are latched, ERR and `st.touched` cleared, RUN set (R34, R162), the step pointer put at the
operation's first step (R35), and the operation's running state entered with it (R30; log 7). -/
def accept (op : OpCode) (mode : Mode) (win : Bool) (s : State) : State :=
  { s with
    latch := ⟨op, mode, win, s.regs.winOrg, s.regs.winSize, s.regs.xferLen, s.regs.timeout⟩,
    err := .ok, touched := false, run := true, seqpc := 0, state := runningState op }

/-- Rejection at issue: nothing but ERR changes (R162). -/
def reject (e : ErrCode) (s : State) : State := { s with err := e }

/-- A CMD write while an operation runs: ignored, but for OVERRUN (R162). -/
def overrunCmd (s : State) : State := { s with overrun := true }

/-- `OnCmdWrite`, given the issue check's code and the accepted state (R162). -/
def issueCmd (e : ErrCode) (accepted : State) (s : State) : State :=
  if s.run then overrunCmd s else if e = .ok then accepted else reject e s

/-- `Abort(code)`: the running operation ends at once (R164). RESET never raises. -/
def abort (code : ErrCode) (s : State) : State :=
  match s.latch.op with
  | .init | .wake | .reset => { s with err := code, state := .uninit, run := false, todo := [] }
  | .transfer | .refresh | .sleep =>
    { s with err := code, degraded := s.degraded || s.touched, state := .idle, run := false, todo := [] }

/-- The successful end of the running operation (R97, R102, R121, R126, R130). -/
def finish (s : State) : State :=
  match s.latch.op with
  | .reset => { s with state := .uninit, err := .ok, run := false, todo := [] }
  | .init | .wake => { s with degraded := false, state := .idle, err := .ok, run := false, todo := [] }
  | .transfer | .refresh => { s with state := .idle, err := .ok, run := false, todo := [] }
  | .sleep => { s with lutValid := false, state := .sleeping, err := .ok, run := false, todo := [] }

end Sys2Proof.Machine
end

