-- ==== Sys2Proof/Machine/Operands.lean ====
section
/-! DEFINITION. The operands of the operations: rectangles and lengths (R110 to R113), pixels (R38), the bytes a data
frame carries (R114 to R119), the window and cursor payloads (R116), and the chunks of a data frame (R76). -/

namespace Sys2Proof.Machine

/-! ### Rectangles -/

/-- The full frame (R110). -/
def fullRect (c : Config) : Rect := ⟨0, 0, c.width, c.height⟩

/-- The window that WIN_ORG and WIN_SIZE give (R62, R110): X0 and WW in bits [15:0], Y0 and WH in bits [31:16]. -/
def windowRect (org size : Word) : Rect :=
  ⟨(org.extractLsb' 0 16).toNat, (org.extractLsb' 16 16).toNat, (size.extractLsb' 0 16).toNat,
    (size.extractLsb' 16 16).toNat⟩

/-- The rectangle of a TRANSFER with a given WIN operand (R110). -/
def transferRect (c : Config) (win : Bool) (org size : Word) : Rect :=
  if win then windowRect org size else fullRect c

/-- The rectangle of the running operation: a TRANSFER's own (R110), the full frame for INIT (R98) and REFRESH
(R125). -/
def State.rect (s : State) : Rect :=
  if s.latch.op = .transfer then transferRect s.cfg s.latch.win s.latch.org s.latch.size else fullRect s.cfg

/-- A legal window (R111). -/
def windowLegal (c : Config) (r : Rect) : Bool :=
  c.variant == .fw && decide (1 ≤ r.ww) && decide (1 ≤ r.wh) && decide (r.x0 + r.ww ≤ c.width)
    && decide (r.y0 + r.wh ≤ c.height) && r.x0 % 8 == 0 && (r.ww % 8 == 0 || r.x0 + r.ww == c.width)

/-- Pixels a buffer byte holds: 8 in 1-bit format, 4 in 2-bit format (R114). -/
def pixelsPerByte (fmt : Level) : Nat := if fmt then 4 else 8

/-- `RB(rect)`, buffer bytes a row (R112). -/
def bufferRow (fmt : Level) (r : Rect) : Nat := ceilDiv r.ww (pixelsPerByte fmt)

/-- `PB(rect)`, panel bytes a row (R112). -/
def panelRow (r : Rect) : Nat := ceilDiv r.ww 8

/-- The expected buffer length of a rectangle (R112). -/
def expectedLen (fmt : Level) (r : Rect) : Nat := bufferRow fmt r * r.wh

/-- Bytes a row of NEW and OLD in a format: `BPR1` or `BPR2` (R12, R114). -/
def slotRow (c : Config) (fmt : Level) : Nat := if fmt then c.bpr2 else c.bpr1

/-! ### Pixels (R38) -/

/-- Pixel (x, y) of NEW in 1-bit format: bit 7 − (x mod 8) of byte y × BPR1 + floor(x / 8). -/
def State.pixel1 (s : State) (x y : Nat) : Bool := (s.newByte (y * s.cfg.bpr1 + x / 8)).getLsbD (7 - x % 8)

/-- Pixel (x, y) of NEW in 2-bit format: bits [7 − 2(x mod 4) : 6 − 2(x mod 4)] of byte y × BPR2 + floor(x / 4). -/
def State.pixel2 (s : State) (x y : Nat) : BitVec 2 :=
  (s.newByte (y * s.cfg.bpr2 + x / 4)).extractLsb' (6 - 2 * (x % 4)) 2

/-! ### The merge (R114) -/

/-- The cells `Merge(rect)` writes to NEW, in the order of its loops. -/
def mergeCells (s : State) (r : Rect) : List Host.Cell :=
  (List.range r.wh).flatMap fun row =>
    (List.range (bufferRow s.fmt r)).map fun col =>
      ((r.y0 + row) * slotRow s.cfg s.fmt + r.x0 / pixelsPerByte s.fmt + col,
        s.stageByte (row * bufferRow s.fmt r + col))

/-- `Merge(rect)` for the running operation's rectangle, one atomic step. -/
def merge (s : State) : State := writeNew (mergeCells s s.rect) s

/-! ### What a data frame carries -/

/-- `Region1(rect)` (R118). -/
def region1 (s : State) (r : Rect) : List Byte :=
  (List.range r.wh).flatMap fun row =>
    (List.range (panelRow r)).map fun col => s.newByte ((r.y0 + row) * s.cfg.bpr1 + r.x0 / 8 + col)

/-- A byte from its eight bits, bit 7 first. -/
def packByte (f : Nat → Bool) : Byte :=
  BitVec.ofBool (f 0) ++ BitVec.ofBool (f 1) ++ BitVec.ofBool (f 2) ++ BitVec.ofBool (f 3) ++ BitVec.ofBool (f 4)
    ++ BitVec.ofBool (f 5) ++ BitVec.ofBool (f 6) ++ BitVec.ofBool (f 7)

/-- The bit of a plane byte at row `row`, byte `col`, position j (j = 0 the leftmost pixel): bit `which` of the pixel
inside the rectangle, 1 in the padding at its right edge (R119). -/
def planeBit (which : Nat) (s : State) (r : Rect) (row col j : Nat) : Bool :=
  if r.x0 + 8 * col + j < r.x0 + r.ww then (s.pixel2 (r.x0 + 8 * col + j) (r.y0 + row)).getLsbD which else true

/-- One plane of `Planes(rect)`: plane A takes bit 1 of each pixel, plane B bit 0 (R119). -/
def plane (which : Nat) (s : State) (r : Rect) : List Byte :=
  (List.range r.wh).flatMap fun row =>
    (List.range (panelRow r)).map fun col => packByte (planeBit which s r row col)

/-- The bytes of a source, read from the memories as they stand. -/
def Source.bytes (s : State) : Source → List Byte
  | .lit bs => bs
  | .region r => region1 s r
  | .planeA r => plane 1 s r
  | .planeB r => plane 0 s r
  | .oldFrame n => s.readOld 0 n

/-- How many bytes a source has (R66, R112). -/
def Source.length : Source → Nat
  | .lit bs => bs.length
  | .region r => panelRow r * r.wh
  | .planeA r => panelRow r * r.wh
  | .planeB r => panelRow r * r.wh
  | .oldFrame n => n

/-- Bytes lo to hi − 1 of a source, `s[lo..hi)` (R15). -/
def Source.slice (s : State) (src : Source) (lo hi : Nat) : List Byte := ((src.bytes s).drop lo).take (hi - lo)

/-- The chunks of a data frame of n bytes: transfer k carries bytes [k × P_MAX_CHUNK, min((k+1) × P_MAX_CHUNK, n)),
for k below ceil(n / P_MAX_CHUNK) (R76). -/
def chunks (chunk n : Nat) : List (Nat × Nat) :=
  (List.range (ceilDiv n chunk)).map fun k => (k * chunk, min ((k + 1) * chunk) n)

/-! ### Window and cursor payloads (R116) -/

/-- The first payload a table lists for an argument. -/
def payloadLookup {α : Type} [DecidableEq α] : List (α × List Byte) → α → Option (List Byte)
  | [], _ => none
  | (k, p) :: rest, a => if k = a then some p else payloadLookup rest a

/-- `F_XWIN(x0, ww)`; the reference default is [x0 / 8, (x0 + ww − 1) / 8]. -/
def fXWin (c : Config) (x0 ww : Nat) : List Byte :=
  (payloadLookup c.payloads.xWin (x0, ww)).getD [BitVec.ofNat 8 (x0 / 8), BitVec.ofNat 8 ((x0 + ww - 1) / 8)]

/-- `F_YWIN(y0, wh)`; the reference default is the first and the last row, each low byte first. -/
def fYWin (c : Config) (y0 wh : Nat) : List Byte :=
  (payloadLookup c.payloads.yWin (y0, wh)).getD
    [BitVec.ofNat 8 (y0 % 256), BitVec.ofNat 8 (y0 / 256), BitVec.ofNat 8 ((y0 + wh - 1) % 256),
      BitVec.ofNat 8 ((y0 + wh - 1) / 256)]

/-- `F_XCUR(x0)`; the reference default is [x0 / 8]. -/
def fXCur (c : Config) (x0 : Nat) : List Byte := (payloadLookup c.payloads.xCur x0).getD [BitVec.ofNat 8 (x0 / 8)]

/-- `F_YCUR(y0)`; the reference default is the row, low byte first. -/
def fYCur (c : Config) (y0 : Nat) : List Byte :=
  (payloadLookup c.payloads.yCur y0).getD [BitVec.ofNat 8 (y0 % 256), BitVec.ofNat 8 (y0 / 256)]

/-! ### LUT tables (R87) -/

/-- The i-th sub-table of `T_REGLUT[m]`; the store holds none for GRAY and FULL (R87). -/
def regLutTable (c : Config) (i : Nat) (m : Mode) : List Byte :=
  match m with
  | .part => c.lutRegPart.toList.getD i []
  | .fast => c.lutRegFast.toList.getD i []
  | .gray => []
  | .full => []

/-- `P_REG_LUT_OP[i]` (R90). -/
def regLutOpcode (c : Config) (i : Nat) : Byte := c.regLutOp.toList.getD i 0

end Sys2Proof.Machine
end

