-- ==== Sys2Proof/Machine/Flags.lean ====
section
/-! DEFINITION. The numbers of the enumerated registers, the register views STATUS, GEOM and CONFIG (R23, R28, R29), and
the issue checks (R163). -/

namespace Sys2Proof.Machine

/-- The 3-bit number of an operation state (R30). -/
def OpState.code : OpState → BitVec 3
  | .uninit => 0
  | .idle => 1
  | .transferring => 2
  | .refreshing => 3
  | .sleeping => 4
  | .initializing => 5
  | .resetting => 6
  | .enteringSleep => 7

/-- The five states held only while an operation runs (R30). -/
def OpState.isRunning : OpState → Bool
  | .uninit => false
  | .idle => false
  | .sleeping => false
  | .transferring => true
  | .refreshing => true
  | .initializing => true
  | .resetting => true
  | .enteringSleep => true

/-- The number of an operation code (R60). -/
def OpCode.code : OpCode → Byte
  | .reset => 0x01
  | .init => 0x02
  | .transfer => 0x03
  | .refresh => 0x04
  | .sleep => 0x05
  | .wake => 0x06

/-- The number of a result code (R161). -/
def ErrCode.code : ErrCode → Byte
  | .ok => 0x00
  | .busyTimeout => 0x01
  | .invalidBufferSize => 0x02
  | .notInitialized => 0x03
  | .driverAsleep => 0x04
  | .transportFailure => 0x05
  | .degraded => 0x06
  | .badOp => 0x07
  | .badMode => 0x08
  | .badWindow => 0x09

/-- STATUS (R23): reserved [31:20], SESS_MODE, FMT, OVERRUN, ERR, LUT_MODE, LUT_VALID, DEGRADED, RUN, STATE. -/
def statusWord (s : State) : Word :=
  (0 : BitVec 12) ++ s.sessMode.code ++ BitVec.ofBool s.fmt ++ BitVec.ofBool s.overrun ++ s.err.code
    ++ s.lutMode.code ++ BitVec.ofBool s.lutValid ++ BitVec.ofBool s.degraded ++ BitVec.ofBool s.run ++ s.state.code

/-- GEOM (R28): W in bits [15:0], H in bits [31:16]. -/
def geomWord (c : Config) : Word := BitVec.ofNat 16 c.height ++ BitVec.ofNat 16 c.width

/-- CONFIG (R29): bit 0 is `P_VARIANT`, bit 1 is `P_BUSY_ACTIVE`. -/
def configWord (c : Config) : Word :=
  (0 : BitVec 30) ++ BitVec.ofBool c.busyActive ++ BitVec.ofBool (c.variant == .nf)

/-! ### Issue checks, in the order of R163 -/

/-- Check 2 for TRANSFER, REFRESH and SLEEP: the state. -/
def checkState (s : State) : ErrCode :=
  if s.state = .sleeping then .driverAsleep else if s.state = .uninit then .notInitialized else .ok

/-- The check of an INIT mode: GRAY does not exist on NF (R103). -/
def checkInitMode (c : Config) (m : Mode) : ErrCode := if c.variant = .nf ∧ m = .gray then .badMode else .ok

/-- The check of a REFRESH mode: the variant and the session's format (R123). -/
def checkRefreshMode (s : State) (m : Mode) : ErrCode :=
  if (s.cfg.variant = .nf ∧ m = .gray) ∨ m.fmt ≠ s.fmt then .badMode else .ok

/-- Checks 2 and 3 for TRANSFER and REFRESH: the state, then DEGRADED. -/
def checkReady (s : State) : ErrCode :=
  if checkState s ≠ .ok then checkState s else if s.degraded then .degraded else .ok

/-- `IssueCheck` of TRANSFER (R163): state, DEGRADED, BAD_WINDOW (R111), INVALID_BUFFER_SIZE (R113). -/
def checkTransfer (win : Bool) (s : State) : ErrCode :=
  if checkReady s ≠ .ok then checkReady s
  else if win ∧ ¬ windowLegal s.cfg (windowRect s.regs.winOrg s.regs.winSize) then .badWindow
  else if s.regs.xferLen.toNat ≠ expectedLen s.fmt (transferRect s.cfg win s.regs.winOrg s.regs.winSize) then
    .invalidBufferSize
  else .ok

/-- `IssueCheck` of REFRESH (R163): state, DEGRADED, BAD_MODE (R123). -/
def checkRefresh (m : Mode) (s : State) : ErrCode :=
  if checkReady s ≠ .ok then checkReady s else checkRefreshMode s m

end Sys2Proof.Machine
end

