-- ==== Sys2Proof/Machine/Bus.lean ====
section
/-! DEFINITION. The SPI frame router and the busy-wait as lists of primitive steps (R74, R75, R82), and the running of
such a list to its end or to its first error. -/

namespace Sys2Proof.Machine

/-- `SendCommand(op)` (R74). -/
def commandFrame (c : Config) (op : Byte) : List Prim :=
  [.setDc false, .csAssert, .xfer (.lit [op]) 0 1, .csDeassert, .delay c.cmdSettleMs]

/-- `SendData(s)` (R75), in the transfers of R76; nothing for an empty payload (R77). -/
def dataFrame (c : Config) (src : Source) : List Prim :=
  if src.length = 0 then []
  else .setDc true :: .csAssert :: (chunks c.maxChunk src.length).map (fun p => .xfer src p.1 p.2) ++ [.csDeassert]

/-- `WaitIdle(st.ltimeout)` where one is asked for (R85). -/
def busyWait (wait : Bool) : List Prim := if wait then [.poll 0] else []

/-- A panel command: its command frame, its data frame, its busy-wait. -/
def commandPlan (c : Config) (op : Byte) (src : Source) (wait : Bool) : List Prim :=
  commandFrame c op ++ dataFrame c src ++ busyWait wait

/-- `ResetPulse()` (R96). -/
def resetPulse (c : Config) : List Prim :=
  [.setRst false, .delay c.resetHoldMs, .setRst true, .delay c.resetHoldMs]

/-- One primitive, run to its end. A failed transfer deasserts CS and raises TRANSPORT_FAILURE (R74, R75, R78); a
busy-wait runs until idle or timeout (R82). -/
def runPrim (p : Prim) (s : State) : Res :=
  match p with
  | .setRst v => .ok (setRst v s)
  | .setDc v => .ok (setDc v s)
  | .csAssert => .ok (setCs true s)
  | .csDeassert => .ok (setCs false s)
  | .xfer src lo hi =>
    if s.xferOk then .ok (spiXfer (src.slice s lo hi) s)
    else .raised .transportFailure (setCs false (spiXfer (src.slice s lo hi) s))
  | .delay ms => .ok (delay ms s)
  | .poll k => waitIdle s.latch.timeout.toNat (s.maxPolls - k) k s
  | .merge => .ok (merge s)
  | .copyForward => .ok (copyForward s)
  | .lutClear => .ok (clearTracker s)
  | .lutSet m => .ok (setTracker m s)
  | .raiseTransport => .raised .transportFailure s

/-- A list of primitives, run to its end or to its first error. -/
def runPrims : List Prim → State → Res
  | [], s => .ok s
  | p :: ps, s =>
    match runPrim p s with
    | .ok s' => runPrims ps s'
    | .raised code s' => .raised code s'

/-- The state a procedure leaves in the running operation: an error ends the operation (R164). -/
def Res.orAbort : Res → State
  | .ok s => s
  | .raised code s => abort code s

/-- A panel command carried out within the running operation. -/
def perform (plan : List Prim) (s : State) : State := (runPrims plan s).orAbort

end Sys2Proof.Machine
end

