-- ==== Sys2Proof/Machine/PanelFw.lean ====
section
/-! DEFINITION. The FW panel commands (R135 to R153). Each has a plan, the primitive
steps it is made of in a given state, and its meaning: the plan carried out within the running operation,
an error ending that operation (R164). -/

namespace Sys2Proof.Machine

/-- FW 0x01, gate-setting (R135): the table entry's data, and a busy-wait if the entry asks. -/
def planFwGateSetting (data : List Byte) (wait : Bool) (s : State) : List Prim :=
  commandPlan s.cfg 0x01 (.lit data) wait

/-- The meaning of FW 0x01, gate-setting. -/
def execFwGateSetting (data : List Byte) (wait : Bool) (s : State) : Result :=
  .next (perform (planFwGateSetting data wait s) s)

/-- FW 0x03, gate-voltage (R136): the table entry's data, and a busy-wait if the entry asks. -/
def planFwGateVoltage (data : List Byte) (wait : Bool) (s : State) : List Prim :=
  commandPlan s.cfg 0x03 (.lit data) wait

/-- The meaning of FW 0x03, gate-voltage. -/
def execFwGateVoltage (data : List Byte) (wait : Bool) (s : State) : Result :=
  .next (perform (planFwGateVoltage data wait s) s)

/-- FW 0x04, source-voltage (R137): the table entry's data, and a busy-wait if the entry asks. -/
def planFwSourceVoltage (data : List Byte) (wait : Bool) (s : State) : List Prim :=
  commandPlan s.cfg 0x04 (.lit data) wait

/-- The meaning of FW 0x04, source-voltage. -/
def execFwSourceVoltage (data : List Byte) (wait : Bool) (s : State) : Result :=
  .next (perform (planFwSourceVoltage data wait s) s)

/-- FW 0x0C, booster (R138): the table entry's data, and a busy-wait if the entry asks. -/
def planFwBooster (data : List Byte) (wait : Bool) (s : State) : List Prim :=
  commandPlan s.cfg 0x0C (.lit data) wait

/-- The meaning of FW 0x0C, booster. -/
def execFwBooster (data : List Byte) (wait : Bool) (s : State) : Result :=
  .next (perform (planFwBooster data wait s) s)

/-- FW 0x10, deep-sleep (R139): the table entry's data; no busy-wait follows (R131). -/
def planFwDeepSleep (data : List Byte) (s : State) : List Prim :=
  commandPlan s.cfg 0x10 (.lit data) false

/-- The meaning of FW 0x10, deep-sleep. -/
def execFwDeepSleep (data : List Byte) (s : State) : Result :=
  .next (perform (planFwDeepSleep data s) s)

/-- FW 0x11, data-entry-mode (R140): the table entry's data, and a busy-wait if the entry asks. -/
def planFwDataEntryMode (data : List Byte) (wait : Bool) (s : State) : List Prim :=
  commandPlan s.cfg 0x11 (.lit data) wait

/-- The meaning of FW 0x11, data-entry-mode. -/
def execFwDataEntryMode (data : List Byte) (wait : Bool) (s : State) : Result :=
  .next (perform (planFwDataEntryMode data wait s) s)

/-- FW 0x18, sensor-enable (R141): the table entry's data, and a busy-wait if the entry asks. -/
def planFwSensorEnable (data : List Byte) (wait : Bool) (s : State) : List Prim :=
  commandPlan s.cfg 0x18 (.lit data) wait

/-- The meaning of FW 0x18, sensor-enable. -/
def execFwSensorEnable (data : List Byte) (wait : Bool) (s : State) : Result :=
  .next (perform (planFwSensorEnable data wait s) s)

/-- FW 0x20, refresh-trigger (R142): no data, and a busy-wait always follows. -/
def planFwRefreshTrigger (s : State) : List Prim :=
  commandPlan s.cfg 0x20 (.lit []) true

/-- The meaning of FW 0x20, refresh-trigger. -/
def execFwRefreshTrigger (s : State) : Result :=
  .next (perform (planFwRefreshTrigger s) s)

/-- FW 0x22, display-update-control (R143): the one byte `P_UPD[m]` of the latched mode; no busy-wait. -/
def planFwUpdateControl (s : State) : List Prim :=
  commandPlan s.cfg 0x22 (.lit [s.cfg.upd s.latch.mode]) false

/-- The meaning of FW 0x22, display-update-control. -/
def execFwUpdateControl (s : State) : Result :=
  .next (perform (planFwUpdateControl s) s)

/-- FW 0x24, RAM-write-plane-A (R144): the 1-bit region of NEW in a 1-bit session, plane A of the split in a
2-bit session; no busy-wait. -/
def planFwRamWriteA (s : State) : List Prim :=
  commandPlan s.cfg 0x24 (if s.fmt then .planeA s.rect else .region s.rect) false

/-- The meaning of FW 0x24, RAM-write-plane-A. -/
def execFwRamWriteA (s : State) : Result :=
  .next (perform (planFwRamWriteA s) s)

/-- FW 0x26, RAM-write-plane-B (R145): the first `FRAME1` bytes of OLD in a REFRESH, plane B of the split in
a TRANSFER; no busy-wait. -/
def planFwRamWriteB (s : State) : List Prim :=
  commandPlan s.cfg 0x26 (if s.latch.op = .refresh then .oldFrame s.cfg.frame1 else .planeB s.rect) false

/-- The meaning of FW 0x26, RAM-write-plane-B. -/
def execFwRamWriteB (s : State) : Result :=
  .next (perform (planFwRamWriteB s) s)

/-- FW 0x2C, VCOM (R146): the table entry's data, and a busy-wait if the entry asks. -/
def planFwVcom (data : List Byte) (wait : Bool) (s : State) : List Prim :=
  commandPlan s.cfg 0x2C (.lit data) wait

/-- The meaning of FW 0x2C, VCOM. -/
def execFwVcom (data : List Byte) (wait : Bool) (s : State) : Result :=
  .next (perform (planFwVcom data wait s) s)

/-- FW 0x32, LUT-upload (R147): `T_LUTF[m]` of the latched mode, and a busy-wait follows. -/
def planFwLutUpload (s : State) : List Prim :=
  commandPlan s.cfg 0x32 (.lit (s.cfg.lutFlash.get s.latch.mode)) true

/-- The meaning of FW 0x32, LUT-upload. -/
def execFwLutUpload (s : State) : Result :=
  .next (perform (planFwLutUpload s) s)

/-- FW 0x37, display-option (R148): the table entry's data, and a busy-wait if the entry asks. -/
def planFwDisplayOption (data : List Byte) (wait : Bool) (s : State) : List Prim :=
  commandPlan s.cfg 0x37 (.lit data) wait

/-- The meaning of FW 0x37, display-option. -/
def execFwDisplayOption (data : List Byte) (wait : Bool) (s : State) : Result :=
  .next (perform (planFwDisplayOption data wait s) s)

/-- FW 0x3C, border (R149): the table entry's data, and a busy-wait if the entry asks. -/
def planFwBorder (data : List Byte) (wait : Bool) (s : State) : List Prim :=
  commandPlan s.cfg 0x3C (.lit data) wait

/-- The meaning of FW 0x3C, border. -/
def execFwBorder (data : List Byte) (wait : Bool) (s : State) : Result :=
  .next (perform (planFwBorder data wait s) s)

/-- FW 0x44, X-window (R150): `F_XWIN(x0, ww)` of the operation's rectangle; no busy-wait. -/
def planFwXWindow (s : State) : List Prim :=
  commandPlan s.cfg 0x44 (.lit (fXWin s.cfg s.rect.x0 s.rect.ww)) false

/-- The meaning of FW 0x44, X-window. -/
def execFwXWindow (s : State) : Result :=
  .next (perform (planFwXWindow s) s)

/-- FW 0x45, Y-window (R151): `F_YWIN(y0, wh)` of the operation's rectangle; no busy-wait. -/
def planFwYWindow (s : State) : List Prim :=
  commandPlan s.cfg 0x45 (.lit (fYWin s.cfg s.rect.y0 s.rect.wh)) false

/-- The meaning of FW 0x45, Y-window. -/
def execFwYWindow (s : State) : Result :=
  .next (perform (planFwYWindow s) s)

/-- FW 0x4E, X-cursor (R152): `F_XCUR(x0)` of the operation's rectangle; no busy-wait. -/
def planFwXCursor (s : State) : List Prim :=
  commandPlan s.cfg 0x4E (.lit (fXCur s.cfg s.rect.x0)) false

/-- The meaning of FW 0x4E, X-cursor. -/
def execFwXCursor (s : State) : Result :=
  .next (perform (planFwXCursor s) s)

/-- FW 0x4F, Y-cursor (R153): `F_YCUR(y0)` of the operation's rectangle; no busy-wait. -/
def planFwYCursor (s : State) : List Prim :=
  commandPlan s.cfg 0x4F (.lit (fYCur s.cfg s.rect.y0)) false

/-- The meaning of FW 0x4F, Y-cursor. -/
def execFwYCursor (s : State) : Result :=
  .next (perform (planFwYCursor s) s)

end Sys2Proof.Machine
end

