-- ==== Sys2Proof/Machine/PanelNf.lean ====
section
/-! DEFINITION. The NF panel commands (R154 to R160). Each has a plan, the primitive
steps it is made of in a given state, and its meaning: the plan carried out within the running operation,
an error ending that operation (R164). -/

namespace Sys2Proof.Machine

/-- NF 0x02, power-off (R154): the table entry's data, and a busy-wait if the entry asks. -/
def planNfPowerOff (data : List Byte) (wait : Bool) (s : State) : List Prim :=
  commandPlan s.cfg 0x02 (.lit data) wait

/-- The meaning of NF 0x02, power-off. -/
def execNfPowerOff (data : List Byte) (wait : Bool) (s : State) : Result :=
  .next (perform (planNfPowerOff data wait s) s)

/-- NF 0x04, power-on (R155): the table entry's data, and a busy-wait if the entry asks. -/
def planNfPowerOn (data : List Byte) (wait : Bool) (s : State) : List Prim :=
  commandPlan s.cfg 0x04 (.lit data) wait

/-- The meaning of NF 0x04, power-on. -/
def execNfPowerOn (data : List Byte) (wait : Bool) (s : State) : Result :=
  .next (perform (planNfPowerOn data wait s) s)

/-- NF 0x07, deep-sleep (R156): the table entry's data; no busy-wait follows (R131). -/
def planNfDeepSleep (data : List Byte) (s : State) : List Prim :=
  commandPlan s.cfg 0x07 (.lit data) false

/-- The meaning of NF 0x07, deep-sleep. -/
def execNfDeepSleep (data : List Byte) (s : State) : Result :=
  .next (perform (planNfDeepSleep data s) s)

/-- NF 0x10, transmission-1 (R157): the first `FRAME1` bytes of OLD; no busy-wait. -/
def planNfTransmission1 (s : State) : List Prim :=
  commandPlan s.cfg 0x10 (.oldFrame s.cfg.frame1) false

/-- The meaning of NF 0x10, transmission-1. -/
def execNfTransmission1 (s : State) : Result :=
  .next (perform (planNfTransmission1 s) s)

/-- NF 0x12, legacy-refresh (R158): no data, and a busy-wait follows. -/
def planNfLegacyRefresh (s : State) : List Prim :=
  commandPlan s.cfg 0x12 (.lit []) true

/-- The meaning of NF 0x12, legacy-refresh. -/
def execNfLegacyRefresh (s : State) : Result :=
  .next (perform (planNfLegacyRefresh s) s)

/-- NF 0x13, transmission-2 (R159): the full 1-bit frame of NEW; no busy-wait. -/
def planNfTransmission2 (s : State) : List Prim :=
  commandPlan s.cfg 0x13 (.region (fullRect s.cfg)) false

/-- The meaning of NF 0x13, transmission-2. -/
def execNfTransmission2 (s : State) : Result :=
  .next (perform (planNfTransmission2 s) s)

/-- NF `P_REG_LUT_OP[0]`, VCOM (R160): `T_REGLUT[m][0]` of the latched mode;
no busy-wait before the fifth command (R93). -/
def planNfRegLut0 (s : State) : List Prim :=
  commandPlan s.cfg (regLutOpcode s.cfg 0) (.lit (regLutTable s.cfg 0 s.latch.mode)) false

/-- The meaning of NF `P_REG_LUT_OP[0]`, register LUT VCOM. -/
def execNfRegLut0 (s : State) : Result :=
  .next (perform (planNfRegLut0 s) s)

/-- NF `P_REG_LUT_OP[1]`, white-to-white (R160): `T_REGLUT[m][1]` of the latched mode;
no busy-wait before the fifth command (R93). -/
def planNfRegLut1 (s : State) : List Prim :=
  commandPlan s.cfg (regLutOpcode s.cfg 1) (.lit (regLutTable s.cfg 1 s.latch.mode)) false

/-- The meaning of NF `P_REG_LUT_OP[1]`, register LUT white-to-white. -/
def execNfRegLut1 (s : State) : Result :=
  .next (perform (planNfRegLut1 s) s)

/-- NF `P_REG_LUT_OP[2]`, black-to-white (R160): `T_REGLUT[m][2]` of the latched mode;
no busy-wait before the fifth command (R93). -/
def planNfRegLut2 (s : State) : List Prim :=
  commandPlan s.cfg (regLutOpcode s.cfg 2) (.lit (regLutTable s.cfg 2 s.latch.mode)) false

/-- The meaning of NF `P_REG_LUT_OP[2]`, register LUT black-to-white. -/
def execNfRegLut2 (s : State) : Result :=
  .next (perform (planNfRegLut2 s) s)

/-- NF `P_REG_LUT_OP[3]`, white-to-black (R160): `T_REGLUT[m][3]` of the latched mode;
no busy-wait before the fifth command (R93). -/
def planNfRegLut3 (s : State) : List Prim :=
  commandPlan s.cfg (regLutOpcode s.cfg 3) (.lit (regLutTable s.cfg 3 s.latch.mode)) false

/-- The meaning of NF `P_REG_LUT_OP[3]`, register LUT white-to-black. -/
def execNfRegLut3 (s : State) : Result :=
  .next (perform (planNfRegLut3 s) s)

/-- NF `P_REG_LUT_OP[4]`, black-to-black (R160): `T_REGLUT[m][4]` of the latched mode;
one busy-wait follows the fifth command (R93). -/
def planNfRegLut4 (s : State) : List Prim :=
  commandPlan s.cfg (regLutOpcode s.cfg 4) (.lit (regLutTable s.cfg 4 s.latch.mode)) true

/-- The meaning of NF `P_REG_LUT_OP[4]`, register LUT black-to-black. -/
def execNfRegLut4 (s : State) : Result :=
  .next (perform (planNfRegLut4 s) s)

end Sys2Proof.Machine
end

