-- ==== Sys2Proof/Machine/Sequencer.lean ====
section
/-! DEFINITION. The sequencer (R8, R35): the plan of a frame it fetches, the run of an operation's pseudocode to its
end, and its primitive step. -/

namespace Sys2Proof.Machine

/-- The plan of a panel command; a host operation is no panel command and has none. -/
def planOf (i : Instr) (s : State) : List Prim :=
  match i with
  | .reset | .init _ | .transfer _ | .refresh _ | .sleep | .wake => []
  | .fwGateSetting data wait => planFwGateSetting data wait s
  | .fwGateVoltage data wait => planFwGateVoltage data wait s
  | .fwSourceVoltage data wait => planFwSourceVoltage data wait s
  | .fwBooster data wait => planFwBooster data wait s
  | .fwDeepSleep data => planFwDeepSleep data s
  | .fwDataEntryMode data wait => planFwDataEntryMode data wait s
  | .fwSensorEnable data wait => planFwSensorEnable data wait s
  | .fwRefreshTrigger => planFwRefreshTrigger s
  | .fwUpdateControl => planFwUpdateControl s
  | .fwRamWriteA => planFwRamWriteA s
  | .fwRamWriteB => planFwRamWriteB s
  | .fwVcom data wait => planFwVcom data wait s
  | .fwLutUpload => planFwLutUpload s
  | .fwDisplayOption data wait => planFwDisplayOption data wait s
  | .fwBorder data wait => planFwBorder data wait s
  | .fwXWindow => planFwXWindow s
  | .fwYWindow => planFwYWindow s
  | .fwXCursor => planFwXCursor s
  | .fwYCursor => planFwYCursor s
  | .nfPowerOff data wait => planNfPowerOff data wait s
  | .nfPowerOn data wait => planNfPowerOn data wait s
  | .nfDeepSleep data => planNfDeepSleep data s
  | .nfTransmission1 => planNfTransmission1 s
  | .nfLegacyRefresh => planNfLegacyRefresh s
  | .nfTransmission2 => planNfTransmission2 s
  | .nfRegLut0 => planNfRegLut0 s
  | .nfRegLut1 => planNfRegLut1 s
  | .nfRegLut2 => planNfRegLut2 s
  | .nfRegLut3 => planNfRegLut3 s
  | .nfRegLut4 => planNfRegLut4 s

/-- A table's byte that no row lists for the variant: sent unchanged with its data, given no meaning (R68). -/
def rawPlan (f : Frame) (s : State) : List Prim :=
  match f.args with
  | none => commandPlan s.cfg f.op (.lit []) false
  | some a => commandPlan s.cfg f.op (.lit a.data) a.wait

/-- The plan of a frame: that of the command it decodes to. -/
def framePlan (f : Frame) (s : State) : List Prim :=
  match decodeFrame s.cfg f with
  | .ok i => planOf i s
  | .error _ => rawPlan f s

/-- The primitives a piece of pseudocode stands for. -/
def Micro.expand (s : State) : Micro → List Prim
  | .frame f => framePlan f s
  | .prim p => [p]

/-- The rest of an operation's pseudocode run to the operation's end (R97, R102, R121, R126, R130) or to its first error
(R164). -/
def runTodo : List Micro → State → State
  | [], s => finish s
  | m :: ms, s =>
    match runPrims (m.expand s) s with
    | .ok s' => runTodo ms s'
    | .raised code s' => abort code s'

/-- The whole of an accepted operation. -/
def complete (s : State) : State := runTodo s.todo { s with todo := [] }

/-- A host operation that nothing interrupts: the CMD write, and, if it was accepted, the operation to its end. -/
def carryOut (issued s : State) : State :=
  if s.run then issued else if issued.run then complete issued else issued

/-! ### The primitive step -/

/-- One sample of `WaitIdle` and what it leads to, with `rest` the pseudocode behind the wait (R82). -/
def pollStep (k : Nat) (rest : List Micro) (s : State) : State :=
  if s.busyLevel ≠ s.cfg.busyActive then { sampleBusy s with todo := .prim (.delay s.cfg.postIdleMs) :: rest }
  else if s.latch.timeout.toNat ≤ k * s.cfg.pollMs then abort .busyTimeout (sampleBusy s)
  else { sampleBusy s with todo := .prim (.delay s.cfg.pollMs) :: .prim (.poll (k + 1)) :: rest }

/-- One SPI transfer and what it leads to: after a failure, CS is deasserted and the error raised (R74, R75, R78). -/
def xferStep (src : Source) (lo hi : Nat) (rest : List Micro) (s : State) : State :=
  if s.xferOk then { spiXfer (src.slice s lo hi) s with todo := rest }
  else { spiXfer (src.slice s lo hi) s with todo := [.prim .csDeassert, .prim .raiseTransport] }

/-- One step of the sequencer at a primitive, with `rest` the pseudocode behind it (R35). -/
def primStep (p : Prim) (rest : List Micro) (s : State) : State :=
  match p with
  | .setRst v => { setRst v s with todo := rest }
  | .setDc v => { setDc v s with todo := rest }
  | .csAssert => { setCs true s with todo := rest }
  | .csDeassert => { setCs false s with todo := rest }
  | .xfer src lo hi => xferStep src lo hi rest s
  | .delay ms => { delay ms s with todo := rest }
  | .poll k => pollStep k rest s
  | .merge => { merge s with todo := rest }
  | .copyForward => { copyForward s with todo := rest }
  | .lutClear => { clearTracker s with todo := rest }
  | .lutSet m => { setTracker m s with todo := rest }
  | .raiseTransport => abort .transportFailure s

/-- One step of the sequencer (R8, R35): it fetches a panel command and puts its plan in the command's place, takes one
primitive, or ends the operation. -/
def sequencerStep (s : State) : State :=
  match s.todo with
  | [] => finish s
  | .frame f :: rest => { s with todo := (framePlan f s).map .prim ++ rest }
  | .prim p :: rest => primStep p rest s

end Sys2Proof.Machine
end

