-- ==== Sys2Proof/Machine/Procedures.lean ====
section
/-! DEFINITION. The procedures the operations share (R17), as the pseudocode the sequencer works through: SetWindow,
StreamPlane, InstallLut, EnsureLut and RunSeq. -/

namespace Sys2Proof.Machine

/-- `SetWindow(rect)` of the operation's rectangle (R115): X-window, Y-window, X-cursor, Y-cursor. -/
def setWindow : List Micro :=
  [.frame (ruleFrame 0x44), .frame (ruleFrame 0x45), .frame (ruleFrame 0x4E), .frame (ruleFrame 0x4F)]

/-- `StreamPlane(op, s)`: the command and the one data frame its rule gives it (R117). -/
def streamPlane (op : Byte) : List Micro := [.frame (ruleFrame op)]

/-- `InstallLut(m)` of the latched mode m (R93); the busy-wait is the last command's. -/
def installLut (c : Config) (m : Mode) : List Micro :=
  match c.variant with
  | .fw => [.prim .lutClear, .frame (ruleFrame 0x32), .prim (.lutSet m)]
  | .nf => .prim .lutClear :: c.regLutOp.toList.map (fun op => .frame (ruleFrame op)) ++ [.prim (.lutSet m)]

/-- `EnsureLut(m)` with the tracker as it stands (R94). -/
def ensureLut (s : State) (m : Mode) : List Micro :=
  if s.cfg.hasProfile m ∧ ¬ (s.lutValid ∧ s.lutMode = m) then installLut s.cfg m else []

/-- What `RunSeq` does for one entry, in an operation of mode m (R98). -/
def entrySteps (c : Config) (m : Mode) : SeqEntry → List Micro
  | .cmd op data wait => [.frame (tableFrame op data wait)]
  | .wait => [.prim (.poll 0)]
  | .windowFull => setWindow
  | .lut => if c.hasProfile m then installLut c m else []

/-- `RunSeq(table)` in an operation of mode m (R98). -/
def runSeq (c : Config) (m : Mode) (table : List SeqEntry) : List Micro := table.flatMap (entrySteps c m)

end Sys2Proof.Machine
end

