-- ==== Sys2Proof/Machine/InitOps.lean ====
section
/-! DEFINITION. The host operations RESET, INIT and WAKE (43_init_sequencer.md). -/

namespace Sys2Proof.Machine

/-! ### RESET -/

/-- RESET accepted: the tracker is cleared, the reset pulse is to come (R97). -/
def acceptReset (s : State) : State :=
  { accept .reset .gray false s with lutValid := false, todo := (resetPulse s.cfg).map .prim }

/-- The CMD write of RESET (R162): every rest state accepts it. -/
def startReset (s : State) : State := issueCmd .ok (acceptReset s) s

/-- The meaning of RESET (R97). -/
def execReset (s : State) : Result := .next (carryOut (startReset s) s)

/-! ### INIT -/

/-- The pseudocode of INIT and WAKE in mode m: the reset pulse, then `T_INIT_SEQ` (R102). -/
def initProgram (c : Config) (m : Mode) : List Micro := (resetPulse c).map .prim ++ runSeq c m c.initSeq

/-- INIT or WAKE accepted in mode m: the session's mode and format are set, the tracker cleared (R33, R92, R102). -/
def acceptInit (op : OpCode) (m : Mode) (s : State) : State :=
  { accept op m false s with sessMode := m, fmt := m.fmt, lutValid := false, todo := initProgram s.cfg m }

/-- The CMD write of INIT in mode m (R162, R103). -/
def startInit (m : Mode) (s : State) : State := issueCmd (checkInitMode s.cfg m) (acceptInit .init m s) s

/-- The meaning of INIT in mode m (R102). -/
def execInit (m : Mode) (s : State) : Result := .next (carryOut (startInit m s) s)

/-! ### WAKE -/

/-- The CMD write of WAKE: INIT in the session's mode (R106). -/
def startWake (s : State) : State := issueCmd (checkInitMode s.cfg s.sessMode) (acceptInit .wake s.sessMode s) s

/-- The meaning of WAKE (R106). -/
def execWake (s : State) : Result := .next (carryOut (startWake s) s)

end Sys2Proof.Machine
end

