-- ==== Sys2Proof/Machine/RefreshOps.lean ====
section
/-! DEFINITION. The host operations REFRESH and SLEEP (45_refresh.md). -/

namespace Sys2Proof.Machine

/-! ### REFRESH -/

/-- The old image a differential refresh sends first (R125). -/
def sendOld (c : Config) (m : Mode) : List Micro :=
  if m.isDiff then
    match c.variant with
    | .fw => setWindow ++ streamPlane 0x26
    | .nf => streamPlane 0x10
  else []

/-- The display-update-control command and the refresh trigger with its busy-wait (R124, R126). -/
def trigger (c : Config) : List Micro :=
  match c.variant with
  | .fw => [.frame (ruleFrame 0x22), .frame (ruleFrame 0x20)]
  | .nf => [.frame (ruleFrame 0x12)]

/-- The pseudocode of REFRESH in mode m (R126). It sends no 0x24: R67's table lists REFRESH beside TRANSFER for that
byte, but R126's pseudocode holds no 0x24 and R144 says that TRANSFER alone emits it; DEDUCED (log 19). -/
def refreshProgram (s : State) (m : Mode) : List Micro :=
  ensureLut s m ++ sendOld s.cfg m ++ trigger s.cfg ++ [.prim .copyForward]

/-- REFRESH accepted (R126). -/
def acceptRefresh (m : Mode) (s : State) : State :=
  { accept .refresh m false s with todo := refreshProgram s m }

/-- The CMD write of REFRESH in mode m (R162, R163). -/
def startRefresh (m : Mode) (s : State) : State := issueCmd (checkRefresh m s) (acceptRefresh m s) s

/-- The meaning of REFRESH in mode m (R126). -/
def execRefresh (m : Mode) (s : State) : Result := .next (carryOut (startRefresh m s) s)

/-! ### SLEEP -/

/-- SLEEP accepted (R130). -/
def acceptSleep (s : State) : State :=
  { accept .sleep .gray false s with todo := runSeq s.cfg .gray s.cfg.sleepSeq }

/-- The CMD write of SLEEP (R162, R163): only the state is checked. -/
def startSleep (s : State) : State := issueCmd (checkState s) (acceptSleep s) s

/-- The meaning of SLEEP (R130). -/
def execSleep (s : State) : Result := .next (carryOut (startSleep s) s)

end Sys2Proof.Machine
end

