-- ==== Sys2Proof/Machine/TransferOps.lean ====
section
/-! DEFINITION. The host operation TRANSFER (44_frame_transfer.md). -/

namespace Sys2Proof.Machine

/-- The pseudocode of TRANSFER in a session of format `fmt` (R121). -/
def transferProgram (c : Config) (fmt : Level) : List Micro :=
  .prim .merge ::
    match c.variant with
    | .fw =>
      if fmt then setWindow ++ streamPlane 0x24 ++ setWindow ++ streamPlane 0x26
      else setWindow ++ streamPlane 0x24
    | .nf => streamPlane 0x13

/-- TRANSFER accepted (R121). -/
def acceptTransfer (win : Bool) (s : State) : State :=
  { accept .transfer .gray win s with todo := transferProgram s.cfg s.fmt }

/-- The CMD write of TRANSFER (R162, R163). -/
def startTransfer (win : Bool) (s : State) : State := issueCmd (checkTransfer win s) (acceptTransfer win s) s

/-- The meaning of TRANSFER (R121). -/
def execTransfer (win : Bool) (s : State) : Result := .next (carryOut (startTransfer win s) s)

end Sys2Proof.Machine
end

