-- ==== Sys2Proof/Machine/Dispatch.lean ====
section
/-! DEFINITION. The meaning of every instruction. -/

namespace Sys2Proof.Machine

def exec (i : Instr) (s : State) : Host.Outcome State Fault Refusal :=
  match i with
  | .reset => Sys2Proof.Machine.execReset s
  | .init mode => Sys2Proof.Machine.execInit mode s
  | .transfer win => Sys2Proof.Machine.execTransfer win s
  | .refresh mode => Sys2Proof.Machine.execRefresh mode s
  | .sleep => Sys2Proof.Machine.execSleep s
  | .wake => Sys2Proof.Machine.execWake s
  | .fwGateSetting data wait => Sys2Proof.Machine.execFwGateSetting data wait s
  | .fwGateVoltage data wait => Sys2Proof.Machine.execFwGateVoltage data wait s
  | .fwSourceVoltage data wait => Sys2Proof.Machine.execFwSourceVoltage data wait s
  | .fwBooster data wait => Sys2Proof.Machine.execFwBooster data wait s
  | .fwDeepSleep data => Sys2Proof.Machine.execFwDeepSleep data s
  | .fwDataEntryMode data wait => Sys2Proof.Machine.execFwDataEntryMode data wait s
  | .fwSensorEnable data wait => Sys2Proof.Machine.execFwSensorEnable data wait s
  | .fwRefreshTrigger => Sys2Proof.Machine.execFwRefreshTrigger s
  | .fwUpdateControl => Sys2Proof.Machine.execFwUpdateControl s
  | .fwRamWriteA => Sys2Proof.Machine.execFwRamWriteA s
  | .fwRamWriteB => Sys2Proof.Machine.execFwRamWriteB s
  | .fwVcom data wait => Sys2Proof.Machine.execFwVcom data wait s
  | .fwLutUpload => Sys2Proof.Machine.execFwLutUpload s
  | .fwDisplayOption data wait => Sys2Proof.Machine.execFwDisplayOption data wait s
  | .fwBorder data wait => Sys2Proof.Machine.execFwBorder data wait s
  | .fwXWindow => Sys2Proof.Machine.execFwXWindow s
  | .fwYWindow => Sys2Proof.Machine.execFwYWindow s
  | .fwXCursor => Sys2Proof.Machine.execFwXCursor s
  | .fwYCursor => Sys2Proof.Machine.execFwYCursor s
  | .nfPowerOff data wait => Sys2Proof.Machine.execNfPowerOff data wait s
  | .nfPowerOn data wait => Sys2Proof.Machine.execNfPowerOn data wait s
  | .nfDeepSleep data => Sys2Proof.Machine.execNfDeepSleep data s
  | .nfTransmission1 => Sys2Proof.Machine.execNfTransmission1 s
  | .nfLegacyRefresh => Sys2Proof.Machine.execNfLegacyRefresh s
  | .nfTransmission2 => Sys2Proof.Machine.execNfTransmission2 s
  | .nfRegLut0 => Sys2Proof.Machine.execNfRegLut0 s
  | .nfRegLut1 => Sys2Proof.Machine.execNfRegLut1 s
  | .nfRegLut2 => Sys2Proof.Machine.execNfRegLut2 s
  | .nfRegLut3 => Sys2Proof.Machine.execNfRegLut3 s
  | .nfRegLut4 => Sys2Proof.Machine.execNfRegLut4 s

end Sys2Proof.Machine
end

