-- ==== Sys2Proof/Machine/HostPort.lean ====
section
/-! DEFINITION. The host port: the address map (R43 to R45), access legality (R46, R48), the register accesses (R21
to R29) and the aperture accesses (R44, R47). The CMD write is in Machine/Fetch.lean. -/

namespace Sys2Proof.Machine

/-- The width of an access in bytes. -/
def Width.bytes : Width → Nat
  | .b1 => 1
  | .b2 => 2
  | .b4 => 4

/-- Where a host address leads (R43), with the offset inside the region. -/
inductive Region where
  | registers (off : Nat)
  | reserved
  | stage (off : Nat)
  | newSlot (off : Nat)
  | oldSlot (off : Nat)
  deriving DecidableEq, Repr

/-- The host address map (R43). -/
def regionOf (addr : HostAddr) : Region :=
  if addr.toNat < 0x100 then .registers addr.toNat
  else if addr.toNat < 0x100000 then .reserved
  else if addr.toNat < 0x200000 then .stage (addr.toNat - 0x100000)
  else if addr.toNat < 0x300000 then .newSlot (addr.toNat - 0x200000)
  else .oldSlot (addr.toNat - 0x300000)

/-- Whether an access is legal (R46): 4 bytes wide in the register space, and naturally aligned everywhere. -/
def accessLegal (w : Width) (addr : HostAddr) : Bool :=
  addr.toNat % w.bytes == 0
    && match regionOf addr with
      | .registers _ => w == .b4
      | .reserved => true
      | .stage _ => true
      | .newSlot _ => true
      | .oldSlot _ => true

/-- A data word from its bytes, the lowest address in bits [7:0] (R47). -/
def leWord : List Byte → Word
  | [] => 0
  | b :: bs => (leWord bs <<< 8) ||| b.setWidth 32

/-- Byte i of a data word (R47). -/
def wordByte (v : Word) (i : Nat) : Byte := v.extractLsb' (8 * i) 8

/-! ### Reads -/

/-- The value of a register by its offset (R21): CMD and CLEAR read 0, and so does reserved space (R45). -/
def readRegister (s : State) (off : Nat) : Word :=
  if off = 0x04 then statusWord s
  else if off = 0x08 then s.regs.winOrg
  else if off = 0x0C then s.regs.winSize
  else if off = 0x10 then s.regs.xferLen.setWidth 32
  else if off = 0x14 then s.regs.timeout
  else if off = 0x1C then geomWord s.cfg
  else if off = 0x20 then configWord s.cfg
  else 0

/-- An aperture read of n bytes, each by its offset; an offset at or past `SLOT_CAP` reads 0 (R44, R53). R47 gives a 1-
or 2-byte read's n bytes and not the bits above them; that those are 0 is a DESIGN CHOICE (log 17). -/
def readAperture (cap : Nat) (byte : Nat → Byte) (off n : Nat) : Word :=
  leWord ((List.range n).map fun i => if off + i < cap then byte (off + i) else 0)

/-- The data word of a legal read; no read has a side effect (R49). -/
def readData (s : State) (w : Width) (addr : HostAddr) : Word :=
  match regionOf addr with
  | .registers off => readRegister s off
  | .reserved => 0
  | .stage off => readAperture s.cfg.slotCap s.stageByte off w.bytes
  | .newSlot off => readAperture s.cfg.slotCap s.newByte off w.bytes
  | .oldSlot off => readAperture s.cfg.slotCap s.oldByte off w.bytes

/-- A host read; a misaligned one is the error response (R46). -/
def hostRead (w : Width) (addr : HostAddr) (s : State) : Result :=
  if accessLegal w addr then .next { s with reads := s.reads ++ [readData s w addr] } else .fault .misalignedAccess

/-! ### Writes -/

/-- A write to a register other than CMD (R21): STATUS, GEOM, CONFIG and reserved space ignore it, XFER_LEN keeps its 21
writable bits (R25), CLEAR with bit 0 set clears OVERRUN (R27). -/
def writeRegister (off : Nat) (v : Word) (s : State) : State :=
  if off = 0x08 then { s with regs := { s.regs with winOrg := v } }
  else if off = 0x0C then { s with regs := { s.regs with winSize := v } }
  else if off = 0x10 then { s with regs := { s.regs with xferLen := v.setWidth 21 } }
  else if off = 0x14 then { s with regs := { s.regs with timeout := v } }
  else if off = 0x18 then { s with overrun := s.overrun && !v.getLsbD 0 }
  else s

/-- The cells of a write of n bytes at an offset (R47). -/
def writeCells (off n : Nat) (v : Word) : List Host.Cell := (List.range n).map fun i => (off + i, wordByte v i)

/-- A host write but for CMD's. STAGE is locked while RUN = 1 (R48); NEW, OLD and reserved space ignore writes (R43). At
an offset at or past `SLOT_CAP` R44 ignores a write with no error, and R48 gives every write to the STAGE aperture the
error response while RUN = 1; the lock comes first, DEDUCED (log 18). -/
def hostWrite (w : Width) (addr : HostAddr) (v : Word) (s : State) : Result :=
  if accessLegal w addr then
    match regionOf addr with
    | .registers off => .next (writeRegister off v s)
    | .reserved => .next s
    | .stage off => if s.run then .fault .stageLocked else .next (writeStage (writeCells off w.bytes v) s)
    | .newSlot _ => .next s
    | .oldSlot _ => .next s
  else .fault .misalignedAccess

/-- The word an access writes to CMD, if it is a legal CMD write (R22). -/
def Access.cmdWord? : Access → Option Word
  | .wr .b4 addr v => if addr = 0 then some v else none
  | .wr .b1 _ _ => none
  | .wr .b2 _ _ => none
  | .rd _ _ => none

end Sys2Proof.Machine
end

