-- ==== Sys2Proof/Machine/Fetch.lean ====
section
/-! DEFINITION. What a step fetches and runs: the host's next statement, with the CMD write (R162); the sequencer's
turn; and which of the two moves (R50). -/

namespace Sys2Proof.Machine

/-! ### The CMD write -/

/-- The CMD write of a decoded operation, alone: ignored, rejected or accepted in one host step (R162). A panel
command is not written to CMD. -/
def issue (i : Instr) (s : State) : State :=
  match i with
  | .reset => startReset s
  | .init m => startInit m s
  | .transfer win => startTransfer win s
  | .refresh m => startRefresh m s
  | .sleep => startSleep s
  | .wake => startWake s
  | .fwGateSetting _ _ | .fwGateVoltage _ _ | .fwSourceVoltage _ _ | .fwBooster _ _ | .fwDeepSleep _ => s
  | .fwDataEntryMode _ _ | .fwSensorEnable _ _ | .fwVcom _ _ | .fwDisplayOption _ _ | .fwBorder _ _ => s
  | .fwRefreshTrigger | .fwUpdateControl | .fwRamWriteA | .fwRamWriteB | .fwLutUpload => s
  | .fwXWindow | .fwYWindow | .fwXCursor | .fwYCursor => s
  | .nfPowerOff _ _ | .nfPowerOn _ _ | .nfDeepSleep _ => s
  | .nfTransmission1 | .nfLegacyRefresh | .nfTransmission2 => s
  | .nfRegLut0 | .nfRegLut1 | .nfRegLut2 | .nfRegLut3 | .nfRegLut4 => s

/-- The CMD write of an illegal word: BAD_OP (R61, R163), or ignored while an operation runs (R162). -/
def issueIllegal (s : State) : State := issueCmd .badOp s s

/-- Whether the host's next access comes only when no operation runs any more: its program is at an end or at a
`waitdone` (R71). -/
def State.hostWaits (s : State) : Bool :=
  match s.hostq with
  | [] => true
  | .waitdone :: _ => true
  | .access _ :: _ => false

/-- A CMD write (R61, R162), the statement itself already taken off the host's program. When the host then waits for the
operation's end, nothing can come between its steps, and the step is the whole instruction; else it is the CMD
write alone, and the sequencer goes on by primitive steps (log 2). -/
def cmdWrite (w : Word) (s : State) : Result :=
  match decodeHostOp w with
  | .error _ => .next (issueIllegal s)
  | .ok i => if s.hostWaits then exec i s else .next (issue i s)

/-! ### The host's turn -/

/-- A host access, the statement itself already taken off the host's program. -/
def hostAccess (a : Access) (s : State) : Result :=
  match a.cmdWord? with
  | some w => cmdWrite w s
  | none =>
    match a with
    | .rd w addr => hostRead w addr s
    | .wr w addr v => hostWrite w addr v s

/-- The host's next statement. `waitdone` ends with the STATUS value that has RUN = 0 (R71); with no statement left
the run has ended (R177) and nothing changes. -/
def hostStep (s : State) : Result :=
  match s.hostq with
  | [] => .next s
  | .waitdone :: rest => .next { s with hostq := rest, reads := s.reads ++ [statusWord s] }
  | .access a :: rest => hostAccess a { s with hostq := rest }

/-! ### The sequencer's turn -/

/-- A panel command fetched while the host waits: the whole instruction in one step (R79, R80; log 2). A byte no row
lists is sent unchanged (R68). -/
def runFrame (f : Frame) (s : State) : Result :=
  match decodeFrame s.cfg f with
  | .ok i => exec i s
  | .error _ => .next (perform (rawPlan f s) s)

/-- The sequencer's step while the host waits: a whole panel command, or one primitive. -/
def quietStep (s : State) : Result :=
  match s.todo with
  | .frame f :: rest => runFrame f { s with todo := rest }
  | .prim p :: rest => .next (primStep p rest s)
  | [] => .next (finish s)

/-! ### Whose turn it is -/

/-- Whether the host moves before the sequencer, where both can: a draw (log 2). -/
def State.hostFirst (s : State) : Bool := s.schedIn.next Config.freeSched

/-- One step: the host's while no operation runs; the sequencer's while one runs and the host waits; else the one
drawn. -/
def stepOnce (s : State) : Result :=
  if s.run then
    if s.hostWaits then quietStep s
    else if s.hostFirst then hostStep { s with schedIn := s.schedIn.rest }
    else .next (sequencerStep { s with schedIn := s.schedIn.rest })
  else hostStep s

/-! ### Placing an instruction (log 6, log 10) -/

/-- The parameters under which a table word is decoded: the state's own where they read the word as the table does,
else the standard set of the row's variant. -/
def fetchConfig (s : State) (v : Variant) (code : Code) : Config :=
  if (decode s.cfg code).toOption = (decode (Config.standard v) code).toOption then s.cfg else Config.standard v

/-- A CMD write at the head of the host's program, the host waiting for its operation's end. -/
def placeHostWord (w : Word) (s : State) : State :=
  { s with
    hostq := .access (.wr .b4 0 w) :: .waitdone :: s.hostq,
    schedIn := if s.run then ⟨true :: s.schedIn.given, s.schedIn.used⟩ else s.schedIn }

/-- A panel command at the sequencer's step pointer of a running operation, the host waiting for its end. -/
def placeFrame (f : Frame) (s : State) : State :=
  { s with run := true, todo := .frame f :: s.todo, hostq := .waitdone :: s.hostq }

/-- A code where the next step fetches. -/
def placeCode (v : Variant) (code : Code) (s : State) : State :=
  match code with
  | .hostWord w => placeHostWord w { s with cfg := fetchConfig s v code }
  | .frame f => placeFrame f { s with cfg := fetchConfig s v code }

/-- A table word where the next step fetches; a width the table does not have places nothing. -/
def placeTableWord (nbits w : Nat) (s : State) : State :=
  match codeOfTableWord nbits w with
  | some (v, code) => placeCode v code s
  | none => s

end Sys2Proof.Machine
end

