-- ==== Sys2Proof/Machine/Step.lean ====
section
/-! DEFINITION. The step of the machine, and the placing of an instruction where it fetches. -/

namespace Sys2Proof.Machine

/-- One step. A parameter set that fails R14 is no EPDC and is refused (I16). -/
def step (s : State) : Host.Outcome State Fault Refusal :=
  if s.cfg.wf then stepOnce s else .refused .illFormedParameters

/-- The state with a table word placed where the next step fetches its instruction (log 6, log 10). -/
def State.withFetchWord (s : State) (nbits w : Nat) : State := placeTableWord nbits w s

end Sys2Proof.Machine
end

