-- ==== Sys2Proof/Safety.lean ====
section
/-! DEFINITION. What counts as a good state and as an ended run, and the terms in which claims speak of the trace: the
bus protocol (R73, R79, R96), the invariant of the machine, what a panel command may change, and the trace shorthand of
95_test_vectors.md. -/

namespace Sys2Proof.Machine

/-! ### The bus protocol -/

/-- What a primitive does to the bus lines CS and RST, and `none` where the protocol forbids it: CS is asserted once
and then deasserted, bytes move only in between and only out of reset, and nothing else happens meanwhile: no change
of DC, no wait, no busy sample, no memory step (R73, R79). A wait may also fall inside a reset pulse (R96). -/
def Prim.lines (cs rst : Bool) : Prim → Option (Bool × Bool)
  | .csAssert => if !cs && rst then some (true, rst) else none
  | .csDeassert => if cs && rst then some (false, rst) else none
  | .xfer _ _ _ => if cs && rst then some (true, rst) else none
  | .setDc _ => if !cs && rst then some (false, rst) else none
  | .setRst v => if !cs then some (false, v) else none
  | .delay _ => if !cs then some (false, rst) else none
  | .poll _ => if !cs && rst then some (false, rst) else none
  | .merge => if !cs && rst then some (false, rst) else none
  | .copyForward => if !cs && rst then some (false, rst) else none
  | .lutClear => if !cs && rst then some (false, rst) else none
  | .lutSet _ => if !cs && rst then some (false, rst) else none
  | .raiseTransport => if !cs && rst then some (false, rst) else none

/-- The pseudocode that is left keeps the bus protocol from the given lines on, and ends with CS deasserted and RST
high. -/
def linesOk : (cs rst : Bool) → List Micro → Bool
  | cs, rst, [] => !cs && rst
  | cs, rst, .frame _ :: rest => !cs && rst && linesOk cs rst rest
  | cs, rst, .prim p :: rest =>
    match p.lines cs rst with
    | some (cs', rst') => linesOk cs' rst' rest
    | none => false

/-- The CS line after one more event of the trace, and `none` where frames would overlap or nest: bytes move only
inside a frame, and DC, RST, waits and busy samples only outside (R73, R79). -/
def Event.framed (cs : Bool) : Event → Option Bool
  | .pin _ _ => if cs then none else some false
  | .cs v => if v = cs then none else some v
  | .xfer _ => if cs then some true else none
  | .xferFail _ => if cs then some true else none
  | .delay _ => if cs then none else some false
  | .busySample _ => if cs then none else some false

/-- The CS line after a trace that begins with CS deasserted, and `none` if its frames overlap or nest (R79). -/
def framed (evs : List Event) : Option Bool := evs.foldl (fun cs e => cs.bind fun v => e.framed v) (some false)

/-! ### The invariant -/

/-- The machine's invariant, of every state that a run of an EPDC can reach. -/
structure State.Inv (s : State) : Prop where
  /-- the parameter set is an EPDC's (R14) -/
  params : s.cfg.wf = true
  /-- the memories are in canonical form and have `SLOT_CAP` bytes (R37) -/
  stageWf : s.stage.wf none = true
  stageBelow : s.stage.below s.cfg.slotCap = true
  newWf : s.new.wf (some white) = true
  newBelow : s.new.below s.cfg.slotCap = true
  oldWf : s.old.wf (some white) = true
  oldBelow : s.old.below s.cfg.slotCap = true
  /-- RUN = 1 exactly in the five running states (R30) -/
  runState : s.run = s.state.isRunning
  /-- the running state is the running operation's (R31) -/
  runOp : s.run = true → s.state = runningState s.latch.op
  /-- ERR is 0x00 while RUN = 1 (R23) -/
  runErr : s.run = true → s.err = .ok
  /-- no pseudocode is left while no operation runs (R35) -/
  idleTodo : s.run = false → s.todo = []
  /-- the bus protocol is kept, so CS is deasserted and RST high while no operation runs (R73, R79, R96) -/
  lines : linesOk s.pins.cs s.pins.rst s.todo = true
  /-- the frames in the trace neither overlap nor nest, and the last one is open as long as CS is asserted (R79) -/
  frames : framed s.trace = some s.pins.cs
  /-- an NF session is never GRAY (R103, R106) -/
  nfSession : s.cfg.variant = .nf → s.sessMode ≠ .gray
  /-- the session's format is its mode's (R33) -/
  session : s.fmt = s.sessMode.fmt

/-- The end of a run: the host's program is done and no operation runs (R177). -/
def State.runEnded (s : State) : Bool := s.hostq.isEmpty && !s.run

/-! ### Frames -/

/-- From s to t nothing changed but what the bus procedures write (R74, R75, R82): DC and CS, `st.touched`, the
trace, the draws used, and the step pointer's count. -/
def busOnly (s t : State) : Prop :=
  t = { s with
    pins := ⟨s.pins.rst, t.pins.dc, t.pins.cs⟩, touched := t.touched, trace := t.trace, busyIn := t.busyIn,
    xferIn := t.xferIn, seqpc := t.seqpc }

/-- From s to t nothing changed but what the sequencer's primitives write (R16, R35, R93, R114, R127): the pins,
`st.touched`, the trace, the draws used, the step pointer's count, NEW, OLD and the LUT tracker. -/
def seqOnly (s t : State) : Prop :=
  t = { s with
    pins := t.pins, touched := t.touched, trace := t.trace, busyIn := t.busyIn, xferIn := t.xferIn, seqpc := t.seqpc,
    new := t.new, old := t.old, lutValid := t.lutValid, lutMode := t.lutMode }

/-- The registers and memories a host operation never writes: the operand registers, STAGE, OVERRUN, the parameters, the
host's own program and results, and the interleaving draws (R20, R37, R97, R102, R121, R126, R130). -/
def hostSideSame (s t : State) : Prop :=
  t.cfg = s.cfg ∧ t.regs = s.regs ∧ t.stage = s.stage ∧ t.overrun = s.overrun ∧ t.hostq = s.hostq ∧ t.reads = s.reads
    ∧ t.schedIn = s.schedIn

/-! ### Draws to come -/

/-- Whether the SPI transfer that comes after n others succeeds (R10). -/
def State.xferOkAt (s : State) (n : Nat) : Bool :=
  if s.cfg.transportCanFail then s.xferIn.nth Config.freeXfer n else true

/-- The level of the BUSY sample that comes after n others (R10). -/
def State.busyAt (s : State) (n : Nat) : Level := s.busyIn.nth Config.freeBusy n

/-- The next n SPI transfers succeed. -/
def State.xfersOk (s : State) (n : Nat) : Prop := ∀ k, k < n → s.xferOkAt k = true

/-- The next n BUSY samples are idle (R81). -/
def State.idleNext (s : State) (n : Nat) : Prop := ∀ k, k < n → s.busyAt k ≠ s.cfg.busyActive

/-! ### Trace shorthand (95_test_vectors.md, section 0) -/

/-- `C(op)` (R74). -/
def cEvents (c : Config) (op : Byte) : List Event :=
  [.pin .dc false, .cs true, .xfer [op], .cs false] ++ delayEvents c.cmdSettleMs

/-- The SPI transfers of a payload (R76). -/
def xferEvents (c : Config) (bytes : List Byte) : List Event :=
  (chunks c.maxChunk bytes.length).map fun p => .xfer ((bytes.drop p.1).take (p.2 - p.1))

/-- `D(s)` (R75, R76); no frame for an empty payload (R77). -/
def dEvents (c : Config) (bytes : List Byte) : List Event :=
  if bytes = [] then [] else [.pin .dc true, .cs true] ++ xferEvents c bytes ++ [.cs false]

/-- `W(j)`: j busy samples, each with its poll delay, then the idle sample and the settle delay (R82). -/
def wEvents (c : Config) (j : Nat) : List Event :=
  (List.replicate j ([.busySample c.busyActive] ++ delayEvents c.pollMs)).flatten
    ++ [.busySample !c.busyActive] ++ delayEvents c.postIdleMs

/-- The events of a `WaitIdle` that times out after j poll delays (R82). -/
def timeoutEvents (c : Config) (j : Nat) : List Event :=
  (List.replicate j ([.busySample c.busyActive] ++ delayEvents c.pollMs)).flatten ++ [.busySample c.busyActive]

/-- `PULSE` (R96). -/
def pulseEvents (c : Config) : List Event :=
  [.pin .rst false] ++ delayEvents c.resetHoldMs ++ [.pin .rst true] ++ delayEvents c.resetHoldMs

/-- A panel command with its data and, if it waits, an idle first sample. -/
def commandEvents (c : Config) (op : Byte) (bytes : List Byte) (wait : Bool) : List Event :=
  cEvents c op ++ dEvents c bytes ++ (if wait then wEvents c 0 else [])

/-- `SW(x0, y0, ww, wh)` (R115). -/
def swEvents (c : Config) (r : Rect) : List Event :=
  commandEvents c 0x44 (fXWin c r.x0 r.ww) false ++ commandEvents c 0x45 (fYWin c r.y0 r.wh) false
    ++ commandEvents c 0x4E (fXCur c r.x0) false ++ commandEvents c 0x4F (fYCur c r.y0) false

/-- The events of `InstallLut(m)`, idle at the first sample (R93). -/
def lutEvents (c : Config) (m : Mode) : List Event :=
  match c.variant with
  | .fw => commandEvents c 0x32 (c.lutFlash.get m) true
  | .nf =>
    commandEvents c (regLutOpcode c 0) (regLutTable c 0 m) false
      ++ commandEvents c (regLutOpcode c 1) (regLutTable c 1 m) false
      ++ commandEvents c (regLutOpcode c 2) (regLutTable c 2 m) false
      ++ commandEvents c (regLutOpcode c 3) (regLutTable c 3 m) false
      ++ commandEvents c (regLutOpcode c 4) (regLutTable c 4 m) true

/-- The events of one table entry in an operation of mode m, every wait idle at its first sample (R98). -/
def entryEvents (c : Config) (m : Mode) : SeqEntry → List Event
  | .cmd op data wait => commandEvents c op data wait
  | .wait => wEvents c 0
  | .windowFull => swEvents c (fullRect c)
  | .lut => if c.hasProfile m then lutEvents c m else []

/-- The events of a table (R98). -/
def tableEvents (c : Config) (m : Mode) (table : List SeqEntry) : List Event := table.flatMap (entryEvents c m)

/-- The events of `SW` for the rectangle and of one RAM write, or of the NF transmission (R117, R121). -/
def writeEvents (c : Config) (op : Byte) (r : Rect) (bytes : List Byte) : List Event :=
  match c.variant with
  | .fw => swEvents c r ++ commandEvents c op bytes false
  | .nf => commandEvents c op bytes false

/-- The events of a TRANSFER of rectangle r from a state whose NEW already holds the merge (R121). -/
def transferEvents (s : State) (r : Rect) : List Event :=
  match s.cfg.variant with
  | .fw =>
    if s.fmt then writeEvents s.cfg 0x24 r (plane 1 s r) ++ writeEvents s.cfg 0x26 r (plane 0 s r)
    else writeEvents s.cfg 0x24 r (region1 s r)
  | .nf => writeEvents s.cfg 0x13 r (region1 s r)

/-- The LUT events of a REFRESH in mode m: none when the profile is installed already, or when there is none (R94). -/
def ensureEvents (s : State) (m : Mode) : List Event :=
  if s.cfg.hasProfile m ∧ ¬ (s.lutValid ∧ s.lutMode = m) then lutEvents s.cfg m else []

/-- The old-image events of a REFRESH in mode m (R125). -/
def oldEvents (s : State) (m : Mode) : List Event :=
  if m.isDiff then
    match s.cfg.variant with
    | .fw => writeEvents s.cfg 0x26 (fullRect s.cfg) (s.readOld 0 s.cfg.frame1)
    | .nf => commandEvents s.cfg 0x10 (s.readOld 0 s.cfg.frame1) false
  else []

/-- The trigger events of a REFRESH in mode m, idle at the first sample (R124). -/
def triggerEvents (c : Config) (m : Mode) : List Event :=
  match c.variant with
  | .fw => commandEvents c 0x22 [c.upd m] false ++ commandEvents c 0x20 [] true
  | .nf => commandEvents c 0x12 [] true

/-- The events of a REFRESH in mode m, every wait idle at its first sample (R126). -/
def refreshEvents (s : State) (m : Mode) : List Event := ensureEvents s m ++ oldEvents s m ++ triggerEvents s.cfg m

/-! ### What a panel command sends (R135 to R160) -/

/-- The opcode byte of a panel command (R67); a host operation is none and has none. -/
def panelByte (c : Config) : Instr → Option Byte
  | .reset | .init _ | .transfer _ | .refresh _ | .sleep | .wake => none
  | .fwGateSetting _ _ => some 0x01
  | .fwGateVoltage _ _ => some 0x03
  | .fwSourceVoltage _ _ => some 0x04
  | .fwBooster _ _ => some 0x0C
  | .fwDeepSleep _ => some 0x10
  | .fwDataEntryMode _ _ => some 0x11
  | .fwSensorEnable _ _ => some 0x18
  | .fwRefreshTrigger => some 0x20
  | .fwUpdateControl => some 0x22
  | .fwRamWriteA => some 0x24
  | .fwRamWriteB => some 0x26
  | .fwVcom _ _ => some 0x2C
  | .fwLutUpload => some 0x32
  | .fwDisplayOption _ _ => some 0x37
  | .fwBorder _ _ => some 0x3C
  | .fwXWindow => some 0x44
  | .fwYWindow => some 0x45
  | .fwXCursor => some 0x4E
  | .fwYCursor => some 0x4F
  | .nfPowerOff _ _ => some 0x02
  | .nfPowerOn _ _ => some 0x04
  | .nfDeepSleep _ => some 0x07
  | .nfTransmission1 => some 0x10
  | .nfLegacyRefresh => some 0x12
  | .nfTransmission2 => some 0x13
  | .nfRegLut0 => some c.regLutOp.vcom
  | .nfRegLut1 => some c.regLutOp.ww
  | .nfRegLut2 => some c.regLutOp.bw
  | .nfRegLut3 => some c.regLutOp.wb
  | .nfRegLut4 => some c.regLutOp.bb

/-- The SPI transfers of a panel command with a payload of n bytes (R74, R76). -/
def commandXfers (c : Config) (n : Nat) : Nat := 1 + if n = 0 then 0 else ceilDiv n c.maxChunk

/-- A panel command completes: where its transfers succeed and its wait, if any, sees idle at once, it sends the command
byte and the payload, waits, and changes nothing else (R74, R75, R82). -/
def sendsCommand (s : State) (i : Instr) (op : Byte) (bytes : List Byte) (wait : Bool) : Prop :=
  s.xfersOk (commandXfers s.cfg bytes.length) → s.idleNext (if wait then 1 else 0) →
    ∃ t, exec i s = .next t ∧ busOnly s t ∧ t.trace = s.trace ++ commandEvents s.cfg op bytes wait
      ∧ t.touched = true ∧ t.pins = ⟨s.pins.rst, decide (bytes ≠ []), false⟩

/-! ### Counting draws -/

/-- The SPI transfers of a trace. -/
def countXfers (evs : List Event) : Nat :=
  evs.countP fun e => match e with
    | .xfer _ => true
    | .xferFail _ => true
    | .pin _ _ => false
    | .cs _ => false
    | .delay _ => false
    | .busySample _ => false

/-- The BUSY samples of a trace. -/
def countSamples (evs : List Event) : Nat :=
  evs.countP fun e => match e with
    | .busySample _ => true
    | .xfer _ => false
    | .xferFail _ => false
    | .pin _ _ => false
    | .cs _ => false
    | .delay _ => false

/-- The timed milliseconds of a trace: the sum of its `Delay` events (R190). -/
def timedMs : List Event → Nat
  | [] => 0
  | .delay ms :: rest => ms + timedMs rest
  | .pin _ _ :: rest => timedMs rest
  | .cs _ :: rest => timedMs rest
  | .xfer _ :: rest => timedMs rest
  | .xferFail _ :: rest => timedMs rest
  | .busySample _ :: rest => timedMs rest

/-- The busy samples of a trace, those at the busy level (R81). -/
def busyCount (c : Config) (evs : List Event) : Nat := evs.count (.busySample c.busyActive)

/-- The timed milliseconds of n commands and w successful waits that see the busy samples of a trace: Σ (j × P_POLL_MS +
P_POST_IDLE_MS) over the waits (R190). -/
def commandMs (c : Config) (n w : Nat) (evs : List Event) : Nat :=
  n * c.cmdSettleMs + w * c.postIdleMs + busyCount c evs * c.pollMs

/-- The commands of `InstallLut` (R93). -/
def lutCommands (c : Config) : Nat :=
  match c.variant with
  | .fw => 1
  | .nf => 5

/-- The commands that one table entry sends in an operation of mode m (R98). -/
def entryCommands (c : Config) (m : Mode) : SeqEntry → Nat
  | .cmd _ _ _ => 1
  | .wait => 0
  | .windowFull => 4
  | .lut => if c.hasProfile m then lutCommands c else 0

/-- The busy-waits of one table entry in an operation of mode m (R98). -/
def entryWaits (c : Config) (m : Mode) : SeqEntry → Nat
  | .cmd _ _ wait => if wait then 1 else 0
  | .wait => 1
  | .windowFull => 0
  | .lut => if c.hasProfile m then 1 else 0

/-- The commands of a TRANSFER in a session of format fmt (R121). -/
def transferCommands (c : Config) (fmt : Level) : Nat :=
  match c.variant with
  | .fw => if fmt then 10 else 5
  | .nf => 1

/-- The commands of a REFRESH in mode m behind its LUT (R126). -/
def refreshCommands (c : Config) (m : Mode) : Nat :=
  match c.variant with
  | .fw => if m.isDiff then 7 else 2
  | .nf => if m.isDiff then 2 else 1

/-- Whether a REFRESH in mode m installs its LUT (R94). -/
def lutNeeded (s : State) (m : Mode) : Bool := s.cfg.hasProfile m && !(s.lutValid && s.lutMode == m)

/-! ### Steps of the sequencer alone -/

/-- n primitive steps of the sequencer. -/
def sequencerSteps : Nat → State → State
  | 0, s => s
  | n + 1, s => sequencerSteps n (sequencerStep s)

/-! ### The transition relation (R31) -/

/-- The states in which an operation is accepted (R31). -/
def startsIn : OpCode → OpState → Bool
  | .reset, a => !a.isRunning
  | .init, a => !a.isRunning
  | .wake, a => !a.isRunning
  | .transfer, a => a == .idle
  | .refresh, a => a == .idle
  | .sleep, a => a == .idle

/-- The states in which an operation ends (R31). -/
def endsIn : OpCode → OpState → Bool
  | .reset, b => b == .uninit
  | .init, b => b == .idle || b == .uninit
  | .wake, b => b == .idle || b == .uninit
  | .transfer, b => b == .idle
  | .refresh, b => b == .idle
  | .sleep, b => b == .sleeping || b == .idle

/-- The moves of `st.state` that R31 allows an operation: into its running state, and out of it; or none. -/
def stateMove (op : OpCode) (a b : OpState) : Bool :=
  a == b || (startsIn op a && b == runningState op) || (a == runningState op && endsIn op b)

/-! ### Legal words and accepted operations -/

/-- The words that are legal by R61. -/
def cmdWordLegal (w : Word) : Prop :=
  w.extractLsb' 11 21 = 0 ∧
    (((w.extractLsb' 0 8 = 0x01 ∨ w.extractLsb' 0 8 = 0x05 ∨ w.extractLsb' 0 8 = 0x06) ∧ w.extractLsb' 8 3 = 0)
      ∨ ((w.extractLsb' 0 8 = 0x02 ∨ w.extractLsb' 0 8 = 0x04) ∧ w.getLsbD 8 = false)
      ∨ (w.extractLsb' 0 8 = 0x03 ∧ w.extractLsb' 9 2 = 0))

/-- The states in which a TRANSFER is accepted (R121, R163). -/
def transferAccepted (s : State) (win : Bool) : Prop :=
  s.run = false ∧ s.state = .idle ∧ s.degraded = false
    ∧ (win = true → windowLegal s.cfg (windowRect s.regs.winOrg s.regs.winSize) = true)
    ∧ s.regs.xferLen.toNat = expectedLen s.fmt (transferRect s.cfg win s.regs.winOrg s.regs.winSize)

/-- The states in which a REFRESH in mode m is accepted (R126, R123). -/
def refreshAccepted (s : State) (m : Mode) : Prop :=
  s.run = false ∧ s.state = .idle ∧ s.degraded = false ∧ ¬ (s.cfg.variant = .nf ∧ m = .gray) ∧ m.fmt = s.fmt

end Sys2Proof.Machine
end

