-- ==== Sys2Proof/Certificates/Slice0/Obligations.lean ====
section
/-! DEFINITION. The statements for the provers, from the spec's numbered rules. -/

open Sys2Proof Sys2Proof.Machine

/-! ### Decoding -/

/-- Decoding the code of a well-formed instruction that the EPDC can meet gives it back (R59 to R61, R67, R69, R160). -/
def Obligations.DecodeOfEncode : Prop :=
  ∀ (c : Config) (i : Instr), c.wf = true → i.wf = true → i.fits c = true → decode c (encode c i) = .ok i

/-- Whatever decodes is the code of what it decodes to, which is well formed and one the EPDC can meet. -/
def Obligations.EncodeOfDecode : Prop :=
  ∀ (c : Config) (code : Code) (i : Instr), decode c code = .ok i →
    encode c i = code ∧ i.wf = true ∧ i.fits c = true

/-- R61: a CMD word decodes iff it is legal, and a host that writes an illegal one while no operation runs changes
STATUS.ERR to BAD_OP and nothing else of the EPDC. -/
def Obligations.CmdWordLegality : Prop :=
  (∀ w : Word, (∃ i, decodeHostOp w = .ok i) ↔ cmdWordLegal w) ∧
    ∀ (s : State) (w : Word) (rest : List HostStmt), s.cfg.wf = true → s.run = false → ¬ cmdWordLegal w →
      s.hostq = .access (.wr .b4 0 w) :: rest → step s = .next { s with hostq := rest, err := .badOp }

/-- CMD words of the spec decode to the operations they stand for (R59, R60, R70). The two `decodeTableWord` clauses are
the model's choice: R67 gives the bytes 0x3C and 0x12 their commands, but which reading a byte alone gets (0x3C as a
table's entry with no data and no wait) is log 10, and the unit it is read for is log 3. -/
def Obligations.SpecWordsDecode : Prop :=
  decodeHostOp 0x00000001 = .ok .reset ∧ decodeHostOp 0x00000402 = .ok (.init .part)
    ∧ decodeHostOp 0x00000103 = .ok (.transfer true) ∧ decodeHostOp 0x00000204 = .ok (.refresh .full)
    ∧ decodeTableWord 8 0x3C = some (.fwBorder [] false) ∧ decodeTableWord 8 0x12 = some .nfLegacyRefresh

/-! ### The step -/

/-- A CMD write that the host follows by waiting runs the decoded operation: the step is `exec` of it on the state with
the write taken off the host's program (R61, R162, R71). That the step is then the whole operation is the model's
choice (log 2). -/
def Obligations.StepRunsHostOperation : Prop :=
  ∀ (s : State) (w : Word) (i : Instr) (rest : List HostStmt), s.cfg.wf = true → s.run = false →
    s.hostq = .access (.wr .b4 0 w) :: rest → State.hostWaits { s with hostq := rest } = true →
    decodeHostOp w = .ok i → step s = exec i { s with hostq := rest }

/-- A panel command at the step pointer of a running operation, while the host waits: the step is `exec` of the decoded
command on the state with it taken off the pseudocode that is left (R80, R67). That the step is then the whole
command is the model's choice (log 2). -/
def Obligations.StepRunsPanelCommand : Prop :=
  ∀ (s : State) (f : Frame) (i : Instr) (rest : List Micro), s.cfg.wf = true → s.run = true → s.hostWaits = true →
    s.todo = .frame f :: rest → decodeFrame s.cfg f = .ok i → step s = exec i { s with todo := rest }

/-- A CMD write after which the host goes on at once is the host step of R162 alone; the operation's own steps
follow (the model's choice of step, log 2). -/
def Obligations.StepIssuesAlone : Prop :=
  ∀ (s : State) (w : Word) (i : Instr) (rest : List HostStmt), s.cfg.wf = true → s.run = false →
    s.hostq = .access (.wr .b4 0 w) :: rest → State.hostWaits { s with hostq := rest } = false →
    decodeHostOp w = .ok i → step s = .next (issue i { s with hostq := rest })

/-- R189: an accepted operation's whole meaning is its CMD write followed by finitely many primitive steps of the
sequencer, after which RUN is 0, under every sequence of draws. So the two sizes of step (the model's choice, log 2)
agree. -/
def Obligations.WholeOperationIsItsSteps : Prop :=
  ∀ (i : Instr) (s : State), s.cfg.wf = true → s.run = false → (issue i s).run = true →
    ∃ n t, exec i s = .next t ∧ sequencerSteps n (issue i s) = t ∧ t.run = false

/-! ### Invariants -/

/-- Every step keeps the invariant. -/
def Obligations.StepKeepsTheInvariant : Prop :=
  ∀ s t : State, s.Inv → step s = .next t → t.Inv

/-- The invariant holds after the reset of every EPDC. -/
def Obligations.ResetMeetsTheInvariant : Prop :=
  ∀ c : Config, c.wf = true → (State.resetOf c).Inv

/-- No step changes a parameter or a read-only table (R11, R39). -/
def Obligations.StepKeepsTheParameters : Prop :=
  ∀ s t : State, step s = .next t → t.cfg = s.cfg

/-- After the EPDC's reset (R41, R178) every register with a reset value of the spec holds it, NEW and OLD are white, and
no event has been emitted. -/
def Obligations.ResetValues : Prop :=
  ∀ c : Config,
    let s := State.resetOf c
    s.state = .uninit ∧ s.run = false ∧ s.degraded = false ∧ s.lutValid = false ∧ s.lutMode = .gray ∧ s.err = .ok
      ∧ s.overrun = false ∧ s.fmt = false ∧ s.sessMode = .full ∧ s.touched = false ∧ statusWord s = 0x00040000
      ∧ s.regs.winOrg = 0 ∧ s.regs.winSize = 0 ∧ s.regs.xferLen = 0
      ∧ s.regs.timeout = BitVec.ofNat 32 c.defaultTimeoutMs ∧ s.pins.rst = true ∧ s.pins.dc = false
      ∧ s.pins.cs = false ∧ (∀ a, s.newByte a = 0xFF) ∧ (∀ a, s.oldByte a = 0xFF) ∧ s.cfg = c ∧ s.trace = []

/-- R31, as a rule of the whole machine: every step moves `st.state` along at most two arrows of R31, into and out of
the running state of one operation, whose code is latched. -/
def Obligations.StateMovesAlongTheRelation : Prop :=
  ∀ s t : State, s.Inv → step s = .next t →
    ∃ m, stateMove t.latch.op s.state m = true ∧ stateMove t.latch.op m t.state = true

/-- R166, as a rule of the whole machine: DEGRADED falls only where an INIT or a WAKE ends successfully, and rises only
where a TRANSFER, a REFRESH or a SLEEP that has started a transfer aborts, in IDLE, with ERR BUSY_TIMEOUT or
TRANSPORT_FAILURE (R164). -/
def Obligations.DegradedFlag : Prop :=
  ∀ s t : State, step s = .next t →
    (s.degraded = true → t.degraded = false →
      (t.latch.op = .init ∨ t.latch.op = .wake) ∧ t.state = .idle ∧ t.err = .ok ∧ t.run = false)
    ∧ (s.degraded = false → t.degraded = true →
      (t.latch.op = .transfer ∨ t.latch.op = .refresh ∨ t.latch.op = .sleep) ∧ t.state = .idle ∧ t.touched = true
        ∧ t.run = false ∧ (t.err = .busyTimeout ∨ t.err = .transportFailure))

/-- R32, R27, R162, as a rule of the whole machine: OVERRUN rises only at a CMD write while an operation runs, and falls
only at a CLEAR write with bit 0 set. -/
def Obligations.OverrunFlag : Prop :=
  ∀ s t : State, step s = .next t →
    (s.overrun = false → t.overrun = true →
      s.run = true ∧ ∃ w, s.hostq = .access (.wr .b4 0 w) :: t.hostq)
    ∧ (s.overrun = true → t.overrun = false →
      ∃ w : Word, w.getLsbD 0 = true ∧ s.hostq = .access (.wr .b4 0x18 w) :: t.hostq)

/-- R37, R54: the host writes STAGE only while no operation runs, and never NEW or OLD. -/
def Obligations.HostWritesOnlyStage : Prop :=
  ∀ (s t : State) (w : Width) (addr : HostAddr) (v : Word), hostWrite w addr v s = .next t →
    t.new = s.new ∧ t.old = s.old ∧ (s.run = true → t.stage = s.stage)

/-- R20, R37: no step of the sequencer writes an operand register, STAGE or OVERRUN. -/
def Obligations.SequencerLeavesTheHostSide : Prop :=
  ∀ (n : Nat) (s : State), hostSideSame s (sequencerSteps n s)

/-! ### RESET, INIT, WAKE -/

/-- RESET, from every rest state (R97, R96): the pulse, UNINIT, the tracker cleared; DEGRADED, SESS_MODE, FMT, NEW,
OLD and STAGE unchanged. The latched operands and the cleared `st.touched` are R34's and R162's; that `st.seqpc` reads
4 after the end is the model's reading (log 16), for R35 gives the count no meaning at RUN = 0. -/
def Obligations.ResetOperation : Prop :=
  decodeHostOp 0x00000001 = .ok .reset ∧ ∀ s : State, s.run = false → s.todo = [] →
    exec .reset s = .next { s with
      state := .uninit, lutValid := false, err := .ok, touched := false, seqpc := 4,
      latch := ⟨.reset, .gray, false, s.regs.winOrg, s.regs.winSize, s.regs.xferLen, s.regs.timeout⟩,
      pins := { s.pins with rst := true }, trace := s.trace ++ pulseEvents s.cfg }

/-- INIT in mode m and WAKE in the session's mode complete (R102, R106): with every transfer successful and every
wait idle at once, the trace is the pulse and the table, and the session is set up; NEW, OLD and the host's side are
unchanged. -/
def Obligations.InitAndWakeComplete : Prop :=
  ∀ (i : Instr) (s : State) (m : Mode), i = .init m ∨ (i = .wake ∧ m = s.sessMode) →
    s.cfg.wf = true → s.run = false → ¬ (s.cfg.variant = .nf ∧ m = .gray) →
    s.xfersOk (countXfers (tableEvents s.cfg m s.cfg.initSeq)) →
    s.idleNext (countSamples (tableEvents s.cfg m s.cfg.initSeq)) →
    ∃ t, exec i s = .next t ∧ t.trace = s.trace ++ pulseEvents s.cfg ++ tableEvents s.cfg m s.cfg.initSeq
      ∧ t.state = .idle ∧ t.run = false ∧ t.err = .ok ∧ t.degraded = false ∧ t.sessMode = m ∧ t.fmt = m.fmt
      ∧ t.lutValid = s.cfg.hasProfile m ∧ t.lutMode = (if s.cfg.hasProfile m then m else s.lutMode)
      ∧ t.pins.rst = true ∧ t.new = s.new ∧ t.old = s.old ∧ hostSideSame s t

/-- INIT and WAKE under every sequence of draws (R102, R104): they end in IDLE with DEGRADED cleared, or in UNINIT with
the error reported, DEGRADED kept and no LUT installed. -/
def Obligations.InitAndWakeOutcomes : Prop :=
  ∀ (i : Instr) (s : State) (m : Mode), i = .init m ∨ (i = .wake ∧ m = s.sessMode) →
    s.cfg.wf = true → s.run = false → ¬ (s.cfg.variant = .nf ∧ m = .gray) →
    ∃ t, exec i s = .next t ∧ t.run = false ∧ t.sessMode = m ∧ t.fmt = m.fmt ∧ t.new = s.new ∧ t.old = s.old
      ∧ hostSideSame s t
      ∧ ((t.err = .ok ∧ t.state = .idle ∧ t.degraded = false)
        ∨ ((t.err = .busyTimeout ∨ t.err = .transportFailure) ∧ t.state = .uninit ∧ t.degraded = s.degraded
          ∧ t.lutValid = false))

/-- WAKE is INIT in the session's mode (R106): the two end in states that differ in the latched operation code only. -/
def Obligations.WakeIsInit : Prop :=
  ∀ s : State, s.cfg.wf = true → s.run = false → ¬ (s.cfg.variant = .nf ∧ s.sessMode = .gray) →
    ∃ t, exec (.init s.sessMode) s = .next t
      ∧ exec .wake s = .next { t with latch := { t.latch with op := .wake } }

/-- R105: two INITs in the same mode and with the same TIMEOUT, from any two rest states of one EPDC, given the same
draws, emit the same events and end with the same result. -/
def Obligations.InitIsIdempotent : Prop :=
  ∀ (s s' : State) (m : Mode), s.cfg.wf = true → s'.cfg = s.cfg → s.run = false → s'.run = false →
    ¬ (s.cfg.variant = .nf ∧ m = .gray) → s'.regs.timeout = s.regs.timeout → s'.xferIn = s.xferIn →
    s'.busyIn = s.busyIn →
    ∃ t t' evs, exec (.init m) s = .next t ∧ exec (.init m) s' = .next t'
      ∧ t.trace = s.trace ++ evs ∧ t'.trace = s'.trace ++ evs
      ∧ t'.state = t.state ∧ t'.err = t.err ∧ t'.fmt = t.fmt ∧ t'.sessMode = t.sessMode ∧ t'.lutValid = t.lutValid
      ∧ (t.lutValid = true → t'.lutMode = t.lutMode) ∧ t'.pins.rst = t.pins.rst ∧ t'.touched = t.touched
      ∧ t'.seqpc = t.seqpc ∧ (t.err = .ok → t'.degraded = t.degraded)

/-! ### TRANSFER -/

/-- TRANSFER completes (R121): NEW takes the merge, the planes or the frame go out, the state returns to IDLE; OLD,
the LUT tracker, the format and the host's side are unchanged. -/
def Obligations.TransferCompletes : Prop :=
  ∀ (s : State) (win : Bool), s.cfg.wf = true → transferAccepted s win →
    (s.cfg.variant = .nf → s.fmt = false) →
    let r := transferRect s.cfg win s.regs.winOrg s.regs.winSize
    let merged := s.new.setAll (some white) s.cfg.slotCap (mergeCells s r)
    let evs := transferEvents { s with new := merged } r
    s.xfersOk (countXfers evs) →
    ∃ t, exec (.transfer win) s = .next t ∧ t.trace = s.trace ++ evs ∧ t.new = merged ∧ t.old = s.old
      ∧ t.state = .idle ∧ t.run = false ∧ t.err = .ok ∧ t.degraded = false ∧ t.touched = true
      ∧ t.lutValid = s.lutValid ∧ t.lutMode = s.lutMode ∧ t.fmt = s.fmt ∧ t.sessMode = s.sessMode
      ∧ t.pins.rst = s.pins.rst ∧ hostSideSame s t

/-- TRANSFER under every sequence of draws (R121, R164): it ends in IDLE; NEW holds the merge and OLD is unchanged
either way; a failure is TRANSPORT_FAILURE and sets DEGRADED. -/
def Obligations.TransferOutcomes : Prop :=
  ∀ (s : State) (win : Bool), s.cfg.wf = true → transferAccepted s win → (s.cfg.variant = .nf → s.fmt = false) →
    let r := transferRect s.cfg win s.regs.winOrg s.regs.winSize
    ∃ t, exec (.transfer win) s = .next t
      ∧ t.new = s.new.setAll (some white) s.cfg.slotCap (mergeCells s r) ∧ t.old = s.old
      ∧ t.state = .idle ∧ t.run = false ∧ t.lutValid = s.lutValid ∧ t.lutMode = s.lutMode ∧ t.fmt = s.fmt
      ∧ t.sessMode = s.sessMode ∧ hostSideSame s t
      ∧ ((t.err = .ok ∧ t.degraded = false) ∨ (t.err = .transportFailure ∧ t.degraded = true))

/-- The merge of a legal rectangle (R114): each byte of the rectangle's rows takes its byte of STAGE, and every byte
of NEW outside the rectangle keeps its value. -/
def Obligations.MergeWritesTheRectangle : Prop :=
  ∀ (s : State) (r : Rect), s.cfg.wf = true → s.new.wf (some white) = true →
    windowLegal { s.cfg with variant := .fw } r = true →
    let t := writeNew (mergeCells s r) s
    (∀ row col, row < r.wh → col < bufferRow s.fmt r →
      t.newByte ((r.y0 + row) * slotRow s.cfg s.fmt + r.x0 / pixelsPerByte s.fmt + col)
        = s.stageByte (row * bufferRow s.fmt r + col))
    ∧ ∀ a, (∀ row col, row < r.wh → col < bufferRow s.fmt r →
        a ≠ (r.y0 + row) * slotRow s.cfg s.fmt + r.x0 / pixelsPerByte s.fmt + col) →
      t.newByte a = s.newByte a

/-- Every byte that the merge of a legal rectangle writes lies in its row of NEW, below `SLOT_CAP` (R114). -/
def Obligations.MergeStaysInItsRows : Prop :=
  ∀ (c : Config) (fmt : Level) (r : Rect), c.wf = true → windowLegal { c with variant := .fw } r = true →
    ∀ row col, row < r.wh → col < bufferRow fmt r →
      r.x0 / pixelsPerByte fmt + col < slotRow c fmt
        ∧ (r.y0 + row) * slotRow c fmt + r.x0 / pixelsPerByte fmt + col < c.slotCap

/-- The plane split (R119, R120): plane byte (row, col) at bit 7 − j holds bit 1 (plane A) and bit 0 (plane B) of the
pixel there, and 1 in both planes in the padding at the right edge; each plane has PB × wh bytes. -/
def Obligations.PlanesHoldThePixels : Prop :=
  ∀ (s : State) (r : Rect) (row col j : Nat), row < r.wh → col < panelRow r → j < 8 →
    let a := ((plane 1 s r).getD (row * panelRow r + col) 0).getLsbD (7 - j)
    let b := ((plane 0 s r).getD (row * panelRow r + col) 0).getLsbD (7 - j)
    (plane 1 s r).length = panelRow r * r.wh ∧ (plane 0 s r).length = panelRow r * r.wh ∧
    if r.x0 + 8 * col + j < r.x0 + r.ww then
      BitVec.ofBool a ++ BitVec.ofBool b = s.pixel2 (r.x0 + 8 * col + j) (r.y0 + row)
    else a = true ∧ b = true

/-- `Region1` (R118): PB × wh bytes, of which byte (row, col) is the byte of NEW there; for the full frame it is
NEW[0 .. FRAME1). -/
def Obligations.RegionIsTheRectangle : Prop :=
  ∀ (s : State) (r : Rect),
    (region1 s r).length = panelRow r * r.wh ∧
    (∀ row col, row < r.wh → col < panelRow r →
      (region1 s r).getD (row * panelRow r + col) 0 = s.newByte ((r.y0 + row) * s.cfg.bpr1 + r.x0 / 8 + col))
    ∧ region1 s (fullRect s.cfg) = s.readNew 0 s.cfg.frame1

/-! ### REFRESH and SLEEP -/

/-- REFRESH completes (R126, R127, R128): the LUT if needed, the old image in a differential mode, the trigger; then OLD
equals NEW byte for byte; NEW and the host's side are unchanged. That no 0x24 is sent is R126's and R144's; the row of
R67's table that lists REFRESH beside TRANSFER for 0x24 is not followed (log 19). -/
def Obligations.RefreshCompletes : Prop :=
  ∀ (s : State) (m : Mode), s.cfg.wf = true → refreshAccepted s m →
    s.xfersOk (countXfers (refreshEvents s m)) → s.idleNext (countSamples (refreshEvents s m)) →
    ∃ t, exec (.refresh m) s = .next t ∧ t.trace = s.trace ++ refreshEvents s m
      ∧ (∀ a, a < s.cfg.slotCap → t.oldByte a = s.newByte a) ∧ t.new = s.new
      ∧ t.state = .idle ∧ t.run = false ∧ t.err = .ok ∧ t.degraded = false ∧ t.touched = true
      ∧ t.lutValid = (s.cfg.hasProfile m || s.lutValid) ∧ t.lutMode = (if s.cfg.hasProfile m then m else s.lutMode)
      ∧ t.fmt = s.fmt ∧ t.sessMode = s.sessMode ∧ t.pins.rst = s.pins.rst ∧ hostSideSame s t

/-- REFRESH under every sequence of draws (R126, R164): it ends in IDLE with NEW unchanged; it succeeds with OLD
equal to NEW, or it fails with OLD unchanged and DEGRADED set. The LUT tracker (R92, R93, R94): where `EnsureLut` raises,
which only its `InstallLut` can, REFRESH ends with that error and the tracker cleared; where it returns, the tracker is
set for a mode that has a profile and as it was for one that has none, whether or not REFRESH fails later. -/
def Obligations.RefreshOutcomes : Prop :=
  ∀ (s : State) (m : Mode), s.cfg.wf = true → refreshAccepted s m →
    ∃ t, exec (.refresh m) s = .next t ∧ t.new = s.new ∧ t.state = .idle ∧ t.run = false ∧ t.fmt = s.fmt
      ∧ t.sessMode = s.sessMode ∧ hostSideSame s t
      ∧ ((t.err = .ok ∧ t.degraded = false ∧ ∀ a, a < s.cfg.slotCap → t.oldByte a = s.newByte a)
        ∨ ((t.err = .busyTimeout ∨ t.err = .transportFailure) ∧ t.degraded = true ∧ t.old = s.old))
      ∧ (match runPrims ((ensureLut s m).flatMap (Micro.expand { issue (.refresh m) s with todo := [] }))
            { issue (.refresh m) s with todo := [] } with
          | .raised code _ => t.err = code ∧ t.lutValid = false ∧ t.lutMode = s.lutMode
          | .ok _ => t.lutValid = (s.cfg.hasProfile m || s.lutValid)
              ∧ t.lutMode = if s.cfg.hasProfile m then m else s.lutMode)

/-- R128: after a successful REFRESH, a second one in the same mode, with no TRANSFER between, sends no LUT, sends in a
differential mode an old image equal to NEW, and leaves every byte of OLD as it is. -/
def Obligations.SecondRefreshIsAllZeroDelta : Prop :=
  ∀ (s t : State) (m : Mode), s.cfg.wf = true → refreshAccepted s m → exec (.refresh m) s = .next t → t.err = .ok →
    t.xfersOk (countXfers (refreshEvents t m)) → t.idleNext (countSamples (refreshEvents t m)) →
    ∃ u, exec (.refresh m) t = .next u ∧ u.trace = t.trace ++ (oldEvents t m ++ triggerEvents t.cfg m)
      ∧ t.readOld 0 t.cfg.frame1 = t.readNew 0 t.cfg.frame1
      ∧ ∀ a, a < t.cfg.slotCap → u.oldByte a = t.oldByte a ∧ t.newByte a ^^^ t.oldByte a = 0

/-- `CopyForward` (R127): OLD[a] becomes NEW[a] for every a below `SLOT_CAP`, and nothing else of OLD changes. -/
def Obligations.CopyForwardCopiesTheSlot : Prop :=
  ∀ (s : State) (a : Nat),
    (a < s.cfg.slotCap → (copyForward s).oldByte a = s.newByte a)
      ∧ (s.cfg.slotCap ≤ a → (copyForward s).oldByte a = s.oldByte a)

/-- SLEEP completes (R130): the sleep table goes out, the tracker is cleared, the state is SLEEPING; all else that
the rule names is unchanged. -/
def Obligations.SleepCompletes : Prop :=
  ∀ s : State, s.cfg.wf = true → s.run = false → s.state = .idle →
    s.xfersOk (countXfers (tableEvents s.cfg .gray s.cfg.sleepSeq)) →
    s.idleNext (countSamples (tableEvents s.cfg .gray s.cfg.sleepSeq)) →
    ∃ t, exec .sleep s = .next t ∧ t.trace = s.trace ++ tableEvents s.cfg .gray s.cfg.sleepSeq
      ∧ t.state = .sleeping ∧ t.run = false ∧ t.err = .ok ∧ t.lutValid = false ∧ t.lutMode = s.lutMode
      ∧ t.degraded = s.degraded ∧ t.new = s.new ∧ t.old = s.old ∧ t.fmt = s.fmt ∧ t.sessMode = s.sessMode
      ∧ t.pins.rst = s.pins.rst ∧ hostSideSame s t

/-- SLEEP under every sequence of draws (R130, R164): SLEEPING, or IDLE with DEGRADED set if a transfer had started. That
a failure before the first transfer keeps DEGRADED is the model's reading (log 11): it follows R164, where R130 says
flatly that a failed SLEEP ends with DEGRADED = 1. -/
def Obligations.SleepOutcomes : Prop :=
  ∀ s : State, s.cfg.wf = true → s.run = false → s.state = .idle →
    ∃ t, exec .sleep s = .next t ∧ t.run = false ∧ t.new = s.new ∧ t.old = s.old ∧ t.fmt = s.fmt
      ∧ t.sessMode = s.sessMode ∧ hostSideSame s t
      ∧ ((t.err = .ok ∧ t.state = .sleeping ∧ t.degraded = s.degraded ∧ t.lutValid = false)
        ∨ ((t.err = .busyTimeout ∨ t.err = .transportFailure) ∧ t.state = .idle
          ∧ t.degraded = (s.degraded || t.touched)))

/-! ### Issue -/

/-- R162: a CMD write while an operation runs changes OVERRUN and nothing else, whatever the operation, and whether or not
the word is legal. -/
def Obligations.CmdWriteWhileRunning : Prop :=
  ∀ (s : State), s.run = true →
    (∀ (m : Mode) (win : Bool), ∀ i ∈ [Instr.reset, .init m, .transfer win, .refresh m, .sleep, .wake],
      exec i s = .next { s with overrun := true })
    ∧ ∀ (w : Word) (rest : List HostStmt), s.cfg.wf = true → s.hostq = .access (.wr .b4 0 w) :: rest →
      s.hostFirst = true → step s = .next { s with hostq := rest, schedIn := s.schedIn.rest, overrun := true }

/-- R162, R34: an accepted CMD write latches the operands, clears ERR and `st.touched`, sets RUN and enters the running
state; INIT and WAKE set the session too (R33), and they and RESET clear the tracker (R92). That the
running state and RESET's cleared tracker come with the acceptance itself is the model's reading (log 7). -/
def Obligations.AcceptedCmdWrites : Prop :=
  ∀ s : State, s.run = false →
    let latched : OpCode → Mode → Bool → Latch := fun op m win =>
      ⟨op, m, win, s.regs.winOrg, s.regs.winSize, s.regs.xferLen, s.regs.timeout⟩
    let accepted : OpCode → Mode → Bool → OpState → State → Prop := fun op m win st t =>
      t = { s with
        latch := latched op m win, err := .ok, touched := false, run := true, state := st, seqpc := 0, todo := t.todo,
        lutValid := t.lutValid, sessMode := t.sessMode, fmt := t.fmt }
    (accepted .reset .gray false .resetting (issue .reset s) ∧ (issue .reset s).lutValid = false
        ∧ (issue .reset s).sessMode = s.sessMode ∧ (issue .reset s).fmt = s.fmt)
      ∧ (∀ m, ¬ (s.cfg.variant = .nf ∧ m = .gray) →
          accepted .init m false .initializing (issue (.init m) s) ∧ (issue (.init m) s).lutValid = false
            ∧ (issue (.init m) s).sessMode = m ∧ (issue (.init m) s).fmt = decide (m = .gray))
      ∧ (¬ (s.cfg.variant = .nf ∧ s.sessMode = .gray) →
          accepted .wake s.sessMode false .initializing (issue .wake s) ∧ (issue .wake s).lutValid = false
            ∧ (issue .wake s).sessMode = s.sessMode ∧ (issue .wake s).fmt = decide (s.sessMode = .gray))
      ∧ (∀ win, transferAccepted s win → accepted .transfer .gray win .transferring (issue (.transfer win) s)
          ∧ (issue (.transfer win) s).lutValid = s.lutValid ∧ (issue (.transfer win) s).sessMode = s.sessMode
          ∧ (issue (.transfer win) s).fmt = s.fmt)
      ∧ (∀ m, refreshAccepted s m → accepted .refresh m false .refreshing (issue (.refresh m) s)
          ∧ (issue (.refresh m) s).lutValid = s.lutValid ∧ (issue (.refresh m) s).sessMode = s.sessMode
          ∧ (issue (.refresh m) s).fmt = s.fmt)
      ∧ (s.state = .idle → accepted .sleep .gray false .enteringSleep (issue .sleep s)
          ∧ (issue .sleep s).lutValid = s.lutValid ∧ (issue .sleep s).sessMode = s.sessMode
          ∧ (issue .sleep s).fmt = s.fmt)

/-- The rejections of R163, each with its code, and nothing but ERR changed (R162): the first failing check is
reported. -/
def Obligations.IssueRejections : Prop :=
  ∀ (s : State) (m : Mode) (win : Bool), s.run = false →
    (s.state = .sleeping → ∀ i ∈ [Instr.transfer win, .refresh m, .sleep],
        exec i s = .next { s with err := .driverAsleep })
    ∧ (s.state = .uninit → ∀ i ∈ [Instr.transfer win, .refresh m, .sleep],
        exec i s = .next { s with err := .notInitialized })
    ∧ (s.state = .idle → s.degraded = true → ∀ i ∈ [Instr.transfer win, .refresh m],
        exec i s = .next { s with err := .degraded })
    ∧ (s.cfg.variant = .nf → exec (.init .gray) s = .next { s with err := .badMode })
    ∧ (s.cfg.variant = .nf → s.sessMode = .gray → exec .wake s = .next { s with err := .badMode })
    ∧ (s.state = .idle → s.degraded = false → (s.cfg.variant = .nf ∧ m = .gray) ∨ m.fmt ≠ s.fmt →
        exec (.refresh m) s = .next { s with err := .badMode })
    ∧ (s.state = .idle → s.degraded = false → windowLegal s.cfg (windowRect s.regs.winOrg s.regs.winSize) = false →
        exec (.transfer true) s = .next { s with err := .badWindow })
    ∧ (s.state = .idle → s.degraded = false →
        (win = true → windowLegal s.cfg (windowRect s.regs.winOrg s.regs.winSize) = true) →
        s.regs.xferLen.toNat ≠ expectedLen s.fmt (transferRect s.cfg win s.regs.winOrg s.regs.winSize) →
        exec (.transfer win) s = .next { s with err := .invalidBufferSize })

/-- R111: the legal windows, over the 16-bit fields of WIN_ORG and WIN_SIZE; a windowed TRANSFER with any other is
rejected with BAD_WINDOW, and one with a legal window is not. -/
def Obligations.LegalWindows : Prop :=
  ∀ (s : State) (x0 y0 ww wh : BitVec 16),
    let legal := s.cfg.variant = .fw ∧ 1 ≤ ww.toNat ∧ 1 ≤ wh.toNat ∧ x0.toNat + ww.toNat ≤ s.cfg.width
      ∧ y0.toNat + wh.toNat ≤ s.cfg.height ∧ x0.toNat % 8 = 0
      ∧ (ww.toNat % 8 = 0 ∨ x0.toNat + ww.toNat = s.cfg.width)
    (windowLegal s.cfg (windowRect (y0 ++ x0) (wh ++ ww)) = true ↔ legal)
      ∧ (s.run = false → s.state = .idle → s.degraded = false → s.regs.winOrg = y0 ++ x0 → s.regs.winSize = wh ++ ww →
        (¬ legal → exec (.transfer true) s = .next { s with err := .badWindow })
          ∧ (legal → checkTransfer true s ≠ .badWindow))

/-- R112: the expected lengths of the full frame are FRAME1 and FRAME2, and no legal window's length is 0. -/
def Obligations.ExpectedLengths : Prop :=
  ∀ (c : Config) (r : Rect), c.wf = true →
    expectedLen false (fullRect c) = c.frame1 ∧ expectedLen true (fullRect c) = c.frame2
      ∧ (windowLegal c r = true → ∀ fmt, 1 ≤ expectedLen fmt r) ∧ c.slotCap ≤ 2 ^ 20

/-! ### Panel commands -/

/-- The FW commands of the sequence tables send the entry's data and wait if the entry asks (R135 to R141, R146, R148,
R149). -/
def Obligations.FwTableCommandsSend : Prop :=
  ∀ (s : State) (data : List Byte) (wait : Bool),
    (∀ p ∈ [(Instr.fwGateSetting data wait, (0x01 : Byte)), (.fwGateVoltage data wait, 0x03),
        (.fwSourceVoltage data wait, 0x04), (.fwBooster data wait, 0x0C), (.fwDataEntryMode data wait, 0x11),
        (.fwSensorEnable data wait, 0x18), (.fwVcom data wait, 0x2C), (.fwDisplayOption data wait, 0x37),
        (.fwBorder data wait, 0x3C)], sendsCommand s p.1 p.2 data wait)
      ∧ sendsCommand s (.fwDeepSleep data) 0x10 data false

/-- The FW commands of fixed rules (R142 to R145, R147, R150 to R153), each with the data its rule names. In states where
no operation that emits the command runs, its data are the model's choice (log 14): plane B for 0x26 outside a REFRESH,
where R145 speaks of a TRANSFER in a 2-bit session only, and the full frame as the rectangle of 0x24, 0x26 and the
window and cursor commands outside INIT, WAKE, TRANSFER and REFRESH. -/
def Obligations.FwRuleCommandsSend : Prop :=
  ∀ s : State,
    sendsCommand s .fwRefreshTrigger 0x20 [] true
      ∧ sendsCommand s .fwUpdateControl 0x22 [if s.latch.mode = .full then 0xC7 else s.cfg.upd s.latch.mode] false
      ∧ (s.fmt = false → sendsCommand s .fwRamWriteA 0x24 (region1 s s.rect) false)
      ∧ (s.fmt = true → sendsCommand s .fwRamWriteA 0x24 (plane 1 s s.rect) false)
      ∧ (s.latch.op = .refresh → sendsCommand s .fwRamWriteB 0x26 (s.readOld 0 s.cfg.frame1) false)
      ∧ (s.latch.op ≠ .refresh → sendsCommand s .fwRamWriteB 0x26 (plane 0 s s.rect) false)
      ∧ sendsCommand s .fwLutUpload 0x32 (s.cfg.lutFlash.get s.latch.mode) true
      ∧ sendsCommand s .fwXWindow 0x44 (fXWin s.cfg s.rect.x0 s.rect.ww) false
      ∧ sendsCommand s .fwYWindow 0x45 (fYWin s.cfg s.rect.y0 s.rect.wh) false
      ∧ sendsCommand s .fwXCursor 0x4E (fXCur s.cfg s.rect.x0) false
      ∧ sendsCommand s .fwYCursor 0x4F (fYCur s.cfg s.rect.y0) false

/-- The NF commands (R154 to R160), each with the data its rule names; the register-LUT commands in the differential
modes. -/
def Obligations.NfCommandsSend : Prop :=
  ∀ (s : State) (data : List Byte) (wait : Bool),
    sendsCommand s (.nfPowerOff data wait) 0x02 data wait ∧ sendsCommand s (.nfPowerOn data wait) 0x04 data wait
      ∧ sendsCommand s (.nfDeepSleep data) 0x07 data false
      ∧ sendsCommand s .nfTransmission1 0x10 (s.readOld 0 s.cfg.frame1) false
      ∧ sendsCommand s .nfLegacyRefresh 0x12 [] true
      ∧ sendsCommand s .nfTransmission2 0x13 (s.readNew 0 s.cfg.frame1) false
      ∧ (∀ t, (s.latch.mode = .part ∧ t = s.cfg.lutRegPart) ∨ (s.latch.mode = .fast ∧ t = s.cfg.lutRegFast) →
        sendsCommand s .nfRegLut0 s.cfg.regLutOp.vcom t.vcom false
          ∧ sendsCommand s .nfRegLut1 s.cfg.regLutOp.ww t.ww false
          ∧ sendsCommand s .nfRegLut2 s.cfg.regLutOp.bw t.bw false
          ∧ sendsCommand s .nfRegLut3 s.cfg.regLutOp.wb t.wb false
          ∧ sendsCommand s .nfRegLut4 s.cfg.regLutOp.bb t.bb true)

/-- The frame of every panel command, under every sequence of draws (R74, R75, R78, R82, R164): it ends with only the bus
state changed, or the operation ends with BUSY_TIMEOUT or TRANSPORT_FAILURE; no memory, register, session field, LUT
field or host-side field changes either way. -/
def Obligations.PanelCommandFrame : Prop :=
  ∀ (i : Instr) (s : State) (op : Byte), panelByte s.cfg i = some op →
    ∃ u t, busOnly s u ∧ exec i s = .next t ∧ u.touched = true ∧ u.pins.cs = false
      ∧ (t = u ∨ ∃ code ended degraded,
          (code = .busyTimeout ∨ code = .transportFailure)
            ∧ t = { u with err := code, state := ended, degraded := degraded, run := false, todo := [] }
            ∧ ((s.latch.op = .init ∨ s.latch.op = .wake) → ended = .uninit ∧ degraded = s.degraded)
            ∧ ((s.latch.op = .transfer ∨ s.latch.op = .refresh ∨ s.latch.op = .sleep) →
                ended = .idle ∧ degraded = true))

/-- A panel command whose command byte is not transferred ends the operation with TRANSPORT_FAILURE (R74, R78, R164):
CS is deasserted, no settle delay and nothing more follows. -/
def Obligations.FailedCommandEndsTheOperation : Prop :=
  ∀ (i : Instr) (s : State) (op : Byte), panelByte s.cfg i = some op → s.xferOk = false →
    ∃ t, exec i s = .next t
      ∧ t.trace = s.trace ++ [.pin .dc false, .cs true, .xferFail [op], .cs false]
      ∧ t.err = .transportFailure ∧ t.run = false ∧ t.todo = [] ∧ t.pins = ⟨s.pins.rst, false, false⟩
      ∧ ((s.latch.op = .init ∨ s.latch.op = .wake) → t.state = .uninit ∧ t.degraded = s.degraded)
      ∧ ((s.latch.op = .transfer ∨ s.latch.op = .refresh ∨ s.latch.op = .sleep) →
          t.state = .idle ∧ t.degraded = true)

/-- A table's byte that no row lists for the variant is sent unchanged with its data, and waits if the entry asks (R68,
R98). That it is no instruction is the model's reading (log 13), and that one step sends the whole frame its choice
(log 2). -/
def Obligations.UnlistedTableByteIsSent : Prop :=
  ∀ (s : State) (op : Byte) (data : List Byte) (wait : Bool) (rest : List Micro) (e : DecodeError),
    s.cfg.wf = true → s.run = true → s.hostWaits = true → s.todo = .frame (tableFrame op data wait) :: rest →
    decodeFrame s.cfg (tableFrame op data wait) = .error e →
    s.xfersOk (commandXfers s.cfg data.length) → s.idleNext (if wait then 1 else 0) →
    ∃ t, step s = .next t ∧ busOnly { s with todo := rest } t
      ∧ t.trace = s.trace ++ commandEvents s.cfg op data wait

/-! ### The bus -/

/-- R76: a data frame of n bytes is sent in exactly ceil(n / P_MAX_CHUNK) transfers, each but the last of P_MAX_CHUNK
bytes, and together they carry the payload, in order; where all succeed the frame's events are those transfers
between DC and CS (R75), whether the payload is a table's, a parameter's, or read from NEW or OLD. -/
def Obligations.DataFrameChunks : Prop :=
  (∀ (s : State) (src : Source),
    let bytes := src.bytes s
    bytes ≠ [] → s.xfersOk (ceilDiv bytes.length s.cfg.maxChunk) →
    ∃ t, runPrims (dataFrame s.cfg src) s = .ok t
      ∧ t.trace = s.trace ++ [.pin .dc true, .cs true]
        ++ (chunks s.cfg.maxChunk bytes.length).map (fun p => .xfer ((bytes.drop p.1).take (p.2 - p.1))) ++ [.cs false])
  ∧ ∀ (chunk : Nat) (bytes : List Byte), 1 ≤ chunk →
    (chunks chunk bytes.length).length = ceilDiv bytes.length chunk
      ∧ (∀ k, k < ceilDiv bytes.length chunk →
          (chunks chunk bytes.length).getD k (0, 0) = (k * chunk, min ((k + 1) * chunk) bytes.length))
      ∧ ((chunks chunk bytes.length).map fun p => (bytes.drop p.1).take (p.2 - p.1)).flatten = bytes

/-- R75, R78: when transfer k of a data frame is the first to fail, the frame ends there: the chunks before it were sent,
CS is deasserted, TRANSPORT_FAILURE is raised, and no later chunk is sent; for every source of the payload, NEW's
region, planes and OLD's frame among them. -/
def Obligations.FailedChunkEndsTheFrame : Prop :=
  ∀ (s : State) (src : Source) (k : Nat),
    let bytes := src.bytes s
    bytes ≠ [] → k < ceilDiv bytes.length s.cfg.maxChunk → s.xfersOk k → s.xferOkAt k = false →
    ∃ t, runPrims (dataFrame s.cfg src) s = .raised .transportFailure t ∧ busOnly s t ∧ t.touched = true
      ∧ t.pins = ⟨s.pins.rst, true, false⟩
      ∧ t.trace = s.trace ++ [.pin .dc true, .cs true] ++ (xferEvents s.cfg bytes).take k
          ++ [.xferFail ((bytes.drop (k * s.cfg.maxChunk)).take s.cfg.maxChunk), .cs false]

/-- R83: a `WaitIdle` ends. It returns after j busy samples, j at most K = ceil(T / P_POLL_MS), or it sees K + 1 busy
samples and raises BUSY_TIMEOUT after K poll delays, which together take less than T + P_POLL_MS. -/
def Obligations.WaitIdleEnds : Prop :=
  ∀ s : State, 1 ≤ s.cfg.pollMs →
    let T := s.latch.timeout.toNat
    let K := ceilDiv T s.cfg.pollMs
    K * s.cfg.pollMs < T + s.cfg.pollMs ∧
    ((∃ j t, j ≤ K ∧ (∀ i, i < j → s.busyAt i = s.cfg.busyActive) ∧ s.busyAt j ≠ s.cfg.busyActive
        ∧ runPrim (.poll 0) s = .ok t ∧ busOnly s t ∧ t.trace = s.trace ++ wEvents s.cfg j)
      ∨ (∃ t, (∀ i, i ≤ K → s.busyAt i = s.cfg.busyActive)
        ∧ runPrim (.poll 0) s = .raised .busyTimeout t ∧ busOnly s t ∧ t.trace = s.trace ++ timeoutEvents s.cfg K))

/-- The timed milliseconds of the procedures (R190), as the sums of the `Delay` events they append: SendCommand,
SendData, a WaitIdle that returns after j busy samples or times out, ResetPulse, and on a return SetWindow and
InstallLut. -/
def Obligations.TimedLengths : Prop :=
  ∀ s : State, s.cfg.wf = true →
    (∀ op, s.xferOk = true → ∃ t evs, runPrims (commandFrame s.cfg op) s = .ok t ∧ t.trace = s.trace ++ evs
      ∧ timedMs evs = s.cfg.cmdSettleMs)
    ∧ (∀ src t, runPrims (dataFrame s.cfg src) s = .ok t → ∃ evs, t.trace = s.trace ++ evs ∧ timedMs evs = 0)
    ∧ (∀ j, j ≤ ceilDiv s.latch.timeout.toNat s.cfg.pollMs → (∀ i, i < j → s.busyAt i = s.cfg.busyActive) →
      s.busyAt j ≠ s.cfg.busyActive → ∃ t evs, runPrim (.poll 0) s = .ok t ∧ t.trace = s.trace ++ evs
        ∧ timedMs evs = j * s.cfg.pollMs + s.cfg.postIdleMs)
    ∧ ((∀ i, i ≤ ceilDiv s.latch.timeout.toNat s.cfg.pollMs → s.busyAt i = s.cfg.busyActive) →
      ∃ t evs, runPrim (.poll 0) s = .raised .busyTimeout t ∧ t.trace = s.trace ++ evs
        ∧ timedMs evs = ceilDiv s.latch.timeout.toNat s.cfg.pollMs * s.cfg.pollMs)
    ∧ (∃ t evs, runPrims (resetPulse s.cfg) s = .ok t ∧ t.trace = s.trace ++ evs
      ∧ timedMs evs = 2 * s.cfg.resetHoldMs)
    ∧ (∀ t, s.cfg.variant = .fw → runPrims (setWindow.flatMap (Micro.expand s)) s = .ok t →
      ∃ evs, t.trace = s.trace ++ evs ∧ timedMs evs = 4 * s.cfg.cmdSettleMs)
    ∧ (∀ m t, runPrims ((installLut s.cfg m).flatMap (Micro.expand s)) s = .ok t →
      ∃ evs, t.trace = s.trace ++ evs ∧ timedMs evs = commandMs s.cfg (lutCommands s.cfg) 1 evs)

/-! ### The host port -/

/-- R46, R177: an access that is not naturally aligned, or is narrower than 4 bytes in the register space, is the error
response, a fault, for a read and for a write. -/
def Obligations.MisalignedAccessFaults : Prop :=
  ∀ (s : State) (w : Width) (addr : HostAddr) (v : Word),
    addr.toNat % w.bytes ≠ 0 ∨ (addr.toNat < 0x100 ∧ w ≠ .b4) →
    hostRead w addr s = .fault .misalignedAccess ∧ hostWrite w addr v s = .fault .misalignedAccess

/-- R48: while an operation runs, an aligned write to the STAGE aperture is the error response, a fault; reads of the
three memories are answered at any time. That the fault covers the offsets at or past `SLOT_CAP`, whose writes R44
ignores with no error, is the model's reading (log 18). -/
def Obligations.StageIsLockedWhileRunning : Prop :=
  ∀ (s : State) (w : Width) (addr : HostAddr) (v : Word), addr.toNat % w.bytes = 0 →
    (s.run = true → 0x100000 ≤ addr.toNat → addr.toNat < 0x200000 → hostWrite w addr v s = .fault .stageLocked)
      ∧ (0x100000 ≤ addr.toNat → ∃ x, hostRead w addr s = .next { s with reads := s.reads ++ [x] })

/-- R49: a legal read appends its data word to the host's results and changes nothing else. -/
def Obligations.ReadsHaveNoSideEffect : Prop :=
  ∀ (s t : State) (w : Width) (addr : HostAddr), hostRead w addr s = .next t →
    t = { s with reads := s.reads ++ [readData s w addr] }

/-- R47, R49, R53, R44: an aligned write of n bytes to STAGE while no operation runs is answered and changes nothing but
STAGE: it stores byte i of the word at offset a + i where that is below `SLOT_CAP`, and no other byte of STAGE
changes. -/
def Obligations.StageWriteIsLittleEndian : Prop :=
  ∀ (s : State) (w : Width) (off : Nat) (v : Word), s.stage.wf none = true → off < 0x100000 → off % w.bytes = 0 →
    s.run = false →
    ∃ t, hostWrite w (BitVec.ofNat 22 (0x100000 + off)) v s = .next t ∧ t = { s with stage := t.stage }
      ∧ (∀ i, i < w.bytes → off + i < s.cfg.slotCap → t.stageByte (off + i) = v.extractLsb' (8 * i) 8)
      ∧ ∀ a, a < off ∨ off + w.bytes ≤ a ∨ s.cfg.slotCap ≤ a → t.stageByte a = s.stageByte a

/-- R47, R44: a legal read of n bytes of an aperture gives the byte at offset a + i in bits [8i + 7 : 8i], 0 where a
+ i is not below `SLOT_CAP`. That the bits above its n bytes are 0 is the model's choice (log 17). -/
def Obligations.ApertureReadIsLittleEndian : Prop :=
  ∀ (s : State) (w : Width) (off i : Nat), off < 0x100000 → i < 4 →
    (readData s w (BitVec.ofNat 22 (0x100000 + off))).extractLsb' (8 * i) 8
        = (if i < w.bytes ∧ off + i < s.cfg.slotCap then s.stageByte (off + i) else 0)
      ∧ (readData s w (BitVec.ofNat 22 (0x200000 + off))).extractLsb' (8 * i) 8
        = (if i < w.bytes ∧ off + i < s.cfg.slotCap then s.newByte (off + i) else 0)
      ∧ (readData s w (BitVec.ofNat 22 (0x300000 + off))).extractLsb' (8 * i) 8
        = (if i < w.bytes ∧ off + i < s.cfg.slotCap then s.oldByte (off + i) else 0)

/-- R23: STATUS is the view of the flags, field by field; it is what a read of offset 0x04 gives, and a write to it is
ignored. The states, the modes and the result codes have the numbers of R30, R13 and R161. -/
def Obligations.StatusFields : Prop :=
  [OpState.uninit, .idle, .transferring, .refreshing, .sleeping, .initializing, .resetting, .enteringSleep].map
      OpState.code = [0, 1, 2, 3, 4, 5, 6, 7]
  ∧ [Mode.gray, .full, .part, .fast].map Mode.code = [0, 1, 2, 3]
  ∧ [ErrCode.ok, .busyTimeout, .invalidBufferSize, .notInitialized, .driverAsleep, .transportFailure, .degraded,
      .badOp, .badMode, .badWindow].map ErrCode.code
      = [0x00, 0x01, 0x02, 0x03, 0x04, 0x05, 0x06, 0x07, 0x08, 0x09]
  ∧ ∀ (s : State) (v : Word), readData s .b4 0x04 = statusWord s ∧ hostWrite .b4 0x04 v s = .next s
    ∧ (statusWord s).extractLsb' 0 3 = s.state.code ∧ (statusWord s).getLsbD 3 = s.run
      ∧ (statusWord s).getLsbD 4 = s.degraded ∧ (statusWord s).getLsbD 5 = s.lutValid
      ∧ (statusWord s).extractLsb' 6 2 = s.lutMode.code ∧ (statusWord s).extractLsb' 8 8 = s.err.code
      ∧ (statusWord s).getLsbD 16 = s.overrun ∧ (statusWord s).getLsbD 17 = s.fmt
      ∧ (statusWord s).extractLsb' 18 2 = s.sessMode.code ∧ (statusWord s).extractLsb' 20 12 = 0

/-- R28, R29: GEOM at offset 0x1C and CONFIG at 0x20 are hardwired views of the parameters; a write is ignored. -/
def Obligations.GeomAndConfig : Prop :=
  ∀ (s : State) (v : Word), s.cfg.wf = true →
    let geom := readData s .b4 0x1C
    let config := readData s .b4 0x20
    (geom.extractLsb' 0 16).toNat = s.cfg.width ∧ (geom.extractLsb' 16 16).toNat = s.cfg.height
      ∧ config.getLsbD 0 = decide (s.cfg.variant = .nf) ∧ config.getLsbD 1 = s.cfg.busyActive
      ∧ config.extractLsb' 2 30 = 0
      ∧ hostWrite .b4 0x1C v s = .next s ∧ hostWrite .b4 0x20 v s = .next s

/-- The register accesses of R21 and R24 to R27: what each write stores and what each read gives. -/
def Obligations.RegisterAccesses : Prop :=
  ∀ (s : State) (v : Word),
    hostWrite .b4 0x08 v s = .next { s with regs := { s.regs with winOrg := v } }
      ∧ hostWrite .b4 0x0C v s = .next { s with regs := { s.regs with winSize := v } }
      ∧ hostWrite .b4 0x10 v s = .next { s with regs := { s.regs with xferLen := v.extractLsb' 0 21 } }
      ∧ hostWrite .b4 0x14 v s = .next { s with regs := { s.regs with timeout := v } }
      ∧ hostWrite .b4 0x18 v s = .next { s with overrun := if v.getLsbD 0 then false else s.overrun }
      ∧ hostWrite .b4 0x04 v s = .next s ∧ hostWrite .b4 0x1C v s = .next s ∧ hostWrite .b4 0x20 v s = .next s
      ∧ readData s .b4 0x00 = 0 ∧ readData s .b4 0x04 = statusWord s ∧ readData s .b4 0x08 = s.regs.winOrg
      ∧ readData s .b4 0x0C = s.regs.winSize ∧ readData s .b4 0x10 = s.regs.xferLen.setWidth 32
      ∧ readData s .b4 0x14 = s.regs.timeout ∧ readData s .b4 0x18 = 0

/-- R43, R45: writes to NEW, OLD and reserved space change nothing, and reserved space reads 0. That reserved space from
0x100 on takes every naturally aligned width is the model's reading (log 8). -/
def Obligations.ReservedSpaceIsInert : Prop :=
  ∀ (s : State) (w : Width) (addr : HostAddr) (v : Word), addr.toNat % w.bytes = 0 →
    ((0x100 ≤ addr.toNat ∧ addr.toNat < 0x100000) ∨ (0x24 ≤ addr.toNat ∧ addr.toNat < 0x100 ∧ w = .b4) →
        hostWrite w addr v s = .next s ∧ readData s w addr = 0)
      ∧ (0x200000 ≤ addr.toNat → hostWrite w addr v s = .next s)

/-- `waitdone` ends only when RUN = 0 and gives the STATUS value it ends with (R71, R55). That the polls before the last
take no step and append nothing to the results is the model's reading (log 12). -/
def Obligations.WaitdoneGivesStatus : Prop :=
  ∀ (s : State) (rest : List HostStmt), s.cfg.wf = true → s.hostq = .waitdone :: rest →
    (s.run = false → step s = .next { s with hostq := rest, reads := s.reads ++ [statusWord s] })
      ∧ (∀ t, s.run = true → step s = .next t → t.hostq = s.hostq ∧ t.reads = s.reads)

/-! ### Timing -/

/-- The timed milliseconds of the operations that succeed (R190), under every sequence of draws, as the sums of the
`Delay` events they append: RESET; INIT and WAKE; TRANSFER, with no wait; REFRESH, with its LUT if one is needed;
SLEEP. -/
def Obligations.TimedOperations : Prop :=
  ∀ s t : State, s.cfg.wf = true → s.run = false →
    let c := s.cfg
    (exec .reset s = .next t → ∃ evs, t.trace = s.trace ++ evs ∧ timedMs evs = 2 * c.resetHoldMs)
    ∧ (∀ i m, i = .init m ∨ (i = .wake ∧ m = s.sessMode) → ¬ (c.variant = .nf ∧ m = .gray) → exec i s = .next t →
      t.err = .ok → ∃ evs, t.trace = s.trace ++ evs
        ∧ timedMs evs = 2 * c.resetHoldMs + commandMs c (c.initSeq.map (entryCommands c m)).sum
            (c.initSeq.map (entryWaits c m)).sum evs)
    ∧ (∀ win, transferAccepted s win → exec (.transfer win) s = .next t → t.err = .ok →
      ∃ evs, t.trace = s.trace ++ evs ∧ timedMs evs = transferCommands c s.fmt * c.cmdSettleMs)
    ∧ (∀ m, refreshAccepted s m → exec (.refresh m) s = .next t → t.err = .ok →
      ∃ evs, t.trace = s.trace ++ evs
        ∧ timedMs evs = commandMs c ((if lutNeeded s m then lutCommands c else 0) + refreshCommands c m)
            ((if lutNeeded s m then 1 else 0) + 1) evs)
    ∧ (s.state = .idle → exec .sleep s = .next t → t.err = .ok →
      ∃ evs, t.trace = s.trace ++ evs
        ∧ timedMs evs = commandMs c (c.sleepSeq.map (entryCommands c .gray)).sum
            (c.sleepSeq.map (entryWaits c .gray)).sum evs)
end

