-- ==== Sys2Proof/Laws/State.lean ====
section
/-! SUPPORT. What each named update of the state does to each field: one lemma per field per update, true by
definition. -/

namespace Sys2Proof.Machine

/-! ### setRst -/

@[simp] theorem setRst_cfg (v : Level) (s : State) : (setRst v s).cfg = s.cfg := rfl
@[simp] theorem setRst_regs (v : Level) (s : State) : (setRst v s).regs = s.regs := rfl
@[simp] theorem setRst_state (v : Level) (s : State) : (setRst v s).state = s.state := rfl
@[simp] theorem setRst_run (v : Level) (s : State) : (setRst v s).run = s.run := rfl
@[simp] theorem setRst_degraded (v : Level) (s : State) : (setRst v s).degraded = s.degraded := rfl
@[simp] theorem setRst_lutValid (v : Level) (s : State) : (setRst v s).lutValid = s.lutValid := rfl
@[simp] theorem setRst_lutMode (v : Level) (s : State) : (setRst v s).lutMode = s.lutMode := rfl
@[simp] theorem setRst_err (v : Level) (s : State) : (setRst v s).err = s.err := rfl
@[simp] theorem setRst_overrun (v : Level) (s : State) : (setRst v s).overrun = s.overrun := rfl
@[simp] theorem setRst_fmt (v : Level) (s : State) : (setRst v s).fmt = s.fmt := rfl
@[simp] theorem setRst_sessMode (v : Level) (s : State) : (setRst v s).sessMode = s.sessMode := rfl
@[simp] theorem setRst_touched (v : Level) (s : State) : (setRst v s).touched = s.touched := rfl
@[simp] theorem setRst_latch (v : Level) (s : State) : (setRst v s).latch = s.latch := rfl
@[simp] theorem setRst_seqpc (v : Level) (s : State) : (setRst v s).seqpc = s.seqpc + 1 := rfl
@[simp] theorem setRst_todo (v : Level) (s : State) : (setRst v s).todo = s.todo := rfl
@[simp] theorem setRst_pins (v : Level) (s : State) : (setRst v s).pins = { s.pins with rst := v } := rfl
@[simp] theorem setRst_stage (v : Level) (s : State) : (setRst v s).stage = s.stage := rfl
@[simp] theorem setRst_new (v : Level) (s : State) : (setRst v s).new = s.new := rfl
@[simp] theorem setRst_old (v : Level) (s : State) : (setRst v s).old = s.old := rfl
@[simp] theorem setRst_trace (v : Level) (s : State) : (setRst v s).trace = s.trace ++ [.pin .rst v] := rfl
@[simp] theorem setRst_busyIn (v : Level) (s : State) : (setRst v s).busyIn = s.busyIn := rfl
@[simp] theorem setRst_xferIn (v : Level) (s : State) : (setRst v s).xferIn = s.xferIn := rfl
@[simp] theorem setRst_schedIn (v : Level) (s : State) : (setRst v s).schedIn = s.schedIn := rfl
@[simp] theorem setRst_hostq (v : Level) (s : State) : (setRst v s).hostq = s.hostq := rfl
@[simp] theorem setRst_reads (v : Level) (s : State) : (setRst v s).reads = s.reads := rfl

/-! ### setDc -/

@[simp] theorem setDc_cfg (v : Level) (s : State) : (setDc v s).cfg = s.cfg := rfl
@[simp] theorem setDc_regs (v : Level) (s : State) : (setDc v s).regs = s.regs := rfl
@[simp] theorem setDc_state (v : Level) (s : State) : (setDc v s).state = s.state := rfl
@[simp] theorem setDc_run (v : Level) (s : State) : (setDc v s).run = s.run := rfl
@[simp] theorem setDc_degraded (v : Level) (s : State) : (setDc v s).degraded = s.degraded := rfl
@[simp] theorem setDc_lutValid (v : Level) (s : State) : (setDc v s).lutValid = s.lutValid := rfl
@[simp] theorem setDc_lutMode (v : Level) (s : State) : (setDc v s).lutMode = s.lutMode := rfl
@[simp] theorem setDc_err (v : Level) (s : State) : (setDc v s).err = s.err := rfl
@[simp] theorem setDc_overrun (v : Level) (s : State) : (setDc v s).overrun = s.overrun := rfl
@[simp] theorem setDc_fmt (v : Level) (s : State) : (setDc v s).fmt = s.fmt := rfl
@[simp] theorem setDc_sessMode (v : Level) (s : State) : (setDc v s).sessMode = s.sessMode := rfl
@[simp] theorem setDc_touched (v : Level) (s : State) : (setDc v s).touched = s.touched := rfl
@[simp] theorem setDc_latch (v : Level) (s : State) : (setDc v s).latch = s.latch := rfl
@[simp] theorem setDc_seqpc (v : Level) (s : State) : (setDc v s).seqpc = s.seqpc + 1 := rfl
@[simp] theorem setDc_todo (v : Level) (s : State) : (setDc v s).todo = s.todo := rfl
@[simp] theorem setDc_pins (v : Level) (s : State) : (setDc v s).pins = { s.pins with dc := v } := rfl
@[simp] theorem setDc_stage (v : Level) (s : State) : (setDc v s).stage = s.stage := rfl
@[simp] theorem setDc_new (v : Level) (s : State) : (setDc v s).new = s.new := rfl
@[simp] theorem setDc_old (v : Level) (s : State) : (setDc v s).old = s.old := rfl
@[simp] theorem setDc_trace (v : Level) (s : State) : (setDc v s).trace = s.trace ++ [.pin .dc v] := rfl
@[simp] theorem setDc_busyIn (v : Level) (s : State) : (setDc v s).busyIn = s.busyIn := rfl
@[simp] theorem setDc_xferIn (v : Level) (s : State) : (setDc v s).xferIn = s.xferIn := rfl
@[simp] theorem setDc_schedIn (v : Level) (s : State) : (setDc v s).schedIn = s.schedIn := rfl
@[simp] theorem setDc_hostq (v : Level) (s : State) : (setDc v s).hostq = s.hostq := rfl
@[simp] theorem setDc_reads (v : Level) (s : State) : (setDc v s).reads = s.reads := rfl

/-! ### setCs -/

@[simp] theorem setCs_cfg (a : Bool) (s : State) : (setCs a s).cfg = s.cfg := rfl
@[simp] theorem setCs_regs (a : Bool) (s : State) : (setCs a s).regs = s.regs := rfl
@[simp] theorem setCs_state (a : Bool) (s : State) : (setCs a s).state = s.state := rfl
@[simp] theorem setCs_run (a : Bool) (s : State) : (setCs a s).run = s.run := rfl
@[simp] theorem setCs_degraded (a : Bool) (s : State) : (setCs a s).degraded = s.degraded := rfl
@[simp] theorem setCs_lutValid (a : Bool) (s : State) : (setCs a s).lutValid = s.lutValid := rfl
@[simp] theorem setCs_lutMode (a : Bool) (s : State) : (setCs a s).lutMode = s.lutMode := rfl
@[simp] theorem setCs_err (a : Bool) (s : State) : (setCs a s).err = s.err := rfl
@[simp] theorem setCs_overrun (a : Bool) (s : State) : (setCs a s).overrun = s.overrun := rfl
@[simp] theorem setCs_fmt (a : Bool) (s : State) : (setCs a s).fmt = s.fmt := rfl
@[simp] theorem setCs_sessMode (a : Bool) (s : State) : (setCs a s).sessMode = s.sessMode := rfl
@[simp] theorem setCs_touched (a : Bool) (s : State) : (setCs a s).touched = s.touched := rfl
@[simp] theorem setCs_latch (a : Bool) (s : State) : (setCs a s).latch = s.latch := rfl
@[simp] theorem setCs_seqpc (a : Bool) (s : State) : (setCs a s).seqpc = s.seqpc + 1 := rfl
@[simp] theorem setCs_todo (a : Bool) (s : State) : (setCs a s).todo = s.todo := rfl
@[simp] theorem setCs_pins (a : Bool) (s : State) : (setCs a s).pins = { s.pins with cs := a } := rfl
@[simp] theorem setCs_stage (a : Bool) (s : State) : (setCs a s).stage = s.stage := rfl
@[simp] theorem setCs_new (a : Bool) (s : State) : (setCs a s).new = s.new := rfl
@[simp] theorem setCs_old (a : Bool) (s : State) : (setCs a s).old = s.old := rfl
@[simp] theorem setCs_trace (a : Bool) (s : State) : (setCs a s).trace = s.trace ++ [.cs a] := rfl
@[simp] theorem setCs_busyIn (a : Bool) (s : State) : (setCs a s).busyIn = s.busyIn := rfl
@[simp] theorem setCs_xferIn (a : Bool) (s : State) : (setCs a s).xferIn = s.xferIn := rfl
@[simp] theorem setCs_schedIn (a : Bool) (s : State) : (setCs a s).schedIn = s.schedIn := rfl
@[simp] theorem setCs_hostq (a : Bool) (s : State) : (setCs a s).hostq = s.hostq := rfl
@[simp] theorem setCs_reads (a : Bool) (s : State) : (setCs a s).reads = s.reads := rfl

/-! ### delay -/

@[simp] theorem delay_cfg (ms : Nat) (s : State) : (delay ms s).cfg = s.cfg := rfl
@[simp] theorem delay_regs (ms : Nat) (s : State) : (delay ms s).regs = s.regs := rfl
@[simp] theorem delay_state (ms : Nat) (s : State) : (delay ms s).state = s.state := rfl
@[simp] theorem delay_run (ms : Nat) (s : State) : (delay ms s).run = s.run := rfl
@[simp] theorem delay_degraded (ms : Nat) (s : State) : (delay ms s).degraded = s.degraded := rfl
@[simp] theorem delay_lutValid (ms : Nat) (s : State) : (delay ms s).lutValid = s.lutValid := rfl
@[simp] theorem delay_lutMode (ms : Nat) (s : State) : (delay ms s).lutMode = s.lutMode := rfl
@[simp] theorem delay_err (ms : Nat) (s : State) : (delay ms s).err = s.err := rfl
@[simp] theorem delay_overrun (ms : Nat) (s : State) : (delay ms s).overrun = s.overrun := rfl
@[simp] theorem delay_fmt (ms : Nat) (s : State) : (delay ms s).fmt = s.fmt := rfl
@[simp] theorem delay_sessMode (ms : Nat) (s : State) : (delay ms s).sessMode = s.sessMode := rfl
@[simp] theorem delay_touched (ms : Nat) (s : State) : (delay ms s).touched = s.touched := rfl
@[simp] theorem delay_latch (ms : Nat) (s : State) : (delay ms s).latch = s.latch := rfl
@[simp] theorem delay_seqpc (ms : Nat) (s : State) : (delay ms s).seqpc = s.seqpc + 1 := rfl
@[simp] theorem delay_todo (ms : Nat) (s : State) : (delay ms s).todo = s.todo := rfl
@[simp] theorem delay_pins (ms : Nat) (s : State) : (delay ms s).pins = s.pins := rfl
@[simp] theorem delay_stage (ms : Nat) (s : State) : (delay ms s).stage = s.stage := rfl
@[simp] theorem delay_new (ms : Nat) (s : State) : (delay ms s).new = s.new := rfl
@[simp] theorem delay_old (ms : Nat) (s : State) : (delay ms s).old = s.old := rfl
@[simp] theorem delay_trace (ms : Nat) (s : State) : (delay ms s).trace = s.trace ++ delayEvents ms := rfl
@[simp] theorem delay_busyIn (ms : Nat) (s : State) : (delay ms s).busyIn = s.busyIn := rfl
@[simp] theorem delay_xferIn (ms : Nat) (s : State) : (delay ms s).xferIn = s.xferIn := rfl
@[simp] theorem delay_schedIn (ms : Nat) (s : State) : (delay ms s).schedIn = s.schedIn := rfl
@[simp] theorem delay_hostq (ms : Nat) (s : State) : (delay ms s).hostq = s.hostq := rfl
@[simp] theorem delay_reads (ms : Nat) (s : State) : (delay ms s).reads = s.reads := rfl

/-! ### sampleBusy -/

@[simp] theorem sampleBusy_cfg (s : State) : (sampleBusy s).cfg = s.cfg := rfl
@[simp] theorem sampleBusy_regs (s : State) : (sampleBusy s).regs = s.regs := rfl
@[simp] theorem sampleBusy_state (s : State) : (sampleBusy s).state = s.state := rfl
@[simp] theorem sampleBusy_run (s : State) : (sampleBusy s).run = s.run := rfl
@[simp] theorem sampleBusy_degraded (s : State) : (sampleBusy s).degraded = s.degraded := rfl
@[simp] theorem sampleBusy_lutValid (s : State) : (sampleBusy s).lutValid = s.lutValid := rfl
@[simp] theorem sampleBusy_lutMode (s : State) : (sampleBusy s).lutMode = s.lutMode := rfl
@[simp] theorem sampleBusy_err (s : State) : (sampleBusy s).err = s.err := rfl
@[simp] theorem sampleBusy_overrun (s : State) : (sampleBusy s).overrun = s.overrun := rfl
@[simp] theorem sampleBusy_fmt (s : State) : (sampleBusy s).fmt = s.fmt := rfl
@[simp] theorem sampleBusy_sessMode (s : State) : (sampleBusy s).sessMode = s.sessMode := rfl
@[simp] theorem sampleBusy_touched (s : State) : (sampleBusy s).touched = s.touched := rfl
@[simp] theorem sampleBusy_latch (s : State) : (sampleBusy s).latch = s.latch := rfl
@[simp] theorem sampleBusy_seqpc (s : State) : (sampleBusy s).seqpc = s.seqpc + 1 := rfl
@[simp] theorem sampleBusy_todo (s : State) : (sampleBusy s).todo = s.todo := rfl
@[simp] theorem sampleBusy_pins (s : State) : (sampleBusy s).pins = s.pins := rfl
@[simp] theorem sampleBusy_stage (s : State) : (sampleBusy s).stage = s.stage := rfl
@[simp] theorem sampleBusy_new (s : State) : (sampleBusy s).new = s.new := rfl
@[simp] theorem sampleBusy_old (s : State) : (sampleBusy s).old = s.old := rfl
@[simp] theorem sampleBusy_trace (s : State) : (sampleBusy s).trace = s.trace ++ [.busySample s.busyLevel] := rfl
@[simp] theorem sampleBusy_busyIn (s : State) : (sampleBusy s).busyIn = s.busyIn.rest := rfl
@[simp] theorem sampleBusy_xferIn (s : State) : (sampleBusy s).xferIn = s.xferIn := rfl
@[simp] theorem sampleBusy_schedIn (s : State) : (sampleBusy s).schedIn = s.schedIn := rfl
@[simp] theorem sampleBusy_hostq (s : State) : (sampleBusy s).hostq = s.hostq := rfl
@[simp] theorem sampleBusy_reads (s : State) : (sampleBusy s).reads = s.reads := rfl

/-! ### spiXfer -/

@[simp] theorem spiXfer_cfg (bs : List Byte) (s : State) : (spiXfer bs s).cfg = s.cfg := rfl
@[simp] theorem spiXfer_regs (bs : List Byte) (s : State) : (spiXfer bs s).regs = s.regs := rfl
@[simp] theorem spiXfer_state (bs : List Byte) (s : State) : (spiXfer bs s).state = s.state := rfl
@[simp] theorem spiXfer_run (bs : List Byte) (s : State) : (spiXfer bs s).run = s.run := rfl
@[simp] theorem spiXfer_degraded (bs : List Byte) (s : State) : (spiXfer bs s).degraded = s.degraded := rfl
@[simp] theorem spiXfer_lutValid (bs : List Byte) (s : State) : (spiXfer bs s).lutValid = s.lutValid := rfl
@[simp] theorem spiXfer_lutMode (bs : List Byte) (s : State) : (spiXfer bs s).lutMode = s.lutMode := rfl
@[simp] theorem spiXfer_err (bs : List Byte) (s : State) : (spiXfer bs s).err = s.err := rfl
@[simp] theorem spiXfer_overrun (bs : List Byte) (s : State) : (spiXfer bs s).overrun = s.overrun := rfl
@[simp] theorem spiXfer_fmt (bs : List Byte) (s : State) : (spiXfer bs s).fmt = s.fmt := rfl
@[simp] theorem spiXfer_sessMode (bs : List Byte) (s : State) : (spiXfer bs s).sessMode = s.sessMode := rfl
@[simp] theorem spiXfer_touched (bs : List Byte) (s : State) : (spiXfer bs s).touched = true := rfl
@[simp] theorem spiXfer_latch (bs : List Byte) (s : State) : (spiXfer bs s).latch = s.latch := rfl
@[simp] theorem spiXfer_seqpc (bs : List Byte) (s : State) : (spiXfer bs s).seqpc = s.seqpc + 1 := rfl
@[simp] theorem spiXfer_todo (bs : List Byte) (s : State) : (spiXfer bs s).todo = s.todo := rfl
@[simp] theorem spiXfer_pins (bs : List Byte) (s : State) : (spiXfer bs s).pins = s.pins := rfl
@[simp] theorem spiXfer_stage (bs : List Byte) (s : State) : (spiXfer bs s).stage = s.stage := rfl
@[simp] theorem spiXfer_new (bs : List Byte) (s : State) : (spiXfer bs s).new = s.new := rfl
@[simp] theorem spiXfer_old (bs : List Byte) (s : State) : (spiXfer bs s).old = s.old := rfl
@[simp] theorem spiXfer_trace (bs : List Byte) (s : State) :
    (spiXfer bs s).trace = s.trace ++ [if s.xferOk then .xfer bs else .xferFail bs] :=
  rfl
@[simp] theorem spiXfer_busyIn (bs : List Byte) (s : State) : (spiXfer bs s).busyIn = s.busyIn := rfl
@[simp] theorem spiXfer_xferIn (bs : List Byte) (s : State) :
    (spiXfer bs s).xferIn = if s.cfg.transportCanFail then s.xferIn.rest else s.xferIn :=
  rfl
@[simp] theorem spiXfer_schedIn (bs : List Byte) (s : State) : (spiXfer bs s).schedIn = s.schedIn := rfl
@[simp] theorem spiXfer_hostq (bs : List Byte) (s : State) : (spiXfer bs s).hostq = s.hostq := rfl
@[simp] theorem spiXfer_reads (bs : List Byte) (s : State) : (spiXfer bs s).reads = s.reads := rfl

/-! ### clearTracker -/

@[simp] theorem clearTracker_cfg (s : State) : (clearTracker s).cfg = s.cfg := rfl
@[simp] theorem clearTracker_regs (s : State) : (clearTracker s).regs = s.regs := rfl
@[simp] theorem clearTracker_state (s : State) : (clearTracker s).state = s.state := rfl
@[simp] theorem clearTracker_run (s : State) : (clearTracker s).run = s.run := rfl
@[simp] theorem clearTracker_degraded (s : State) : (clearTracker s).degraded = s.degraded := rfl
@[simp] theorem clearTracker_lutValid (s : State) : (clearTracker s).lutValid = false := rfl
@[simp] theorem clearTracker_lutMode (s : State) : (clearTracker s).lutMode = s.lutMode := rfl
@[simp] theorem clearTracker_err (s : State) : (clearTracker s).err = s.err := rfl
@[simp] theorem clearTracker_overrun (s : State) : (clearTracker s).overrun = s.overrun := rfl
@[simp] theorem clearTracker_fmt (s : State) : (clearTracker s).fmt = s.fmt := rfl
@[simp] theorem clearTracker_sessMode (s : State) : (clearTracker s).sessMode = s.sessMode := rfl
@[simp] theorem clearTracker_touched (s : State) : (clearTracker s).touched = s.touched := rfl
@[simp] theorem clearTracker_latch (s : State) : (clearTracker s).latch = s.latch := rfl
@[simp] theorem clearTracker_seqpc (s : State) : (clearTracker s).seqpc = s.seqpc := rfl
@[simp] theorem clearTracker_todo (s : State) : (clearTracker s).todo = s.todo := rfl
@[simp] theorem clearTracker_pins (s : State) : (clearTracker s).pins = s.pins := rfl
@[simp] theorem clearTracker_stage (s : State) : (clearTracker s).stage = s.stage := rfl
@[simp] theorem clearTracker_new (s : State) : (clearTracker s).new = s.new := rfl
@[simp] theorem clearTracker_old (s : State) : (clearTracker s).old = s.old := rfl
@[simp] theorem clearTracker_trace (s : State) : (clearTracker s).trace = s.trace := rfl
@[simp] theorem clearTracker_busyIn (s : State) : (clearTracker s).busyIn = s.busyIn := rfl
@[simp] theorem clearTracker_xferIn (s : State) : (clearTracker s).xferIn = s.xferIn := rfl
@[simp] theorem clearTracker_schedIn (s : State) : (clearTracker s).schedIn = s.schedIn := rfl
@[simp] theorem clearTracker_hostq (s : State) : (clearTracker s).hostq = s.hostq := rfl
@[simp] theorem clearTracker_reads (s : State) : (clearTracker s).reads = s.reads := rfl

/-! ### setTracker -/

@[simp] theorem setTracker_cfg (m : Mode) (s : State) : (setTracker m s).cfg = s.cfg := rfl
@[simp] theorem setTracker_regs (m : Mode) (s : State) : (setTracker m s).regs = s.regs := rfl
@[simp] theorem setTracker_state (m : Mode) (s : State) : (setTracker m s).state = s.state := rfl
@[simp] theorem setTracker_run (m : Mode) (s : State) : (setTracker m s).run = s.run := rfl
@[simp] theorem setTracker_degraded (m : Mode) (s : State) : (setTracker m s).degraded = s.degraded := rfl
@[simp] theorem setTracker_lutValid (m : Mode) (s : State) : (setTracker m s).lutValid = true := rfl
@[simp] theorem setTracker_lutMode (m : Mode) (s : State) : (setTracker m s).lutMode = m := rfl
@[simp] theorem setTracker_err (m : Mode) (s : State) : (setTracker m s).err = s.err := rfl
@[simp] theorem setTracker_overrun (m : Mode) (s : State) : (setTracker m s).overrun = s.overrun := rfl
@[simp] theorem setTracker_fmt (m : Mode) (s : State) : (setTracker m s).fmt = s.fmt := rfl
@[simp] theorem setTracker_sessMode (m : Mode) (s : State) : (setTracker m s).sessMode = s.sessMode := rfl
@[simp] theorem setTracker_touched (m : Mode) (s : State) : (setTracker m s).touched = s.touched := rfl
@[simp] theorem setTracker_latch (m : Mode) (s : State) : (setTracker m s).latch = s.latch := rfl
@[simp] theorem setTracker_seqpc (m : Mode) (s : State) : (setTracker m s).seqpc = s.seqpc := rfl
@[simp] theorem setTracker_todo (m : Mode) (s : State) : (setTracker m s).todo = s.todo := rfl
@[simp] theorem setTracker_pins (m : Mode) (s : State) : (setTracker m s).pins = s.pins := rfl
@[simp] theorem setTracker_stage (m : Mode) (s : State) : (setTracker m s).stage = s.stage := rfl
@[simp] theorem setTracker_new (m : Mode) (s : State) : (setTracker m s).new = s.new := rfl
@[simp] theorem setTracker_old (m : Mode) (s : State) : (setTracker m s).old = s.old := rfl
@[simp] theorem setTracker_trace (m : Mode) (s : State) : (setTracker m s).trace = s.trace := rfl
@[simp] theorem setTracker_busyIn (m : Mode) (s : State) : (setTracker m s).busyIn = s.busyIn := rfl
@[simp] theorem setTracker_xferIn (m : Mode) (s : State) : (setTracker m s).xferIn = s.xferIn := rfl
@[simp] theorem setTracker_schedIn (m : Mode) (s : State) : (setTracker m s).schedIn = s.schedIn := rfl
@[simp] theorem setTracker_hostq (m : Mode) (s : State) : (setTracker m s).hostq = s.hostq := rfl
@[simp] theorem setTracker_reads (m : Mode) (s : State) : (setTracker m s).reads = s.reads := rfl

/-! ### writeStage -/

@[simp] theorem writeStage_cfg (cs : List Host.Cell) (s : State) : (writeStage cs s).cfg = s.cfg := rfl
@[simp] theorem writeStage_regs (cs : List Host.Cell) (s : State) : (writeStage cs s).regs = s.regs := rfl
@[simp] theorem writeStage_state (cs : List Host.Cell) (s : State) : (writeStage cs s).state = s.state := rfl
@[simp] theorem writeStage_run (cs : List Host.Cell) (s : State) : (writeStage cs s).run = s.run := rfl
@[simp] theorem writeStage_degraded (cs : List Host.Cell) (s : State) : (writeStage cs s).degraded = s.degraded := rfl
@[simp] theorem writeStage_lutValid (cs : List Host.Cell) (s : State) : (writeStage cs s).lutValid = s.lutValid := rfl
@[simp] theorem writeStage_lutMode (cs : List Host.Cell) (s : State) : (writeStage cs s).lutMode = s.lutMode := rfl
@[simp] theorem writeStage_err (cs : List Host.Cell) (s : State) : (writeStage cs s).err = s.err := rfl
@[simp] theorem writeStage_overrun (cs : List Host.Cell) (s : State) : (writeStage cs s).overrun = s.overrun := rfl
@[simp] theorem writeStage_fmt (cs : List Host.Cell) (s : State) : (writeStage cs s).fmt = s.fmt := rfl
@[simp] theorem writeStage_sessMode (cs : List Host.Cell) (s : State) : (writeStage cs s).sessMode = s.sessMode := rfl
@[simp] theorem writeStage_touched (cs : List Host.Cell) (s : State) : (writeStage cs s).touched = s.touched := rfl
@[simp] theorem writeStage_latch (cs : List Host.Cell) (s : State) : (writeStage cs s).latch = s.latch := rfl
@[simp] theorem writeStage_seqpc (cs : List Host.Cell) (s : State) : (writeStage cs s).seqpc = s.seqpc := rfl
@[simp] theorem writeStage_todo (cs : List Host.Cell) (s : State) : (writeStage cs s).todo = s.todo := rfl
@[simp] theorem writeStage_pins (cs : List Host.Cell) (s : State) : (writeStage cs s).pins = s.pins := rfl
@[simp] theorem writeStage_stage (cs : List Host.Cell) (s : State) :
    (writeStage cs s).stage = s.stage.setAll none s.cfg.slotCap cs :=
  rfl
@[simp] theorem writeStage_new (cs : List Host.Cell) (s : State) : (writeStage cs s).new = s.new := rfl
@[simp] theorem writeStage_old (cs : List Host.Cell) (s : State) : (writeStage cs s).old = s.old := rfl
@[simp] theorem writeStage_trace (cs : List Host.Cell) (s : State) : (writeStage cs s).trace = s.trace := rfl
@[simp] theorem writeStage_busyIn (cs : List Host.Cell) (s : State) : (writeStage cs s).busyIn = s.busyIn := rfl
@[simp] theorem writeStage_xferIn (cs : List Host.Cell) (s : State) : (writeStage cs s).xferIn = s.xferIn := rfl
@[simp] theorem writeStage_schedIn (cs : List Host.Cell) (s : State) : (writeStage cs s).schedIn = s.schedIn := rfl
@[simp] theorem writeStage_hostq (cs : List Host.Cell) (s : State) : (writeStage cs s).hostq = s.hostq := rfl
@[simp] theorem writeStage_reads (cs : List Host.Cell) (s : State) : (writeStage cs s).reads = s.reads := rfl

/-! ### writeNew -/

@[simp] theorem writeNew_cfg (cs : List Host.Cell) (s : State) : (writeNew cs s).cfg = s.cfg := rfl
@[simp] theorem writeNew_regs (cs : List Host.Cell) (s : State) : (writeNew cs s).regs = s.regs := rfl
@[simp] theorem writeNew_state (cs : List Host.Cell) (s : State) : (writeNew cs s).state = s.state := rfl
@[simp] theorem writeNew_run (cs : List Host.Cell) (s : State) : (writeNew cs s).run = s.run := rfl
@[simp] theorem writeNew_degraded (cs : List Host.Cell) (s : State) : (writeNew cs s).degraded = s.degraded := rfl
@[simp] theorem writeNew_lutValid (cs : List Host.Cell) (s : State) : (writeNew cs s).lutValid = s.lutValid := rfl
@[simp] theorem writeNew_lutMode (cs : List Host.Cell) (s : State) : (writeNew cs s).lutMode = s.lutMode := rfl
@[simp] theorem writeNew_err (cs : List Host.Cell) (s : State) : (writeNew cs s).err = s.err := rfl
@[simp] theorem writeNew_overrun (cs : List Host.Cell) (s : State) : (writeNew cs s).overrun = s.overrun := rfl
@[simp] theorem writeNew_fmt (cs : List Host.Cell) (s : State) : (writeNew cs s).fmt = s.fmt := rfl
@[simp] theorem writeNew_sessMode (cs : List Host.Cell) (s : State) : (writeNew cs s).sessMode = s.sessMode := rfl
@[simp] theorem writeNew_touched (cs : List Host.Cell) (s : State) : (writeNew cs s).touched = s.touched := rfl
@[simp] theorem writeNew_latch (cs : List Host.Cell) (s : State) : (writeNew cs s).latch = s.latch := rfl
@[simp] theorem writeNew_seqpc (cs : List Host.Cell) (s : State) : (writeNew cs s).seqpc = s.seqpc + 1 := rfl
@[simp] theorem writeNew_todo (cs : List Host.Cell) (s : State) : (writeNew cs s).todo = s.todo := rfl
@[simp] theorem writeNew_pins (cs : List Host.Cell) (s : State) : (writeNew cs s).pins = s.pins := rfl
@[simp] theorem writeNew_stage (cs : List Host.Cell) (s : State) : (writeNew cs s).stage = s.stage := rfl
@[simp] theorem writeNew_new (cs : List Host.Cell) (s : State) :
    (writeNew cs s).new = s.new.setAll (some white) s.cfg.slotCap cs :=
  rfl
@[simp] theorem writeNew_old (cs : List Host.Cell) (s : State) : (writeNew cs s).old = s.old := rfl
@[simp] theorem writeNew_trace (cs : List Host.Cell) (s : State) : (writeNew cs s).trace = s.trace := rfl
@[simp] theorem writeNew_busyIn (cs : List Host.Cell) (s : State) : (writeNew cs s).busyIn = s.busyIn := rfl
@[simp] theorem writeNew_xferIn (cs : List Host.Cell) (s : State) : (writeNew cs s).xferIn = s.xferIn := rfl
@[simp] theorem writeNew_schedIn (cs : List Host.Cell) (s : State) : (writeNew cs s).schedIn = s.schedIn := rfl
@[simp] theorem writeNew_hostq (cs : List Host.Cell) (s : State) : (writeNew cs s).hostq = s.hostq := rfl
@[simp] theorem writeNew_reads (cs : List Host.Cell) (s : State) : (writeNew cs s).reads = s.reads := rfl

/-! ### merge -/

@[simp] theorem merge_cfg (s : State) : (merge s).cfg = s.cfg := rfl
@[simp] theorem merge_regs (s : State) : (merge s).regs = s.regs := rfl
@[simp] theorem merge_state (s : State) : (merge s).state = s.state := rfl
@[simp] theorem merge_run (s : State) : (merge s).run = s.run := rfl
@[simp] theorem merge_degraded (s : State) : (merge s).degraded = s.degraded := rfl
@[simp] theorem merge_lutValid (s : State) : (merge s).lutValid = s.lutValid := rfl
@[simp] theorem merge_lutMode (s : State) : (merge s).lutMode = s.lutMode := rfl
@[simp] theorem merge_err (s : State) : (merge s).err = s.err := rfl
@[simp] theorem merge_overrun (s : State) : (merge s).overrun = s.overrun := rfl
@[simp] theorem merge_fmt (s : State) : (merge s).fmt = s.fmt := rfl
@[simp] theorem merge_sessMode (s : State) : (merge s).sessMode = s.sessMode := rfl
@[simp] theorem merge_touched (s : State) : (merge s).touched = s.touched := rfl
@[simp] theorem merge_latch (s : State) : (merge s).latch = s.latch := rfl
@[simp] theorem merge_seqpc (s : State) : (merge s).seqpc = s.seqpc + 1 := rfl
@[simp] theorem merge_todo (s : State) : (merge s).todo = s.todo := rfl
@[simp] theorem merge_pins (s : State) : (merge s).pins = s.pins := rfl
@[simp] theorem merge_stage (s : State) : (merge s).stage = s.stage := rfl
@[simp] theorem merge_new (s : State) :
    (merge s).new = s.new.setAll (some white) s.cfg.slotCap (mergeCells s s.rect) :=
  rfl
@[simp] theorem merge_old (s : State) : (merge s).old = s.old := rfl
@[simp] theorem merge_trace (s : State) : (merge s).trace = s.trace := rfl
@[simp] theorem merge_busyIn (s : State) : (merge s).busyIn = s.busyIn := rfl
@[simp] theorem merge_xferIn (s : State) : (merge s).xferIn = s.xferIn := rfl
@[simp] theorem merge_schedIn (s : State) : (merge s).schedIn = s.schedIn := rfl
@[simp] theorem merge_hostq (s : State) : (merge s).hostq = s.hostq := rfl
@[simp] theorem merge_reads (s : State) : (merge s).reads = s.reads := rfl

/-! ### copyForward -/

@[simp] theorem copyForward_cfg (s : State) : (copyForward s).cfg = s.cfg := rfl
@[simp] theorem copyForward_regs (s : State) : (copyForward s).regs = s.regs := rfl
@[simp] theorem copyForward_state (s : State) : (copyForward s).state = s.state := rfl
@[simp] theorem copyForward_run (s : State) : (copyForward s).run = s.run := rfl
@[simp] theorem copyForward_degraded (s : State) : (copyForward s).degraded = s.degraded := rfl
@[simp] theorem copyForward_lutValid (s : State) : (copyForward s).lutValid = s.lutValid := rfl
@[simp] theorem copyForward_lutMode (s : State) : (copyForward s).lutMode = s.lutMode := rfl
@[simp] theorem copyForward_err (s : State) : (copyForward s).err = s.err := rfl
@[simp] theorem copyForward_overrun (s : State) : (copyForward s).overrun = s.overrun := rfl
@[simp] theorem copyForward_fmt (s : State) : (copyForward s).fmt = s.fmt := rfl
@[simp] theorem copyForward_sessMode (s : State) : (copyForward s).sessMode = s.sessMode := rfl
@[simp] theorem copyForward_touched (s : State) : (copyForward s).touched = s.touched := rfl
@[simp] theorem copyForward_latch (s : State) : (copyForward s).latch = s.latch := rfl
@[simp] theorem copyForward_seqpc (s : State) : (copyForward s).seqpc = s.seqpc + 1 := rfl
@[simp] theorem copyForward_todo (s : State) : (copyForward s).todo = s.todo := rfl
@[simp] theorem copyForward_pins (s : State) : (copyForward s).pins = s.pins := rfl
@[simp] theorem copyForward_stage (s : State) : (copyForward s).stage = s.stage := rfl
@[simp] theorem copyForward_new (s : State) : (copyForward s).new = s.new := rfl
@[simp] theorem copyForward_old (s : State) :
    (copyForward s).old = s.new.filter (fun c => decide (c.1 < s.cfg.slotCap))
      ++ s.old.filter (fun c => decide (s.cfg.slotCap ≤ c.1)) :=
  rfl
@[simp] theorem copyForward_trace (s : State) : (copyForward s).trace = s.trace := rfl
@[simp] theorem copyForward_busyIn (s : State) : (copyForward s).busyIn = s.busyIn := rfl
@[simp] theorem copyForward_xferIn (s : State) : (copyForward s).xferIn = s.xferIn := rfl
@[simp] theorem copyForward_schedIn (s : State) : (copyForward s).schedIn = s.schedIn := rfl
@[simp] theorem copyForward_hostq (s : State) : (copyForward s).hostq = s.hostq := rfl
@[simp] theorem copyForward_reads (s : State) : (copyForward s).reads = s.reads := rfl

/-! ### accept -/

@[simp] theorem accept_cfg (op : OpCode) (m : Mode) (w : Bool) (s : State) : (accept op m w s).cfg = s.cfg := rfl
@[simp] theorem accept_regs (op : OpCode) (m : Mode) (w : Bool) (s : State) : (accept op m w s).regs = s.regs := rfl
@[simp] theorem accept_state (op : OpCode) (m : Mode) (w : Bool) (s : State) :
    (accept op m w s).state = runningState op :=
  rfl
@[simp] theorem accept_run (op : OpCode) (m : Mode) (w : Bool) (s : State) : (accept op m w s).run = true := rfl
@[simp] theorem accept_degraded (op : OpCode) (m : Mode) (w : Bool) (s : State) :
    (accept op m w s).degraded = s.degraded :=
  rfl
@[simp] theorem accept_lutValid (op : OpCode) (m : Mode) (w : Bool) (s : State) :
    (accept op m w s).lutValid = s.lutValid :=
  rfl
@[simp] theorem accept_lutMode (op : OpCode) (m : Mode) (w : Bool) (s : State) :
    (accept op m w s).lutMode = s.lutMode :=
  rfl
@[simp] theorem accept_err (op : OpCode) (m : Mode) (w : Bool) (s : State) : (accept op m w s).err = .ok := rfl
@[simp] theorem accept_overrun (op : OpCode) (m : Mode) (w : Bool) (s : State) :
    (accept op m w s).overrun = s.overrun :=
  rfl
@[simp] theorem accept_fmt (op : OpCode) (m : Mode) (w : Bool) (s : State) : (accept op m w s).fmt = s.fmt := rfl
@[simp] theorem accept_sessMode (op : OpCode) (m : Mode) (w : Bool) (s : State) :
    (accept op m w s).sessMode = s.sessMode :=
  rfl
@[simp] theorem accept_touched (op : OpCode) (m : Mode) (w : Bool) (s : State) :
    (accept op m w s).touched = false :=
  rfl
@[simp] theorem accept_latch (op : OpCode) (m : Mode) (w : Bool) (s : State) :
    (accept op m w s).latch = ⟨op, m, w, s.regs.winOrg, s.regs.winSize, s.regs.xferLen, s.regs.timeout⟩ :=
  rfl
@[simp] theorem accept_seqpc (op : OpCode) (m : Mode) (w : Bool) (s : State) : (accept op m w s).seqpc = 0 := rfl
@[simp] theorem accept_todo (op : OpCode) (m : Mode) (w : Bool) (s : State) : (accept op m w s).todo = s.todo := rfl
@[simp] theorem accept_pins (op : OpCode) (m : Mode) (w : Bool) (s : State) : (accept op m w s).pins = s.pins := rfl
@[simp] theorem accept_stage (op : OpCode) (m : Mode) (w : Bool) (s : State) : (accept op m w s).stage = s.stage := rfl
@[simp] theorem accept_new (op : OpCode) (m : Mode) (w : Bool) (s : State) : (accept op m w s).new = s.new := rfl
@[simp] theorem accept_old (op : OpCode) (m : Mode) (w : Bool) (s : State) : (accept op m w s).old = s.old := rfl
@[simp] theorem accept_trace (op : OpCode) (m : Mode) (w : Bool) (s : State) : (accept op m w s).trace = s.trace := rfl
@[simp] theorem accept_busyIn (op : OpCode) (m : Mode) (w : Bool) (s : State) :
    (accept op m w s).busyIn = s.busyIn :=
  rfl
@[simp] theorem accept_xferIn (op : OpCode) (m : Mode) (w : Bool) (s : State) :
    (accept op m w s).xferIn = s.xferIn :=
  rfl
@[simp] theorem accept_schedIn (op : OpCode) (m : Mode) (w : Bool) (s : State) :
    (accept op m w s).schedIn = s.schedIn :=
  rfl
@[simp] theorem accept_hostq (op : OpCode) (m : Mode) (w : Bool) (s : State) : (accept op m w s).hostq = s.hostq := rfl
@[simp] theorem accept_reads (op : OpCode) (m : Mode) (w : Bool) (s : State) : (accept op m w s).reads = s.reads := rfl

/-! ### reject -/

@[simp] theorem reject_cfg (e : ErrCode) (s : State) : (reject e s).cfg = s.cfg := rfl
@[simp] theorem reject_regs (e : ErrCode) (s : State) : (reject e s).regs = s.regs := rfl
@[simp] theorem reject_state (e : ErrCode) (s : State) : (reject e s).state = s.state := rfl
@[simp] theorem reject_run (e : ErrCode) (s : State) : (reject e s).run = s.run := rfl
@[simp] theorem reject_degraded (e : ErrCode) (s : State) : (reject e s).degraded = s.degraded := rfl
@[simp] theorem reject_lutValid (e : ErrCode) (s : State) : (reject e s).lutValid = s.lutValid := rfl
@[simp] theorem reject_lutMode (e : ErrCode) (s : State) : (reject e s).lutMode = s.lutMode := rfl
@[simp] theorem reject_err (e : ErrCode) (s : State) : (reject e s).err = e := rfl
@[simp] theorem reject_overrun (e : ErrCode) (s : State) : (reject e s).overrun = s.overrun := rfl
@[simp] theorem reject_fmt (e : ErrCode) (s : State) : (reject e s).fmt = s.fmt := rfl
@[simp] theorem reject_sessMode (e : ErrCode) (s : State) : (reject e s).sessMode = s.sessMode := rfl
@[simp] theorem reject_touched (e : ErrCode) (s : State) : (reject e s).touched = s.touched := rfl
@[simp] theorem reject_latch (e : ErrCode) (s : State) : (reject e s).latch = s.latch := rfl
@[simp] theorem reject_seqpc (e : ErrCode) (s : State) : (reject e s).seqpc = s.seqpc := rfl
@[simp] theorem reject_todo (e : ErrCode) (s : State) : (reject e s).todo = s.todo := rfl
@[simp] theorem reject_pins (e : ErrCode) (s : State) : (reject e s).pins = s.pins := rfl
@[simp] theorem reject_stage (e : ErrCode) (s : State) : (reject e s).stage = s.stage := rfl
@[simp] theorem reject_new (e : ErrCode) (s : State) : (reject e s).new = s.new := rfl
@[simp] theorem reject_old (e : ErrCode) (s : State) : (reject e s).old = s.old := rfl
@[simp] theorem reject_trace (e : ErrCode) (s : State) : (reject e s).trace = s.trace := rfl
@[simp] theorem reject_busyIn (e : ErrCode) (s : State) : (reject e s).busyIn = s.busyIn := rfl
@[simp] theorem reject_xferIn (e : ErrCode) (s : State) : (reject e s).xferIn = s.xferIn := rfl
@[simp] theorem reject_schedIn (e : ErrCode) (s : State) : (reject e s).schedIn = s.schedIn := rfl
@[simp] theorem reject_hostq (e : ErrCode) (s : State) : (reject e s).hostq = s.hostq := rfl
@[simp] theorem reject_reads (e : ErrCode) (s : State) : (reject e s).reads = s.reads := rfl

/-! ### overrunCmd -/

@[simp] theorem overrunCmd_cfg (s : State) : (overrunCmd s).cfg = s.cfg := rfl
@[simp] theorem overrunCmd_regs (s : State) : (overrunCmd s).regs = s.regs := rfl
@[simp] theorem overrunCmd_state (s : State) : (overrunCmd s).state = s.state := rfl
@[simp] theorem overrunCmd_run (s : State) : (overrunCmd s).run = s.run := rfl
@[simp] theorem overrunCmd_degraded (s : State) : (overrunCmd s).degraded = s.degraded := rfl
@[simp] theorem overrunCmd_lutValid (s : State) : (overrunCmd s).lutValid = s.lutValid := rfl
@[simp] theorem overrunCmd_lutMode (s : State) : (overrunCmd s).lutMode = s.lutMode := rfl
@[simp] theorem overrunCmd_err (s : State) : (overrunCmd s).err = s.err := rfl
@[simp] theorem overrunCmd_overrun (s : State) : (overrunCmd s).overrun = true := rfl
@[simp] theorem overrunCmd_fmt (s : State) : (overrunCmd s).fmt = s.fmt := rfl
@[simp] theorem overrunCmd_sessMode (s : State) : (overrunCmd s).sessMode = s.sessMode := rfl
@[simp] theorem overrunCmd_touched (s : State) : (overrunCmd s).touched = s.touched := rfl
@[simp] theorem overrunCmd_latch (s : State) : (overrunCmd s).latch = s.latch := rfl
@[simp] theorem overrunCmd_seqpc (s : State) : (overrunCmd s).seqpc = s.seqpc := rfl
@[simp] theorem overrunCmd_todo (s : State) : (overrunCmd s).todo = s.todo := rfl
@[simp] theorem overrunCmd_pins (s : State) : (overrunCmd s).pins = s.pins := rfl
@[simp] theorem overrunCmd_stage (s : State) : (overrunCmd s).stage = s.stage := rfl
@[simp] theorem overrunCmd_new (s : State) : (overrunCmd s).new = s.new := rfl
@[simp] theorem overrunCmd_old (s : State) : (overrunCmd s).old = s.old := rfl
@[simp] theorem overrunCmd_trace (s : State) : (overrunCmd s).trace = s.trace := rfl
@[simp] theorem overrunCmd_busyIn (s : State) : (overrunCmd s).busyIn = s.busyIn := rfl
@[simp] theorem overrunCmd_xferIn (s : State) : (overrunCmd s).xferIn = s.xferIn := rfl
@[simp] theorem overrunCmd_schedIn (s : State) : (overrunCmd s).schedIn = s.schedIn := rfl
@[simp] theorem overrunCmd_hostq (s : State) : (overrunCmd s).hostq = s.hostq := rfl
@[simp] theorem overrunCmd_reads (s : State) : (overrunCmd s).reads = s.reads := rfl

/-! ### abort and finish -/

@[simp] theorem abort_cfg (c : ErrCode) (s : State) : (abort c s).cfg = s.cfg := by
  unfold abort; cases s.latch.op <;> rfl
@[simp] theorem abort_regs (c : ErrCode) (s : State) : (abort c s).regs = s.regs := by
  unfold abort; cases s.latch.op <;> rfl
@[simp] theorem abort_lutMode (c : ErrCode) (s : State) : (abort c s).lutMode = s.lutMode := by
  unfold abort; cases s.latch.op <;> rfl
@[simp] theorem abort_overrun (c : ErrCode) (s : State) : (abort c s).overrun = s.overrun := by
  unfold abort; cases s.latch.op <;> rfl
@[simp] theorem abort_fmt (c : ErrCode) (s : State) : (abort c s).fmt = s.fmt := by
  unfold abort; cases s.latch.op <;> rfl
@[simp] theorem abort_sessMode (c : ErrCode) (s : State) : (abort c s).sessMode = s.sessMode := by
  unfold abort; cases s.latch.op <;> rfl
@[simp] theorem abort_touched (c : ErrCode) (s : State) : (abort c s).touched = s.touched := by
  unfold abort; cases s.latch.op <;> rfl
@[simp] theorem abort_latch (c : ErrCode) (s : State) : (abort c s).latch = s.latch := by
  unfold abort; cases s.latch.op <;> rfl
@[simp] theorem abort_seqpc (c : ErrCode) (s : State) : (abort c s).seqpc = s.seqpc := by
  unfold abort; cases s.latch.op <;> rfl
@[simp] theorem abort_pins (c : ErrCode) (s : State) : (abort c s).pins = s.pins := by
  unfold abort; cases s.latch.op <;> rfl
@[simp] theorem abort_stage (c : ErrCode) (s : State) : (abort c s).stage = s.stage := by
  unfold abort; cases s.latch.op <;> rfl
@[simp] theorem abort_new (c : ErrCode) (s : State) : (abort c s).new = s.new := by
  unfold abort; cases s.latch.op <;> rfl
@[simp] theorem abort_old (c : ErrCode) (s : State) : (abort c s).old = s.old := by
  unfold abort; cases s.latch.op <;> rfl
@[simp] theorem abort_trace (c : ErrCode) (s : State) : (abort c s).trace = s.trace := by
  unfold abort; cases s.latch.op <;> rfl
@[simp] theorem abort_busyIn (c : ErrCode) (s : State) : (abort c s).busyIn = s.busyIn := by
  unfold abort; cases s.latch.op <;> rfl
@[simp] theorem abort_xferIn (c : ErrCode) (s : State) : (abort c s).xferIn = s.xferIn := by
  unfold abort; cases s.latch.op <;> rfl
@[simp] theorem abort_schedIn (c : ErrCode) (s : State) : (abort c s).schedIn = s.schedIn := by
  unfold abort; cases s.latch.op <;> rfl
@[simp] theorem abort_hostq (c : ErrCode) (s : State) : (abort c s).hostq = s.hostq := by
  unfold abort; cases s.latch.op <;> rfl
@[simp] theorem abort_reads (c : ErrCode) (s : State) : (abort c s).reads = s.reads := by
  unfold abort; cases s.latch.op <;> rfl
@[simp] theorem abort_lutValid (c : ErrCode) (s : State) : (abort c s).lutValid = s.lutValid := by
  unfold abort; cases s.latch.op <;> rfl
@[simp] theorem finish_cfg (s : State) : (finish s).cfg = s.cfg := by
  unfold finish; cases s.latch.op <;> rfl
@[simp] theorem finish_regs (s : State) : (finish s).regs = s.regs := by
  unfold finish; cases s.latch.op <;> rfl
@[simp] theorem finish_lutMode (s : State) : (finish s).lutMode = s.lutMode := by
  unfold finish; cases s.latch.op <;> rfl
@[simp] theorem finish_overrun (s : State) : (finish s).overrun = s.overrun := by
  unfold finish; cases s.latch.op <;> rfl
@[simp] theorem finish_fmt (s : State) : (finish s).fmt = s.fmt := by
  unfold finish; cases s.latch.op <;> rfl
@[simp] theorem finish_sessMode (s : State) : (finish s).sessMode = s.sessMode := by
  unfold finish; cases s.latch.op <;> rfl
@[simp] theorem finish_touched (s : State) : (finish s).touched = s.touched := by
  unfold finish; cases s.latch.op <;> rfl
@[simp] theorem finish_latch (s : State) : (finish s).latch = s.latch := by
  unfold finish; cases s.latch.op <;> rfl
@[simp] theorem finish_seqpc (s : State) : (finish s).seqpc = s.seqpc := by
  unfold finish; cases s.latch.op <;> rfl
@[simp] theorem finish_pins (s : State) : (finish s).pins = s.pins := by
  unfold finish; cases s.latch.op <;> rfl
@[simp] theorem finish_stage (s : State) : (finish s).stage = s.stage := by
  unfold finish; cases s.latch.op <;> rfl
@[simp] theorem finish_new (s : State) : (finish s).new = s.new := by
  unfold finish; cases s.latch.op <;> rfl
@[simp] theorem finish_old (s : State) : (finish s).old = s.old := by
  unfold finish; cases s.latch.op <;> rfl
@[simp] theorem finish_trace (s : State) : (finish s).trace = s.trace := by
  unfold finish; cases s.latch.op <;> rfl
@[simp] theorem finish_busyIn (s : State) : (finish s).busyIn = s.busyIn := by
  unfold finish; cases s.latch.op <;> rfl
@[simp] theorem finish_xferIn (s : State) : (finish s).xferIn = s.xferIn := by
  unfold finish; cases s.latch.op <;> rfl
@[simp] theorem finish_schedIn (s : State) : (finish s).schedIn = s.schedIn := by
  unfold finish; cases s.latch.op <;> rfl
@[simp] theorem finish_hostq (s : State) : (finish s).hostq = s.hostq := by
  unfold finish; cases s.latch.op <;> rfl
@[simp] theorem finish_reads (s : State) : (finish s).reads = s.reads := by
  unfold finish; cases s.latch.op <;> rfl
@[simp] theorem abort_err (c : ErrCode) (s : State) : (abort c s).err = c := by
  unfold abort; cases s.latch.op <;> rfl
@[simp] theorem abort_run (c : ErrCode) (s : State) : (abort c s).run = false := by
  unfold abort; cases s.latch.op <;> rfl
@[simp] theorem abort_todo (c : ErrCode) (s : State) : (abort c s).todo = [] := by
  unfold abort; cases s.latch.op <;> rfl
@[simp] theorem finish_err (s : State) : (finish s).err = .ok := by
  unfold finish; cases s.latch.op <;> rfl
@[simp] theorem finish_run (s : State) : (finish s).run = false := by
  unfold finish; cases s.latch.op <;> rfl
@[simp] theorem finish_todo (s : State) : (finish s).todo = [] := by
  unfold finish; cases s.latch.op <;> rfl

/-- Neither end of an operation reads the pseudocode that was left. -/
theorem abort_with_todo (c : ErrCode) (s : State) (l : List Micro) : abort c { s with todo := l } = abort c s := by
  unfold abort; cases s.latch.op <;> rfl

theorem finish_with_todo (s : State) (l : List Micro) : finish { s with todo := l } = finish s := by
  unfold finish; cases s.latch.op <;> rfl

end Sys2Proof.Machine
end

