-- ==== Sys2Proof/Laws/Draws.lean ====
section
/-! SUPPORT. The laws of the draw streams: the draws to come after some are used. -/

namespace Sys2Proof.Machine

theorem DrawStream.drop_add (m n : Nat) (d : DrawStream) : (d.drop m).drop n = d.drop (m + n) := by
  induction m generalizing d with
  | zero => simp [DrawStream.drop]
  | succ m ih => rw [Nat.succ_add, DrawStream.drop, DrawStream.drop, ih]

@[simp] theorem DrawStream.drop_zero (d : DrawStream) : d.drop 0 = d := rfl

theorem DrawStream.drop_one (d : DrawStream) : d.drop 1 = d.rest := rfl

theorem DrawStream.drop_succ (n : Nat) (d : DrawStream) : d.drop (n + 1) = d.rest.drop n := rfl

/-- The stream of SPI outcomes after n transfers: draws are used only where a transfer can fail (R10). -/
def State.xferAfter (s : State) (n : Nat) : DrawStream := if s.cfg.transportCanFail then s.xferIn.drop n else s.xferIn

theorem State.xferOkAt_zero (s : State) : s.xferOkAt 0 = s.xferOk := rfl

theorem State.busyAt_zero (s : State) : s.busyAt 0 = s.busyLevel := rfl

theorem State.xferOkAt_add {s t : State} {m : Nat} (hc : t.cfg = s.cfg) (hx : t.xferIn = s.xferAfter m) (n : Nat) :
    t.xferOkAt n = s.xferOkAt (m + n) := by
  unfold State.xferOkAt State.xferAfter at *
  rw [hc, hx]
  by_cases h : s.cfg.transportCanFail = true <;> simp [h, DrawStream.nth, DrawStream.drop_add]

theorem State.busyAt_add {s t : State} {m : Nat} (hx : t.busyIn = s.busyIn.drop m) (n : Nat) :
    t.busyAt n = s.busyAt (m + n) := by
  unfold State.busyAt
  rw [hx, DrawStream.nth, DrawStream.nth, DrawStream.drop_add]

theorem State.xferAfter_add {s t : State} {m : Nat} (hc : t.cfg = s.cfg) (hx : t.xferIn = s.xferAfter m) (n : Nat) :
    t.xferAfter n = s.xferAfter (m + n) := by
  unfold State.xferAfter at *
  rw [hc, hx]
  by_cases h : s.cfg.transportCanFail = true <;> simp [h, DrawStream.drop_add]

@[simp] theorem State.xferAfter_zero (s : State) : s.xferAfter 0 = s.xferIn := by simp [State.xferAfter]

theorem State.xferAfter_one (s : State) : s.xferAfter 1 = if s.cfg.transportCanFail then s.xferIn.rest else s.xferIn :=
  rfl

theorem State.xfersOk_add {s : State} {m n : Nat} (h : s.xfersOk (m + n)) : s.xfersOk m :=
  fun k hk => h k (by omega)

theorem State.xfersOk_after {s t : State} {m n : Nat} (h : s.xfersOk (m + n)) (hc : t.cfg = s.cfg)
    (hx : t.xferIn = s.xferAfter m) : t.xfersOk n := fun k hk => by
  rw [State.xferOkAt_add hc hx]; exact h _ (by omega)

theorem State.idleNext_add {s : State} {m n : Nat} (h : s.idleNext (m + n)) : s.idleNext m :=
  fun k hk => h k (by omega)

theorem State.idleNext_after {s t : State} {m n : Nat} (h : s.idleNext (m + n)) (hc : t.cfg = s.cfg)
    (hx : t.busyIn = s.busyIn.drop m) : t.idleNext n := fun k hk => by
  rw [State.busyAt_add hx, hc]; exact h _ (by omega)

theorem State.xferOk_of_xfersOk {s : State} {n : Nat} (h : s.xfersOk n) (hn : 0 < n) : s.xferOk = true := h 0 hn

end Sys2Proof.Machine
end

