-- ==== Sys2Proof/Laws/Bus.lean ====
section
/-! SUPPORT. What the bus procedures do: the run of a list of primitives in parts, the command frame, the data frame
and the busy-wait in the case of success, and what they leave in every case. -/

namespace Sys2Proof.Machine

/-- The rest of a procedure after a part of it. -/
def Res.bind (r : Res) (f : State → Res) : Res :=
  match r with
  | .ok s => f s
  | .raised code s => .raised code s

@[simp] theorem Res.bind_ok (s : State) (f : State → Res) : (Res.ok s).bind f = f s := rfl

@[simp] theorem Res.bind_raised (c : ErrCode) (s : State) (f : State → Res) :
    (Res.raised c s).bind f = .raised c s := rfl

theorem runPrims_cons (p : Prim) (ps : List Prim) (s : State) :
    runPrims (p :: ps) s = (runPrim p s).bind (runPrims ps) := by
  cases h : runPrim p s <;> simp [runPrims, h]

/-- A list of primitives runs in parts. -/
theorem runPrims_append (ps qs : List Prim) (s : State) :
    runPrims (ps ++ qs) s = (runPrims ps s).bind (runPrims qs) := by
  induction ps generalizing s with
  | nil => rfl
  | cons p ps ih =>
    rw [List.cons_append, runPrims_cons, runPrims_cons]
    cases runPrim p s with
    | ok t => simp [ih]
    | raised c t => rfl

/-! ### What a success leaves -/

/-- After a success of bus primitives: n transfers and k samples are used up, the events are in the trace, and
nothing but the bus state changed. -/
structure Sent (s t : State) (n k : Nat) (evs : List Event) : Prop where
  frame : busOnly s t
  trace : t.trace = s.trace ++ evs
  xferIn : t.xferIn = s.xferAfter n
  busyIn : t.busyIn = s.busyIn.drop k

theorem busOnly.cfg {s t : State} (h : busOnly s t) : t.cfg = s.cfg := by rw [h]

theorem busOnly.trans {s t u : State} (h : busOnly s t) (h' : busOnly t u) : busOnly s u := by
  unfold busOnly at *; rw [h', h]

theorem busOnly.refl (s : State) : busOnly s s := rfl

theorem Sent.refl (s : State) : Sent s s 0 0 [] :=
  ⟨busOnly.refl s, by simp, by simp, rfl⟩

theorem Sent.trans {s t u : State} {n n' k k' : Nat} {evs evs' : List Event} (h : Sent s t n k evs)
    (h' : Sent t u n' k' evs') : Sent s u (n + n') (k + k') (evs ++ evs') := by
  refine ⟨h.frame.trans h'.frame, ?_, ?_, ?_⟩
  · rw [h'.trace, h.trace, List.append_assoc]
  · rw [h'.xferIn, State.xferAfter_add h.frame.cfg h.xferIn]
  · rw [h'.busyIn, h.busyIn, DrawStream.drop_add]

theorem Sent.xfersOk {s t : State} {n n' k : Nat} {evs : List Event} (h : Sent s t n k evs) (hx : s.xfersOk (n + n')) :
    t.xfersOk n' := State.xfersOk_after hx h.frame.cfg h.xferIn

theorem Sent.idleNext {s t : State} {n k k' : Nat} {evs : List Event} (h : Sent s t n k evs)
    (hx : s.idleNext (k + k')) : t.idleNext k' := State.idleNext_after hx h.frame.cfg h.busyIn

/-! ### The command frame (R74) -/

theorem commandFrame_sent {s : State} (op : Byte) (h : s.xfersOk 1) :
    ∃ t, runPrims (commandFrame s.cfg op) s = .ok t ∧ Sent s t 1 0 (cEvents s.cfg op) ∧ t.touched = true
      ∧ t.pins = ⟨s.pins.rst, false, false⟩ := by
  have h0 : (setCs true (setDc false s)).xferOk = true := h 0 (by omega)
  refine ⟨_, by simp only [commandFrame, runPrims, runPrim, h0, if_true]; rfl, ⟨?_, ?_, ?_, ?_⟩, ?_, ?_⟩
  · simp [busOnly, setDc, setCs, spiXfer, delay]
  · have h1 : (setCs true (setDc false s)).xferOk = true := h0
    simp [h1, cEvents, Source.slice, Source.bytes]
  · rw [State.xferAfter_one]; rfl
  · rfl
  · rfl
  · rfl

/-! ### The data frame (R75, R76) -/

theorem xferPrims_sent (src : Source) (bytes : List Byte) (parts : List (Nat × Nat)) {s : State}
    (hb : ∀ t : State, busOnly s t → src.bytes t = bytes) (h : s.xfersOk parts.length) :
    ∃ t, runPrims (parts.map fun p => Prim.xfer src p.1 p.2) s = .ok t
      ∧ Sent s t parts.length 0 (parts.map fun p => Event.xfer ((bytes.drop p.1).take (p.2 - p.1)))
      ∧ t.pins = s.pins ∧ (parts ≠ [] → t.touched = true) := by
  induction parts generalizing s with
  | nil => exact ⟨s, rfl, Sent.refl s, rfl, by simp⟩
  | cons p ps ih =>
    have h0 : s.xferOk = true := h 0 (by simp)
    have hs : Sent s (spiXfer (src.slice s p.1 p.2) s) 1 0 [.xfer ((bytes.drop p.1).take (p.2 - p.1))] := by
      refine ⟨by simp [busOnly, spiXfer], ?_, by simp [State.xferAfter_one], rfl⟩
      simp [h0, Source.slice, hb s (busOnly.refl s)]
    obtain ⟨t, ht, hsent, hp, -⟩ := ih (s := spiXfer (src.slice s p.1 p.2) s)
      (fun t ht => hb t (hs.frame.trans ht)) (hs.xfersOk (by simpa [Nat.add_comm] using h))
    refine ⟨t, ?_, ?_, hp, fun _ => ?_⟩
    · rw [List.map_cons, runPrims_cons]
      simp [runPrim, h0, ht]
    · have := hs.trans hsent
      simpa [Nat.add_comm] using this
    · have htouch : t.touched = (spiXfer (src.slice s p.1 p.2) s).touched ∨ t.touched = true := by
        cases ps with
        | nil =>
          simp only [List.map_nil, runPrims, Res.ok.injEq] at ht
          exact .inl (by rw [ht])
        | cons q qs =>
          obtain ⟨t', ht', -, -, h4⟩ := ih (s := spiXfer (src.slice s p.1 p.2) s)
            (fun t ht => hb t (hs.frame.trans ht)) (hs.xfersOk (by simpa [Nat.add_comm] using h))
          rw [ht] at ht'
          cases ht'
          exact .inr (h4 (by simp))
      rcases htouch with h | h
      · rw [h]; rfl
      · exact h

theorem length_chunks (c n : Nat) : (chunks c n).length = ceilDiv n c := by simp [chunks]

theorem dataFrame_sent {s : State} (src : Source) (bytes : List Byte)
    (hb : ∀ t : State, busOnly s t → src.bytes t = bytes) (hl : src.length = bytes.length)
    (h : s.xfersOk (if bytes.length = 0 then 0 else ceilDiv bytes.length s.cfg.maxChunk)) :
    ∃ t, runPrims (dataFrame s.cfg src) s = .ok t
      ∧ Sent s t (if bytes.length = 0 then 0 else ceilDiv bytes.length s.cfg.maxChunk) 0 (dEvents s.cfg bytes)
      ∧ (s.touched = true → t.touched = true)
      ∧ t.pins = (if bytes = [] then s.pins else ⟨s.pins.rst, true, false⟩) := by
  by_cases hn : bytes = []
  · subst hn
    have : src.length = 0 := hl
    exact ⟨s, by simp [dataFrame, this, runPrims], by simpa [dEvents] using Sent.refl s, id, by simp⟩
  · have hlen : bytes.length ≠ 0 := by simpa using hn
    simp only [hlen, if_false] at h ⊢
    have h1 : Sent s (setCs true (setDc true s)) 0 0 [.pin .dc true, .cs true] :=
      ⟨by simp [busOnly, setDc, setCs], by simp, by simp, rfl⟩
    obtain ⟨t, ht, hsent, hp, htouch⟩ := xferPrims_sent src bytes (chunks s.cfg.maxChunk src.length)
      (s := setCs true (setDc true s)) (fun t ht => hb t (h1.frame.trans ht))
      (by rw [length_chunks, hl]; exact h1.xfersOk (by simpa using h))
    have h2 : Sent t (setCs false t) 0 0 [.cs false] := ⟨by simp [busOnly, setCs], by simp, by simp, rfl⟩
    refine ⟨setCs false t, ?_, ?_, ?_, ?_⟩
    · have hne : src.length ≠ 0 := by omega
      simp only [dataFrame, hne, if_false, List.cons_append, runPrims_cons, runPrim, Res.bind_ok, runPrims_append, ht,
        runPrims]
    · have := (h1.trans hsent).trans h2
      rw [length_chunks, hl] at this
      simpa [dEvents, hn, xferEvents] using this
    · intro htt
      by_cases hc : chunks s.cfg.maxChunk src.length = []
      · rw [hc] at ht
        simp only [List.map_nil, runPrims, Res.ok.injEq] at ht
        rw [setCs_touched, ← ht]; exact htt
      · rw [setCs_touched]; exact htouch hc
    · simp [hn, hp]

/-! ### The busy-wait (R82, R83) -/

theorem waitIdle_idle {T fuel k : Nat} {s : State} (h : s.busyLevel ≠ s.cfg.busyActive) :
    waitIdle T fuel k s = .ok (delay s.cfg.postIdleMs (sampleBusy s)) := by
  rw [waitIdle.eq_def]; simp [h]

theorem waitIdle_late {T fuel k : Nat} {s : State} (h : s.busyLevel = s.cfg.busyActive) (hT : T ≤ k * s.cfg.pollMs) :
    waitIdle T fuel k s = .raised .busyTimeout (sampleBusy s) := by
  rw [waitIdle.eq_def]; simp [h, hT]

theorem waitIdle_spent {T k : Nat} {s : State} (h : s.busyLevel = s.cfg.busyActive) :
    waitIdle T 0 k s = .raised .busyTimeout (sampleBusy s) := by
  rw [waitIdle.eq_def]; simp [h]

theorem waitIdle_busy {T fuel k : Nat} {s : State} (h : s.busyLevel = s.cfg.busyActive)
    (hT : ¬ T ≤ k * s.cfg.pollMs) :
    waitIdle T (fuel + 1) k s = waitIdle T fuel (k + 1) (delay s.cfg.pollMs (sampleBusy s)) := by
  rw [waitIdle.eq_def]; simp [h, hT]

/-- A wait that sees j busy samples, then an idle one, returns after them. -/
theorem waitIdle_returns (T : Nat) (j : Nat) {fuel k : Nat} {s : State} (hf : j ≤ fuel)
    (ht : ∀ i, i < j → (k + i) * s.cfg.pollMs < T) (hb : ∀ i, i < j → s.busyAt i = s.cfg.busyActive)
    (hi : s.busyAt j ≠ s.cfg.busyActive) :
    ∃ t, waitIdle T fuel k s = .ok t ∧ Sent s t 0 (j + 1) (wEvents s.cfg j) ∧ t.pins = s.pins
      ∧ t.touched = s.touched := by
  induction j generalizing fuel k s with
  | zero =>
    have h0 : s.busyLevel ≠ s.cfg.busyActive := hi
    have h1 : s.busyLevel = !s.cfg.busyActive := by
      cases hx : s.busyLevel <;> cases hy : s.cfg.busyActive <;> simp_all
    refine ⟨_, waitIdle_idle h0, ⟨?_, ?_, ?_, ?_⟩, rfl, rfl⟩
    · simp [busOnly, sampleBusy, delay]
    · simp [wEvents, h1]
    · simp
    · rfl
  | succ j ih =>
    obtain ⟨fuel, rfl⟩ : ∃ f, fuel = f + 1 := ⟨fuel - 1, by omega⟩
    have h0 : s.busyLevel = s.cfg.busyActive := hb 0 (by omega)
    have hT : ¬ T ≤ k * s.cfg.pollMs := by have := ht 0 (by omega); simp at this; omega
    have hs : Sent s (delay s.cfg.pollMs (sampleBusy s)) 0 1
        ([.busySample s.cfg.busyActive] ++ delayEvents s.cfg.pollMs) :=
      ⟨by simp [busOnly, sampleBusy, delay], by simp [h0], by simp, rfl⟩
    have hc : (delay s.cfg.pollMs (sampleBusy s)).cfg = s.cfg := rfl
    obtain ⟨t, hw, hsent, hp, htouch⟩ := ih (fuel := fuel) (k := k + 1) (s := delay s.cfg.pollMs (sampleBusy s))
      (by omega) (fun i hi => by have := ht (i + 1) (by omega); rw [hc]; rwa [show k + 1 + i = k + (i + 1) by omega])
      (fun i hi => by rw [State.busyAt_add hs.busyIn, hc, Nat.add_comm]; exact hb _ (by omega))
      (by rw [State.busyAt_add hs.busyIn, hc, Nat.add_comm]; exact hi)
    refine ⟨t, ?_, ?_, hp, htouch⟩
    · rw [waitIdle_busy h0 hT, hw]
    · have := hs.trans hsent
      rw [hc] at this
      refine (show Sent s t (0 + 0) (1 + (j + 1)) _ from ?_) |> (by simpa [Nat.add_comm] using ·)
      simpa [wEvents, List.replicate_succ, List.append_assoc] using this

/-- A wait that sees only busy samples until the elapsed polls reach T raises BUSY_TIMEOUT after them. -/
theorem waitIdle_times_out (T : Nat) (j : Nat) {fuel k : Nat} {s : State} (hf : j ≤ fuel)
    (ht : ∀ i, i < j → (k + i) * s.cfg.pollMs < T) (hj : T ≤ (k + j) * s.cfg.pollMs)
    (hb : ∀ i, i ≤ j → s.busyAt i = s.cfg.busyActive) :
    ∃ t, waitIdle T fuel k s = .raised .busyTimeout t ∧ Sent s t 0 (j + 1) (timeoutEvents s.cfg j) ∧ t.pins = s.pins
      ∧ t.touched = s.touched := by
  induction j generalizing fuel k s with
  | zero =>
    have h0 : s.busyLevel = s.cfg.busyActive := hb 0 (by omega)
    refine ⟨_, waitIdle_late h0 (by simpa using hj), ⟨?_, ?_, ?_, ?_⟩, rfl, rfl⟩
    · simp [busOnly, sampleBusy]
    · simp [timeoutEvents, h0]
    · simp
    · rfl
  | succ j ih =>
    obtain ⟨fuel, rfl⟩ : ∃ f, fuel = f + 1 := ⟨fuel - 1, by omega⟩
    have h0 : s.busyLevel = s.cfg.busyActive := hb 0 (by omega)
    have hT : ¬ T ≤ k * s.cfg.pollMs := by have := ht 0 (by omega); simp at this; omega
    have hs : Sent s (delay s.cfg.pollMs (sampleBusy s)) 0 1
        ([.busySample s.cfg.busyActive] ++ delayEvents s.cfg.pollMs) :=
      ⟨by simp [busOnly, sampleBusy, delay], by simp [h0], by simp, rfl⟩
    have hc : (delay s.cfg.pollMs (sampleBusy s)).cfg = s.cfg := rfl
    obtain ⟨t, hw, hsent, hp, htouch⟩ := ih (fuel := fuel) (k := k + 1) (s := delay s.cfg.pollMs (sampleBusy s))
      (by omega) (fun i hi => by have := ht (i + 1) (by omega); rw [hc]; rwa [show k + 1 + i = k + (i + 1) by omega])
      (by rw [hc]; rwa [show k + 1 + j = k + (j + 1) by omega])
      (fun i hi => by rw [State.busyAt_add hs.busyIn, hc, Nat.add_comm]; exact hb _ (by omega))
    refine ⟨t, ?_, ?_, hp, htouch⟩
    · rw [waitIdle_busy h0 hT, hw]
    · have := hs.trans hsent
      rw [hc] at this
      refine (show Sent s t (0 + 0) (1 + (j + 1)) _ from ?_) |> (by simpa [Nat.add_comm] using ·)
      simpa [timeoutEvents, List.replicate_succ, List.append_assoc] using this

/-- A wait whose first sample is idle. -/
theorem poll_sent {s : State} (h : s.idleNext 1) :
    ∃ t, runPrims [.poll 0] s = .ok t ∧ Sent s t 0 1 (wEvents s.cfg 0) ∧ t.pins = s.pins ∧ t.touched = s.touched := by
  obtain ⟨t, hw, hs, hp, ht⟩ := waitIdle_returns s.latch.timeout.toNat 0 (fuel := s.maxPolls) (k := 0) (s := s)
    (by omega) (by omega) (by omega) (h 0 (by omega))
  exact ⟨t, by simp [runPrims, runPrim, hw], hs, hp, ht⟩

/-! ### A whole panel command -/

/-- A panel command whose transfers succeed and whose wait, if any, sees idle at once. -/
theorem commandPlan_sent {s : State} (op : Byte) (src : Source) (bytes : List Byte) (wait : Bool)
    (hb : ∀ t : State, busOnly s t → src.bytes t = bytes) (hl : src.length = bytes.length)
    (hx : s.xfersOk (commandXfers s.cfg bytes.length)) (hi : s.idleNext (if wait then 1 else 0)) :
    ∃ t, runPrims (commandPlan s.cfg op src wait) s = .ok t
      ∧ Sent s t (commandXfers s.cfg bytes.length) (if wait then 1 else 0) (commandEvents s.cfg op bytes wait)
      ∧ t.touched = true ∧ t.pins = ⟨s.pins.rst, decide (bytes ≠ []), false⟩ := by
  obtain ⟨t1, h1, s1, touch1, p1⟩ := commandFrame_sent (s := s) op (State.xfersOk_add hx)
  have c1 := s1.frame.cfg
  obtain ⟨t2, h2, s2, touch2, p2⟩ := dataFrame_sent (s := t1) src bytes (fun t ht => hb t (s1.frame.trans ht)) hl
    (by rw [c1]; exact s1.xfersOk hx)
  have c2 : t2.cfg = s.cfg := by rw [s2.frame.cfg, c1]
  rw [c1] at h2 s2
  have s12 := s1.trans s2
  have hp2 : t2.pins = ⟨s.pins.rst, decide (bytes ≠ []), false⟩ := by
    rw [p2, p1]; by_cases hn : bytes = [] <;> simp [hn]
  cases wait with
  | false =>
    refine ⟨t2, ?_, ?_, touch2 touch1, hp2⟩
    · simp [commandPlan, busyWait, runPrims_append, h1, h2]
    · simpa [commandXfers, commandEvents] using s12
  | true =>
    obtain ⟨t3, h3, s3, p3, touch3⟩ := poll_sent (s := t2) (s12.idleNext (by simpa using hi))
    refine ⟨t3, ?_, ?_, by rw [touch3]; exact touch2 touch1, by rw [p3, hp2]⟩
    · simp [commandPlan, busyWait, runPrims_append, h1, h2, h3]
    · have := s12.trans s3
      rw [c2] at this
      simpa [commandXfers, commandEvents] using this

end Sys2Proof.Machine
end

