-- ==== Sys2Proof/Laws/HostPort.lean ====
section
/-! SUPPORT. The byte order of the host port (R47): a data word's bytes, one by one. -/

namespace Sys2Proof.Machine

/-- Byte i of a word packed from at most four bytes is the i-th of them, or 0 behind their end. -/
theorem leWord_byte (l : List Byte) (i : Nat) (hl : l.length ≤ 4) (hi : i < 4) :
    (leWord l).extractLsb' (8 * i) 8 = l.getD i 0 := by
  induction l generalizing i with
  | nil => simp [leWord]
  | cons b bs ih =>
    simp only [List.length_cons] at hl
    cases i with
    | zero =>
      simp only [leWord, List.getD_cons_zero]
      apply BitVec.eq_of_getLsbD_eq
      intro j hj
      simp [hj]
      omega
    | succ i =>
      simp only [leWord, List.getD_cons_succ]
      rw [← ih i (by omega) (by omega)]
      apply BitVec.eq_of_getLsbD_eq
      intro j hj
      have h1 : 8 * (i + 1) + j < 32 := by omega
      have h2 : ¬ 8 * (i + 1) + j < 8 := by omega
      have h3 : 8 * (i + 1) + j - 8 = 8 * i + j := by omega
      have h4 : BitVec.getLsbD b (8 * (i + 1) + j) = false := BitVec.getLsbD_of_ge _ _ (by omega)
      rw [BitVec.getLsbD_extractLsb', BitVec.getLsbD_extractLsb', BitVec.getLsbD_or, BitVec.getLsbD_shiftLeft]
      simp [hj, h1, h2, h3, h4]

/-- Byte i of an aperture read (R44, R47, R53). -/
theorem readAperture_byte (cap : Nat) (byte : Nat → Byte) (off n i : Nat) (hn : n ≤ 4) (hi : i < 4) :
    (readAperture cap byte off n).extractLsb' (8 * i) 8
      = if i < n ∧ off + i < cap then byte (off + i) else 0 := by
  unfold readAperture
  rw [leWord_byte _ _ (by simpa using hn) hi]
  by_cases h : i < n
  · simp [List.getD_eq_getElem?_getD, h]
  · simp [List.getD_eq_getElem?_getD, h]

theorem Width.bytes_le (w : Width) : w.bytes ≤ 4 := by cases w <;> decide

end Sys2Proof.Machine
end

