-- ==== Sys2Proof/Laws/Memory.lean ====
section
/-! SUPPORT. The laws of the byte memories: a read after a write, and the canonical form and the capacity kept. -/

namespace Sys2Proof.Machine.Memory

theorem lookup_none_of_all_lt {m : Memory} {a : Nat} (h : ∀ c ∈ m, a < c.1) : m.lookup a = none := by
  induction m with
  | nil => rfl
  | cons c m ih =>
    obtain ⟨k, b⟩ := c
    have hk : a < k := h (k, b) (by simp)
    simp only [lookup, if_neg (by omega : ¬ k = a)]
    exact ih fun c hc => h c (by simp [hc])

theorem wf_cons {blank : Option Byte} {k : Nat} {b : Byte} {m : Memory} :
    wf blank ((k, b) :: m) = true ↔ blank ≠ some b ∧ (∀ c ∈ m, k < c.1) ∧ wf blank m = true := by
  simp [wf, and_assoc]

/-- A cell's byte as read with the memory's blank value behind it. -/
theorem lookup_set_same {blank : Option Byte} {m : Memory} (h : wf blank m = true) (a : Nat) (b : Byte) :
    (m.set blank a b).lookup a = if blank = some b then none else some b := by
  induction m with
  | nil => by_cases hb : blank = some b <;> simp [set, lookup, hb]
  | cons c m ih =>
    obtain ⟨k, v⟩ := c
    obtain ⟨-, hk, hm⟩ := wf_cons.mp h
    unfold set
    by_cases h1 : a < k
    · have : lookup ((k, v) :: m) a = none := lookup_none_of_all_lt fun c hc => by
        rcases List.mem_cons.mp hc with rfl | hc
        · exact h1
        · exact lt_trans h1 (hk c hc)
      by_cases hb : blank = some b <;> simp [h1, hb, this, lookup]
    · by_cases h2 : a = k
      · subst h2
        by_cases hb : blank = some b
        · simp [hb, lookup_none_of_all_lt hk]
        · simp [hb, lookup]
      · simp [h1, h2, lookup, Ne.symm h2, ih hm]

theorem lookup_set_other (blank : Option Byte) (m : Memory) {a a' : Nat} (b : Byte) (h : a' ≠ a) :
    (m.set blank a b).lookup a' = m.lookup a' := by
  induction m with
  | nil => by_cases hb : blank = some b <;> simp [set, lookup, hb, Ne.symm h]
  | cons c m ih =>
    obtain ⟨k, v⟩ := c
    unfold set
    by_cases h1 : a < k
    · by_cases hb : blank = some b <;> simp [h1, hb, lookup, Ne.symm h]
    · by_cases h2 : a = k
      · subst h2
        by_cases hb : blank = some b <;> simp [hb, lookup, Ne.symm h]
      · simp [h1, h2, lookup, ih]

theorem mem_set {blank : Option Byte} {m : Memory} {a : Nat} {b : Byte} {c : Host.Cell} (h : c ∈ m.set blank a b) :
    c ∈ m ∨ c.1 = a := by
  induction m with
  | nil =>
    by_cases hb : blank = some b
    · simp [set, hb] at h
    · simp only [set, hb, if_false, List.mem_singleton] at h
      exact .inr (by rw [h])
  | cons d m ih =>
    obtain ⟨k, v⟩ := d
    unfold set at h
    by_cases h1 : a < k
    · by_cases hb : blank = some b
      · simp only [h1, hb, if_true] at h; exact .inl h
      · simp only [h1, hb, if_true, if_false, List.mem_cons] at h
        rcases h with h | h
        · exact .inr (by rw [h])
        · exact .inl (by simpa using h)
    · by_cases h2 : a = k
      · by_cases hb : blank = some b
        · simp only [h2, hb, if_true] at h
          exact .inl (by simp_all)
        · subst h2
          simp only [hb, if_true, if_false, lt_self_iff_false, List.mem_cons] at h
          rcases h with h | h
          · exact .inr (by rw [h])
          · exact .inl (by simp [h])
      · simp only [h1, h2, if_false, List.mem_cons] at h
        rcases h with h | h
        · exact .inl (by simp [h])
        · exact (ih h).imp (fun h => by simp [h]) id

/-- A write keeps the canonical form. -/
theorem set_wf {blank : Option Byte} {m : Memory} (h : wf blank m = true) (a : Nat) (b : Byte) :
    wf blank (m.set blank a b) = true := by
  induction m with
  | nil => by_cases hb : blank = some b <;> simp [set, wf, hb]
  | cons c m ih =>
    obtain ⟨k, v⟩ := c
    obtain ⟨hv, hk, hm⟩ := wf_cons.mp h
    unfold set
    by_cases h1 : a < k
    · by_cases hb : blank = some b
      · simp only [h1, hb, if_true]; rw [← hb]; exact h
      · simp only [h1, hb, if_true, if_false]
        refine wf_cons.mpr ⟨hb, fun c hc => ?_, h⟩
        rcases List.mem_cons.mp hc with rfl | hc
        · exact h1
        · exact lt_trans h1 (hk c hc)
    · by_cases h2 : a = k
      · subst h2
        by_cases hb : blank = some b
        · simp only [hb, lt_self_iff_false, if_true, if_false]; rw [← hb]; exact hm
        · simp only [hb, lt_self_iff_false, if_true, if_false]
          exact wf_cons.mpr ⟨hb, hk, hm⟩
      · simp only [h1, h2, if_false]
        refine wf_cons.mpr ⟨hv, fun c hc => ?_, ih hm⟩
        rcases mem_set hc with hc | hc
        · exact hk c hc
        · omega

theorem below_iff {cap : Nat} {m : Memory} : below cap m = true ↔ ∀ c ∈ m, c.1 < cap := by
  simp [below]

/-- A run of writes keeps the canonical form. -/
theorem setAll_wf {blank : Option Byte} (cap : Nat) (cells : List Host.Cell) {m : Memory} (h : wf blank m = true) :
    wf blank (m.setAll blank cap cells) = true := by
  unfold setAll
  induction cells generalizing m with
  | nil => exact h
  | cons c cs ih =>
    refine ih ?_
    dsimp only
    split
    · exact set_wf h _ _
    · exact h

/-- A run of writes keeps the capacity. -/
theorem setAll_below (blank : Option Byte) {cap : Nat} (cells : List Host.Cell) {m : Memory} (h : below cap m = true) :
    below cap (m.setAll blank cap cells) = true := by
  unfold setAll
  induction cells generalizing m with
  | nil => exact h
  | cons c cs ih =>
    refine ih ?_
    dsimp only
    split
    · rename_i hc
      refine below_iff.mpr fun d hd => ?_
      rcases mem_set hd with hd | hd
      · exact below_iff.mp h d hd
      · omega
    · exact h

/-- A run of writes leaves an offset it does not name. -/
theorem lookup_setAll_other (blank : Option Byte) (cap : Nat) (cells : List Host.Cell) (m : Memory) {a : Nat}
    (h : ∀ c ∈ cells, c.1 ≠ a) : (m.setAll blank cap cells).lookup a = m.lookup a := by
  unfold setAll
  induction cells generalizing m with
  | nil => rfl
  | cons c cs ih =>
    rw [List.foldl_cons, ih _ fun d hd => h d (by simp [hd])]
    split
    · exact lookup_set_other _ _ _ (Ne.symm (h c (by simp)))
    · rfl

/-- A run of writes changes nothing at or past the capacity. -/
theorem lookup_setAll_past (blank : Option Byte) {cap : Nat} (cells : List Host.Cell) (m : Memory) {a : Nat}
    (h : cap ≤ a) : (m.setAll blank cap cells).lookup a = m.lookup a := by
  unfold setAll
  induction cells generalizing m with
  | nil => rfl
  | cons c cells ih =>
    rw [List.foldl_cons, ih]
    split
    · exact lookup_set_other blank m c.2 (by omega)
    · rfl

/-- A run of writes that name each offset once stores each of its bytes. -/
theorem lookup_setAll_mem {blank : Option Byte} {cap : Nat} {cells : List Host.Cell} {m : Memory}
    (h : wf blank m = true) (hn : (cells.map (·.1)).Nodup) {c : Host.Cell} (hc : c ∈ cells) (hcap : c.1 < cap) :
    (m.setAll blank cap cells).lookup c.1 = if blank = some c.2 then none else some c.2 := by
  induction cells generalizing m with
  | nil => simp at hc
  | cons d ds ih =>
    have hn' : d.1 ∉ ds.map (·.1) ∧ (ds.map (·.1)).Nodup := by simpa using hn
    have step : m.setAll blank cap (d :: ds) = (if d.1 < cap then m.set blank d.1 d.2 else m).setAll blank cap ds := rfl
    rw [step]
    rcases List.mem_cons.mp hc with rfl | hc
    · rw [lookup_setAll_other _ _ _ _ (fun e he heq => hn'.1 (List.mem_map.mpr ⟨e, he, heq⟩)), if_pos hcap]
      exact lookup_set_same h _ _
    · refine ih ?_ hn'.2 hc
      split
      · exact set_wf h _ _
      · exact h

theorem lookup_filter_of_true {p : Host.Cell → Bool} (m : Memory) {a : Nat} (h : ∀ b, p (a, b) = true) :
    lookup (m.filter p) a = m.lookup a := by
  induction m with
  | nil => rfl
  | cons c m ih =>
    obtain ⟨k, b⟩ := c
    by_cases hk : k = a
    · subst hk; simp [h b, lookup]
    · by_cases hp : p (k, b) = true <;> simp [hp, lookup, hk, ih]

theorem lookup_filter_of_false {p : Host.Cell → Bool} (m : Memory) {a : Nat} (h : ∀ b, p (a, b) = false) :
    lookup (m.filter p) a = none := by
  induction m with
  | nil => rfl
  | cons c m ih =>
    obtain ⟨k, b⟩ := c
    by_cases hk : k = a
    · subst hk; simp [h b, ih]
    · by_cases hp : p (k, b) = true <;> simp [hp, lookup, hk, ih]

theorem lookup_append (m n : Memory) (a : Nat) : lookup (m ++ n) a = (m.lookup a).or (n.lookup a) := by
  induction m with
  | nil => simp [lookup]
  | cons c m ih =>
    obtain ⟨k, b⟩ := c
    by_cases hk : k = a <;> simp [lookup, hk, ih]

theorem filter_wf {blank : Option Byte} (p : Host.Cell → Bool) {m : Memory} (h : wf blank m = true) :
    wf blank (m.filter p) = true := by
  induction m with
  | nil => exact h
  | cons c m ih =>
    obtain ⟨k, b⟩ := c
    obtain ⟨hb, hk, hm⟩ := wf_cons.mp h
    by_cases hp : p (k, b) = true
    · rw [List.filter_cons_of_pos hp]
      exact wf_cons.mpr ⟨hb, fun c hc => hk c (List.mem_of_mem_filter hc), ih hm⟩
    · rw [List.filter_cons_of_neg hp]; exact ih hm

theorem append_wf {blank : Option Byte} {m n : Memory} (hm : wf blank m = true) (hn : wf blank n = true)
    (h : ∀ c ∈ m, ∀ d ∈ n, c.1 < d.1) : wf blank (m ++ n) = true := by
  induction m with
  | nil => exact hn
  | cons c m ih =>
    obtain ⟨k, b⟩ := c
    obtain ⟨hb, hk, hm'⟩ := wf_cons.mp hm
    refine wf_cons.mpr ⟨hb, fun d hd => ?_, ih hm' fun c hc d hd => h c (by simp [hc]) d hd⟩
    rcases List.mem_append.mp hd with hd | hd
    · exact hk d hd
    · exact h (k, b) (by simp) d hd

end Sys2Proof.Machine.Memory
end

