-- ==== Sys2Proof/Laws/Operands.lean ====
section
/-! SUPPORT. The laws of the operands: how long a source's bytes are, and what a byte of a region, of a plane and of a
list of chunks is. -/

namespace Sys2Proof.Machine

/-! ### Lists laid out in rows -/

theorem length_rows {α : Type} (f : Nat → Nat → α) (h w : Nat) :
    ((List.range h).flatMap fun r => (List.range w).map fun c => f r c).length = w * h := by
  induction h with
  | zero => rfl
  | succ h ih => simp [List.range_succ, List.flatMap_append, ih]; ring

/-- Element (r, c) of h rows of w elements stands at r × w + c. -/
theorem getElem?_rows {α : Type} (f : Nat → Nat → α) {h w r c : Nat} (hr : r < h) (hc : c < w) :
    ((List.range h).flatMap fun r => (List.range w).map fun c => f r c)[r * w + c]? = some (f r c) := by
  induction h with
  | zero => omega
  | succ h ih =>
    rw [List.range_succ, List.flatMap_append]
    have hl := length_rows f h w
    by_cases hrh : r < h
    · rw [List.getElem?_append_left, ih hrh]
      rw [hl]
      calc r * w + c < r * w + w := by omega
        _ = (r + 1) * w := by ring
        _ ≤ h * w := Nat.mul_le_mul_right _ (by omega)
        _ = w * h := Nat.mul_comm _ _
    · have : r = h := by omega
      subst this
      rw [List.getElem?_append_right (by rw [hl]; rw [Nat.mul_comm]; omega), hl]
      have : r * w + c - w * r = c := by rw [Nat.mul_comm]; omega
      rw [this]
      simp [hc]

/-! ### Sources -/

theorem length_region1 (s : State) (r : Rect) : (region1 s r).length = panelRow r * r.wh := length_rows _ _ _

theorem length_plane (k : Nat) (s : State) (r : Rect) : (plane k s r).length = panelRow r * r.wh := length_rows _ _ _

theorem length_readNew (s : State) (a n : Nat) : (s.readNew a n).length = n := by simp [State.readNew]

theorem length_readOld (s : State) (a n : Nat) : (s.readOld a n).length = n := by simp [State.readOld]

/-- A source is as long as its length says. -/
theorem Source.length_bytes (src : Source) (s : State) : (src.bytes s).length = src.length := by
  cases src <;> simp [Source.bytes, Source.length, length_region1, length_plane, length_readOld]

/-- A region, a plane and the old frame depend on the parameters and on their memory only. -/
theorem region1_congr {s t : State} (hc : t.cfg = s.cfg) (hn : t.new = s.new) (r : Rect) : region1 t r = region1 s r := by
  unfold region1 State.newByte; rw [hc, hn]

theorem plane_congr {s t : State} (hc : t.cfg = s.cfg) (hn : t.new = s.new) (k : Nat) (r : Rect) :
    plane k t r = plane k s r := by
  unfold plane
  simp only [show planeBit k t r = planeBit k s r from by
    funext row col j; unfold planeBit State.pixel2 State.newByte; rw [hc, hn]]

theorem readOld_congr {s t : State} (ho : t.old = s.old) (a n : Nat) : t.readOld a n = s.readOld a n := by
  unfold State.readOld State.oldByte; rw [ho]

/-- The bytes of a source depend on the parameters, NEW and OLD only. -/
theorem Source.bytes_congr {s t : State} (hc : t.cfg = s.cfg) (hn : t.new = s.new) (ho : t.old = s.old)
    (src : Source) : src.bytes t = src.bytes s := by
  cases src with
  | lit bs => rfl
  | region r => exact region1_congr hc hn r
  | planeA r => exact plane_congr hc hn 1 r
  | planeB r => exact plane_congr hc hn 0 r
  | oldFrame n => exact readOld_congr ho 0 n

theorem region1_getD (s : State) (r : Rect) {row col : Nat} (hr : row < r.wh) (hc : col < panelRow r) :
    (region1 s r).getD (row * panelRow r + col) 0 = s.newByte ((r.y0 + row) * s.cfg.bpr1 + r.x0 / 8 + col) := by
  rw [List.getD_eq_getElem?_getD, region1, getElem?_rows _ hr hc]; rfl

theorem plane_getD (k : Nat) (s : State) (r : Rect) {row col : Nat} (hr : row < r.wh) (hc : col < panelRow r) :
    (plane k s r).getD (row * panelRow r + col) 0 = packByte (planeBit k s r row col) := by
  rw [List.getD_eq_getElem?_getD, plane, getElem?_rows _ hr hc]; rfl

/-- Bit 7 − j of a packed byte is its j-th bit. -/
theorem packByte_getLsbD (f : Nat → Bool) {j : Nat} (hj : j < 8) : (packByte f).getLsbD (7 - j) = f j := by
  interval_cases j <;> simp only [packByte, BitVec.getLsbD_append] <;> simp

/-- `Region1` of the full frame is the frame (R118). -/
theorem region1_fullRect (s : State) : region1 s (fullRect s.cfg) = s.readNew 0 s.cfg.frame1 := by
  apply List.ext_getElem?
  intro n
  by_cases hn : n < s.cfg.frame1
  · have hw : panelRow (fullRect s.cfg) = s.cfg.bpr1 := rfl
    have hpos : 0 < s.cfg.bpr1 := by
      rcases Nat.eq_zero_or_pos s.cfg.bpr1 with h | h
      · simp [Config.frame1, h] at hn
      · exact h
    have hrow : n / s.cfg.bpr1 < (fullRect s.cfg).wh := by
      rw [Nat.div_lt_iff_lt_mul hpos, Nat.mul_comm]; exact hn
    have hcol : n % s.cfg.bpr1 < panelRow (fullRect s.cfg) := Nat.mod_lt _ hpos
    have := getElem?_rows (fun row col => s.newByte (((fullRect s.cfg).y0 + row) * s.cfg.bpr1 +
      (fullRect s.cfg).x0 / 8 + col)) hrow hcol
    have he : n / s.cfg.bpr1 * panelRow (fullRect s.cfg) + n % s.cfg.bpr1 = n := by
      rw [hw, Nat.mul_comm]; exact Nat.div_add_mod _ _
    rw [he] at this
    rw [region1, this, State.readNew]
    simp only [List.getElem?_map, List.getElem?_range hn, Option.map_some]
    congr 2
    have : (fullRect s.cfg).y0 = 0 := rfl
    have : (fullRect s.cfg).x0 = 0 := rfl
    rw [hw] at he
    simp_all
  · rw [List.getElem?_eq_none, List.getElem?_eq_none]
    · rw [length_readNew]; omega
    · rw [length_region1]; exact Nat.le_of_not_lt hn

/-! ### Chunks (R76) -/

theorem lt_ceilDiv_iff {a b k : Nat} (hb : 1 ≤ b) : k < ceilDiv a b ↔ k * b < a := by
  rw [ceilDiv, ← Nat.succ_le_iff, Nat.le_div_iff_mul_le hb, Nat.succ_mul]
  omega

end Sys2Proof.Machine
end

