-- ==== Sys2Proof/Laws/Sequencer.lean ====
section
/-! SUPPORT. What the sequencer can do: the shape of every plan, what a primitive, a plan and an operation's pseudocode
leave, and that an operation ends in its end step or in the abort of its first error. -/

namespace Sys2Proof.Machine

/-! ### The end state of a procedure -/

/-- The state a procedure leaves, whether it returns or raises. -/
def Res.state : Res → State
  | .ok s => s
  | .raised _ s => s

@[simp] theorem Res.state_ok (s : State) : (Res.ok s).state = s := rfl
@[simp] theorem Res.state_raised (c : ErrCode) (s : State) : (Res.raised c s).state = s := rfl
@[simp] theorem Res.orAbort_ok (s : State) : (Res.ok s).orAbort = s := rfl
@[simp] theorem Res.orAbort_raised (c : ErrCode) (s : State) : (Res.raised c s).orAbort = abort c s := rfl

/-- A relation that every primitive of a list keeps, the list keeps. -/
theorem runPrims_rel {R : State → State → Prop} (refl : ∀ s, R s s) (trans : ∀ {a b c}, R a b → R b c → R a c)
    {ps : List Prim} (h : ∀ p ∈ ps, ∀ s, R s (runPrim p s).state) (s : State) : R s (runPrims ps s).state := by
  induction ps generalizing s with
  | nil => exact refl s
  | cons p ps ih =>
    have hp := h p (by simp) s
    rw [runPrims_cons]
    cases hr : runPrim p s with
    | ok t =>
      rw [hr] at hp
      exact trans hp (ih (fun q hq => h q (by simp [hq])) t)
    | raised c t => rw [hr] at hp; exact hp

/-- A busy-wait changes bus state only, and raises nothing but BUSY_TIMEOUT. -/
theorem waitIdle_frame (T fuel k : Nat) (s : State) :
    busOnly s (waitIdle T fuel k s).state ∧ (waitIdle T fuel k s).state.pins = s.pins
      ∧ (waitIdle T fuel k s).state.touched = s.touched
      ∧ ∀ c t, waitIdle T fuel k s = .raised c t → c = .busyTimeout := by
  have h1 : busOnly s (sampleBusy s) := rfl
  have h2 : ∀ ms, busOnly s (delay ms (sampleBusy s)) := fun _ => rfl
  induction fuel generalizing k s with
  | zero =>
    rw [waitIdle.eq_def]
    by_cases hb : s.busyLevel ≠ s.cfg.busyActive
    · simp [hb, h2]
    · by_cases hT : T ≤ k * s.cfg.pollMs <;> simp only [hb, hT, if_true, if_false] <;>
        exact ⟨h1, rfl, rfl, fun c t h => by cases h; rfl⟩
  | succ fuel ih =>
    rw [waitIdle.eq_def]
    by_cases hb : s.busyLevel ≠ s.cfg.busyActive
    · simp [hb, h2]
    · by_cases hT : T ≤ k * s.cfg.pollMs
      · simp only [hb, hT, if_true, if_false]
        exact ⟨h1, rfl, rfl, fun c t h => by cases h; rfl⟩
      · obtain ⟨ha, hp, ht, hc⟩ := ih (k + 1) (delay s.cfg.pollMs (sampleBusy s)) rfl (fun _ => rfl)
        simp only [hb, hT, if_false]
        exact ⟨(h2 _).trans ha, hp, ht, hc⟩

/-- A primitive changes nothing but what `seqOnly` names. -/
theorem runPrim_seqOnly (p : Prim) (s : State) : seqOnly s (runPrim p s).state := by
  cases p with
  | xfer src lo hi =>
    unfold runPrim
    by_cases h : s.xferOk = true <;> simp [h, seqOnly, spiXfer, setCs]
  | poll k =>
    have := (waitIdle_frame s.latch.timeout.toNat (s.maxPolls - k) k s).1
    unfold busOnly at this
    unfold seqOnly runPrim
    rw [this]
  | _ => rfl

theorem seqOnly.refl (s : State) : seqOnly s s := rfl

theorem seqOnly.trans {s t u : State} (h : seqOnly s t) (h' : seqOnly t u) : seqOnly s u := by
  unfold seqOnly at *; rw [h', h]

theorem busOnly.seqOnly {s t : State} (h : busOnly s t) : Machine.seqOnly s t := by
  unfold busOnly at h; unfold Machine.seqOnly; rw [h]

theorem runPrims_seqOnly (ps : List Prim) (s : State) : seqOnly s (runPrims ps s).state :=
  runPrims_rel seqOnly.refl seqOnly.trans (fun p _ s => runPrim_seqOnly p s) s

section
variable {s t : State} (h : seqOnly s t)
include h
theorem seqOnly.cfg : t.cfg = s.cfg := by rw [h]
theorem seqOnly.regs : t.regs = s.regs := by rw [h]
theorem seqOnly.state : t.state = s.state := by rw [h]
theorem seqOnly.run : t.run = s.run := by rw [h]
theorem seqOnly.degraded : t.degraded = s.degraded := by rw [h]
theorem seqOnly.err : t.err = s.err := by rw [h]
theorem seqOnly.overrun : t.overrun = s.overrun := by rw [h]
theorem seqOnly.fmt : t.fmt = s.fmt := by rw [h]
theorem seqOnly.sessMode : t.sessMode = s.sessMode := by rw [h]
theorem seqOnly.latch : t.latch = s.latch := by rw [h]
theorem seqOnly.todo : t.todo = s.todo := by rw [h]
theorem seqOnly.stage : t.stage = s.stage := by rw [h]
theorem seqOnly.schedIn : t.schedIn = s.schedIn := by rw [h]
theorem seqOnly.hostq : t.hostq = s.hostq := by rw [h]
theorem seqOnly.reads : t.reads = s.reads := by rw [h]
theorem seqOnly.rect : t.rect = s.rect := by rw [h]; rfl
end

section
variable {s t : State} (h : busOnly s t)
include h
theorem busOnly.new : t.new = s.new := by rw [h]
theorem busOnly.old : t.old = s.old := by rw [h]
theorem busOnly.lutValid : t.lutValid = s.lutValid := by rw [h]
theorem busOnly.lutMode : t.lutMode = s.lutMode := by rw [h]
theorem busOnly.rst : t.pins.rst = s.pins.rst := by rw [h]
end

/-! ### Bus primitives -/

/-- The primitives of command frames, data frames and busy-waits. -/
def Prim.isBus : Prim → Bool
  | .setDc _ => true
  | .csAssert => true
  | .csDeassert => true
  | .xfer _ _ _ => true
  | .delay _ => true
  | .poll _ => true
  | .setRst _ => false
  | .merge => false
  | .copyForward => false
  | .lutClear => false
  | .lutSet _ => false
  | .raiseTransport => false

/-- A bus primitive changes bus state only, and raises nothing but BUSY_TIMEOUT or TRANSPORT_FAILURE. -/
theorem runPrim_bus {p : Prim} (h : p.isBus = true) (s : State) :
    busOnly s (runPrim p s).state ∧ (∀ c t, runPrim p s = .raised c t → c = .busyTimeout ∨ c = .transportFailure)
      ∧ (s.touched = true → (runPrim p s).state.touched = true) := by
  cases p with
  | xfer src lo hi =>
    unfold runPrim
    by_cases hx : s.xferOk = true
    · simp [hx, busOnly, spiXfer]
    · simp only [hx]
      exact ⟨rfl, fun c t h => by cases h; exact .inr rfl, fun _ => rfl⟩
  | poll k =>
    obtain ⟨h1, -, h2, h3⟩ := waitIdle_frame s.latch.timeout.toNat (s.maxPolls - k) k s
    exact ⟨h1, fun c t h => .inl (h3 c t h), fun ht => by rw [← ht]; exact h2⟩
  | setDc v => exact ⟨rfl, fun c t h => by simp [runPrim] at h, id⟩
  | csAssert => exact ⟨rfl, fun c t h => by simp [runPrim] at h, id⟩
  | csDeassert => exact ⟨rfl, fun c t h => by simp [runPrim] at h, id⟩
  | delay ms => exact ⟨rfl, fun c t h => by simp [runPrim] at h, id⟩
  | setRst v => simp [Prim.isBus] at h
  | merge => simp [Prim.isBus] at h
  | copyForward => simp [Prim.isBus] at h
  | lutClear => simp [Prim.isBus] at h
  | lutSet m => simp [Prim.isBus] at h
  | raiseTransport => simp [Prim.isBus] at h

theorem runPrims_bus {ps : List Prim} (h : ∀ p ∈ ps, p.isBus = true) (s : State) :
    busOnly s (runPrims ps s).state
      ∧ (∀ c t, runPrims ps s = .raised c t → c = .busyTimeout ∨ c = .transportFailure)
      ∧ (s.touched = true → (runPrims ps s).state.touched = true) := by
  induction ps generalizing s with
  | nil => exact ⟨rfl, fun c t h => by simp [runPrims] at h, id⟩
  | cons p ps ih =>
    obtain ⟨h1, h2, h3⟩ := runPrim_bus (h p (by simp)) s
    rw [runPrims_cons]
    cases hr : runPrim p s with
    | ok t =>
      rw [hr] at h1 h3
      obtain ⟨i1, i2, i3⟩ := ih (fun q hq => h q (by simp [hq])) t
      exact ⟨h1.trans i1, i2, fun ht => i3 (h3 ht)⟩
    | raised c t => rw [hr] at h1 h3; exact ⟨h1, fun c' t' h' => h2 c' t' (hr.trans h'), h3⟩

theorem commandPlan_isBus (c : Config) (op : Byte) (src : Source) (wait : Bool) :
    ∀ p ∈ commandPlan c op src wait, p.isBus = true := by
  intro p hp
  have hd : ∀ p ∈ dataFrame c src, p.isBus = true := by
    intro p hp
    unfold dataFrame at hp
    split at hp
    · simp at hp
    · simp only [List.cons_append, List.mem_cons, List.mem_append, List.mem_map, List.not_mem_nil, or_false] at hp
      rcases hp with rfl | rfl | ⟨q, -, rfl⟩ | rfl <;> rfl
  simp only [commandPlan, List.mem_append] at hp
  rcases hp with (hp | hp) | hp
  · simp only [commandFrame, List.mem_cons, List.not_mem_nil, or_false] at hp
    rcases hp with rfl | rfl | rfl | rfl | rfl <;> rfl
  · exact hd p hp
  · cases wait <;> simp [busyWait] at hp
    subst hp; rfl

/-- A panel command has touched the bus once it is over (R74). -/
theorem commandPlan_touched (c : Config) (op : Byte) (src : Source) (wait : Bool) (s : State) :
    (runPrims (commandPlan c op src wait) s).state.touched = true := by
  have hcf : (runPrims (commandFrame c op) s).state.touched = true := by
    by_cases h : (setCs true (setDc false s)).xferOk = true <;> simp [commandFrame, runPrims, runPrim, h]
  have hbus := fun t => (runPrims_bus (ps := dataFrame c src ++ busyWait wait) (fun p hp =>
    commandPlan_isBus c op src wait p (by simp only [commandPlan, List.append_assoc, List.mem_append] at hp ⊢
                                          exact .inr hp)) t).2.2
  rw [commandPlan, List.append_assoc, runPrims_append]
  cases hr : runPrims (commandFrame c op) s with
  | ok t => rw [hr] at hcf; exact hbus t hcf
  | raised e t => rw [hr] at hcf; exact hcf

/-! ### The shape of every plan -/

/-- The plan of a panel command is a command frame, a data frame and a wait (R74, R75, R82). -/
theorem planOf_eq {i : Instr} {s : State} {op : Byte} (h : panelByte s.cfg i = some op) :
    ∃ src wait, planOf i s = commandPlan s.cfg op src wait := by
  cases i <;> simp only [panelByte, Option.some.injEq, reduceCtorEq] at h <;> subst h <;> exact ⟨_, _, rfl⟩

/-- The meaning of a panel command is its plan carried out. -/
theorem exec_panel {i : Instr} {s : State} {op : Byte} (h : panelByte s.cfg i = some op) :
    exec i s = .next (perform (planOf i s) s) := by
  cases i <;> simp only [panelByte, reduceCtorEq] at h <;> rfl

theorem panelByte_of_decodeFrame {c : Config} {f : Frame} {i : Instr} (h : decodeFrame c f = .ok i) :
    panelByte c i = some f.op := by
  obtain ⟨op, args⟩ := f
  cases args with
  | none =>
    cases hv : c.variant with
    | fw =>
      simp only [decodeFrame, hv] at h
      unfold decodeFwRule at h
      repeat' split at h
      all_goals first | (cases h; simp_all [panelByte]) | cases h
    | nf =>
      simp only [decodeFrame, hv] at h
      unfold decodeNfRule at h
      repeat' split at h
      all_goals first | (cases h; simp_all [panelByte]) | cases h
  | some a =>
    simp only [decodeFrame] at h
    split at h
    · cases hv : c.variant with
      | fw =>
        simp only [hv] at h
        unfold decodeFwTable at h
        repeat' split at h
        all_goals first | (cases h; simp_all [panelByte]) | cases h
      | nf =>
        simp only [hv] at h
        unfold decodeNfTable at h
        repeat' split at h
        all_goals first | (cases h; simp_all [panelByte]) | cases h
    · cases h

/-- Every frame's plan is a command frame of its byte, a data frame and a wait. -/
theorem framePlan_eq (f : Frame) (s : State) :
    ∃ src wait, framePlan f s = commandPlan s.cfg f.op src wait := by
  unfold framePlan
  cases h : decodeFrame s.cfg f with
  | ok i => exact planOf_eq (panelByte_of_decodeFrame h)
  | error e =>
    simp only [rawPlan]
    cases f.args with
    | none => exact ⟨_, _, rfl⟩
    | some a => exact ⟨_, _, rfl⟩

theorem framePlan_isBus (f : Frame) (s : State) : ∀ p ∈ framePlan f s, p.isBus = true := by
  obtain ⟨src, wait, h⟩ := framePlan_eq f s
  rw [h]; exact commandPlan_isBus _ _ _ _

/-- What a panel command sends depends on the parameters, the latched operands and the format only: its data are read
at their transfers (R50). -/
theorem framePlan_seqOnly {s t : State} (h : seqOnly s t) (f : Frame) : framePlan f t = framePlan f s := by
  unfold framePlan
  rw [h]
  show (match decodeFrame s.cfg f with | .ok i => planOf i _ | .error _ => rawPlan f _) = _
  cases decodeFrame s.cfg f with
  | error e => rfl
  | ok i => cases i <;> rfl

/-- A table entry's frame carries the entry's data, and waits if the entry asks, whatever its byte (R68, R69, R98). -/
theorem framePlan_table (op : Byte) (data : List Byte) (wait : Bool) (s : State) :
    framePlan (tableFrame op data wait) s = commandPlan s.cfg op (.lit data) wait := by
  unfold framePlan
  cases h : decodeFrame s.cfg (tableFrame op data wait) with
  | error e => rfl
  | ok i =>
    simp only [decodeFrame, tableFrame] at h
    split at h
    · cases hv : s.cfg.variant with
      | fw =>
        simp only [hv] at h
        unfold decodeFwTable at h
        repeat' split at h
        all_goals first | (cases h; simp_all; rfl) | cases h
      | nf =>
        simp only [hv] at h
        unfold decodeNfTable at h
        repeat' split at h
        all_goals first | (cases h; simp_all; rfl) | cases h
    · cases h

/-! ### An operation's pseudocode -/

/-- The run of an operation's pseudocode to its end or to its first error, short of the end step. -/
def runMicros : List Micro → State → Res
  | [], s => .ok s
  | m :: ms, s => (runPrims (m.expand s) s).bind (runMicros ms)

theorem runMicros_cons (m : Micro) (ms : List Micro) (s : State) :
    runMicros (m :: ms) s = (runPrims (m.expand s) s).bind (runMicros ms) := rfl

theorem runMicros_append (ms ns : List Micro) (s : State) :
    runMicros (ms ++ ns) s = (runMicros ms s).bind (runMicros ns) := by
  induction ms generalizing s with
  | nil => rfl
  | cons m ms ih =>
    rw [List.cons_append, runMicros_cons, runMicros_cons]
    cases runPrims (m.expand s) s with
    | ok t => simp [ih]
    | raised c t => rfl

/-- A run of primitives as pseudocode. -/
theorem runMicros_prims (ps : List Prim) (s : State) : runMicros (ps.map .prim) s = runPrims ps s := by
  induction ps generalizing s with
  | nil => rfl
  | cons p ps ih =>
    rw [List.map_cons, runMicros_cons, runPrims_cons]
    show (runPrims [p] s).bind _ = _
    rw [runPrims_cons]
    cases runPrim p s with
    | ok t => simp [ih, runPrims]
    | raised c t => rfl

/-- A run of pseudocode is the run of the primitives it stands for, as the state before it gives them. -/
theorem runMicros_expand (ms : List Micro) (s : State) :
    runMicros ms s = runPrims (ms.flatMap (Micro.expand s)) s := by
  have key : ∀ (ms : List Micro) (t : State), seqOnly s t →
      runMicros ms t = runPrims (ms.flatMap (Micro.expand s)) t := by
    intro ms
    induction ms with
    | nil => intro t _; rfl
    | cons m ms ih =>
      intro t ht
      have he : m.expand t = m.expand s := by
        cases m with
        | frame f => exact framePlan_seqOnly ht f
        | prim p => rfl
      rw [runMicros_cons, List.flatMap_cons, runPrims_append, he]
      have hs := runPrims_seqOnly (m.expand s) t
      cases hr : runPrims (m.expand s) t with
      | ok u => rw [hr] at hs; exact ih u (ht.trans hs)
      | raised c u => rfl
  exact key ms s rfl

/-- The end of an operation, after its pseudocode (R97, R102, R121, R126, R130) or its first error (R164). -/
def Res.toEnd : Res → State
  | .ok s => finish s
  | .raised c s => abort c s

@[simp] theorem Res.toEnd_ok (s : State) : (Res.ok s).toEnd = finish s := rfl
@[simp] theorem Res.toEnd_raised (c : ErrCode) (s : State) : (Res.raised c s).toEnd = abort c s := rfl

theorem runTodo_eq (ms : List Micro) (s : State) : runTodo ms s = (runMicros ms s).toEnd := by
  induction ms generalizing s with
  | nil => rfl
  | cons m ms ih =>
    rw [runTodo, runMicros_cons]
    cases runPrims (m.expand s) s with
    | ok t => simp [ih]
    | raised c t => rfl

/-- A relation that every primitive of every expansion keeps, the pseudocode keeps. -/
theorem runMicros_rel {R : State → State → Prop} (refl : ∀ s, R s s) (trans : ∀ {a b c}, R a b → R b c → R a c)
    {ms : List Micro} (h : ∀ m ∈ ms, ∀ s, ∀ p ∈ m.expand s, ∀ t, R t (runPrim p t).state) (s : State) :
    R s (runMicros ms s).state := by
  induction ms generalizing s with
  | nil => exact refl s
  | cons m ms ih =>
    have hm := runPrims_rel refl trans (h m (by simp) s) s
    rw [runMicros_cons]
    cases hr : runPrims (m.expand s) s with
    | ok t => rw [hr] at hm; exact trans hm (ih (fun n hn => h n (by simp [hn])) t)
    | raised c t => rw [hr] at hm; exact hm

theorem runMicros_seqOnly (ms : List Micro) (s : State) : seqOnly s (runMicros ms s).state :=
  runMicros_rel seqOnly.refl seqOnly.trans (fun _ _ _ p _ t => runPrim_seqOnly p t) s

/-- The primitives of an expansion are bus primitives or the primitive itself. -/
theorem Micro.mem_expand {m : Micro} {s : State} {p : Prim} (h : p ∈ m.expand s) : p.isBus = true ∨ m = .prim p := by
  cases m with
  | frame f => exact .inl (framePlan_isBus f s p h)
  | prim q => simp only [expand, List.mem_singleton] at h; exact .inr (by rw [h])

/-- Pseudocode without a given kind of primitive keeps what only that kind writes. -/
theorem runMicros_new {ms : List Micro} (h : .prim .merge ∉ ms) (s : State) : (runMicros ms s).state.new = s.new := by
  refine runMicros_rel (R := fun s t => t.new = s.new) (fun _ => rfl) (fun h h' => h'.trans h) ?_ s
  intro m hm u p hp t
  rcases Micro.mem_expand hp with hb | rfl
  · exact (runPrim_bus hb t).1.new
  · cases p with
    | merge => exact absurd hm h
    | xfer src lo hi => exact (runPrim_bus rfl t).1.new
    | poll k => exact (runPrim_bus rfl t).1.new
    | _ => rfl

theorem runMicros_old {ms : List Micro} (h : .prim .copyForward ∉ ms) (s : State) :
    (runMicros ms s).state.old = s.old := by
  refine runMicros_rel (R := fun s t => t.old = s.old) (fun _ => rfl) (fun h h' => h'.trans h) ?_ s
  intro m hm u p hp t
  rcases Micro.mem_expand hp with hb | rfl
  · exact (runPrim_bus hb t).1.old
  · cases p with
    | copyForward => exact absurd hm h
    | xfer src lo hi => exact (runPrim_bus rfl t).1.old
    | poll k => exact (runPrim_bus rfl t).1.old
    | _ => rfl

theorem runMicros_rst {ms : List Micro} (h : ∀ v, .prim (.setRst v) ∉ ms) (s : State) :
    (runMicros ms s).state.pins.rst = s.pins.rst := by
  refine runMicros_rel (R := fun s t => t.pins.rst = s.pins.rst) (fun _ => rfl) (fun h h' => h'.trans h) ?_ s
  intro m hm u p hp t
  rcases Micro.mem_expand hp with hb | rfl
  · exact (runPrim_bus hb t).1.rst
  · cases p with
    | setRst v => exact absurd hm (h v)
    | xfer src lo hi => exact (runPrim_bus rfl t).1.rst
    | poll k => exact (runPrim_bus rfl t).1.rst
    | _ => rfl

theorem runMicros_lut {ms : List Micro} (h : .prim .lutClear ∉ ms) (h' : ∀ m, .prim (.lutSet m) ∉ ms) (s : State) :
    (runMicros ms s).state.lutValid = s.lutValid ∧ (runMicros ms s).state.lutMode = s.lutMode := by
  refine runMicros_rel (R := fun s t => t.lutValid = s.lutValid ∧ t.lutMode = s.lutMode) (fun _ => ⟨rfl, rfl⟩)
    (fun h h' => ⟨h'.1.trans h.1, h'.2.trans h.2⟩) ?_ s
  intro m hm u p hp t
  rcases Micro.mem_expand hp with hb | rfl
  · exact ⟨(runPrim_bus hb t).1.lutValid, (runPrim_bus hb t).1.lutMode⟩
  · cases p with
    | lutClear => exact absurd hm h
    | lutSet m => exact absurd hm (h' m)
    | xfer src lo hi => exact ⟨(runPrim_bus rfl t).1.lutValid, (runPrim_bus rfl t).1.lutMode⟩
    | poll k => exact ⟨(runPrim_bus rfl t).1.lutValid, (runPrim_bus rfl t).1.lutMode⟩
    | _ => exact ⟨rfl, rfl⟩

theorem runMicros_touched (ms : List Micro) {s : State} (h : s.touched = true) :
    (runMicros ms s).state.touched = true := by
  refine runMicros_rel (R := fun s t => s.touched = true → t.touched = true) (fun _ => id)
    (fun h h' ht => h' (h ht)) ?_ s h
  intro m hm u p hp t ht
  by_cases hb : p.isBus = true
  · exact (runPrim_bus hb t).2.2 ht
  · cases p <;> first | exact ht | simp [Prim.isBus] at hb

/-- A primitive raises nothing but BUSY_TIMEOUT or TRANSPORT_FAILURE (R78, R82). -/
theorem runPrim_code {p : Prim} {s t : State} {c : ErrCode} (h : runPrim p s = .raised c t) :
    c = .busyTimeout ∨ c = .transportFailure := by
  by_cases hb : p.isBus = true
  · exact (runPrim_bus hb s).2.1 c t h
  · cases p <;> first | (simp [Prim.isBus] at hb; done) | (cases h; done) | (cases h; exact .inr rfl)

/-- Primitives raise nothing but BUSY_TIMEOUT or TRANSPORT_FAILURE. -/
theorem runPrims_code {ps : List Prim} {s t : State} {c : ErrCode} (h : runPrims ps s = .raised c t) :
    c = .busyTimeout ∨ c = .transportFailure := by
  induction ps generalizing s with
  | nil => cases h
  | cons p ps ih =>
    rw [runPrims_cons] at h
    cases hp : runPrim p s with
    | ok u => rw [hp] at h; exact ih h
    | raised e u => rw [hp] at h; cases h; exact runPrim_code hp

/-- Pseudocode raises nothing but BUSY_TIMEOUT or TRANSPORT_FAILURE. -/
theorem runMicros_code {ms : List Micro} {s t : State} {c : ErrCode}
    (hr : runMicros ms s = .raised c t) : c = .busyTimeout ∨ c = .transportFailure := by
  induction ms generalizing s with
  | nil => cases hr
  | cons m ms ih =>
    rw [runMicros_cons] at hr
    cases hm : runPrims (m.expand s) s with
    | ok u => rw [hm] at hr; exact ih hr
    | raised e u => rw [hm] at hr; cases hr; exact runPrims_code hm

/-! ### The end and the abort of an operation -/

/-- The end step changes the state, the error, RUN, what is left, DEGRADED and the tracker only (R97, R102, R121, R126,
R130). -/
theorem finish_frame (s : State) :
    ∃ st d l, finish s = { s with state := st, err := .ok, run := false, todo := [], degraded := d, lutValid := l }
      ∧ endsIn s.latch.op st = true ∧ st.isRunning = false := by
  unfold finish
  cases s.latch.op <;> exact ⟨_, _, _, rfl, rfl, rfl⟩

/-- The abort changes the state, the error, RUN, what is left and DEGRADED only (R164). -/
theorem abort_frame (c : ErrCode) (s : State) :
    ∃ st d, abort c s = { s with state := st, err := c, run := false, todo := [], degraded := d }
      ∧ endsIn s.latch.op st = true ∧ st.isRunning = false := by
  unfold abort
  cases s.latch.op <;> exact ⟨_, _, rfl, rfl, rfl⟩

/-- An operation ends, from the state its pseudocode leaves. -/
theorem toEnd_frame (r : Res) :
    ∃ st e d l, r.toEnd = { r.state with state := st, err := e, run := false, todo := [], degraded := d, lutValid := l }
      ∧ endsIn r.state.latch.op st = true ∧ st.isRunning = false := by
  cases r with
  | ok s => obtain ⟨st, d, l, h, h'⟩ := finish_frame s; exact ⟨st, _, d, l, h, h'⟩
  | raised c s => obtain ⟨st, d, h, h'⟩ := abort_frame c s; exact ⟨st, _, d, _, h, h'⟩

/-- The whole of an accepted operation. -/
theorem complete_eq (s : State) : complete s = (runMicros s.todo { s with todo := [] }).toEnd := runTodo_eq _ _

end Sys2Proof.Machine
end

