-- ==== Sys2Proof/Laws/Procedures.lean ====
section
/-! SUPPORT. What the procedures send when every transfer succeeds and every wait sees idle at once: panel commands,
SetWindow, InstallLut and the entries of a table, as parts of an operation's pseudocode. -/

namespace Sys2Proof.Machine

/-- A source gives the same bytes throughout a bus procedure. -/
theorem Source.bytes_busOnly {s t : State} (h : busOnly s t) (src : Source) : src.bytes t = src.bytes s :=
  Source.bytes_congr h.cfg h.new h.old src

/-! ### Counting draws -/

@[simp] theorem countXfers_nil : countXfers [] = 0 := rfl
@[simp] theorem countSamples_nil : countSamples [] = 0 := rfl

@[simp] theorem countXfers_append (a b : List Event) : countXfers (a ++ b) = countXfers a + countXfers b :=
  List.countP_append

@[simp] theorem countSamples_append (a b : List Event) : countSamples (a ++ b) = countSamples a + countSamples b :=
  List.countP_append

theorem countXfers_delay (ms : Nat) : countXfers (delayEvents ms) = 0 := by
  unfold delayEvents; split <;> rfl

theorem countSamples_delay (ms : Nat) : countSamples (delayEvents ms) = 0 := by
  unfold delayEvents; split <;> rfl

theorem countXfers_xfers (l : List (Nat × Nat)) (f : Nat × Nat → List Byte) :
    countXfers (l.map fun p => Event.xfer (f p)) = l.length := by
  induction l with
  | nil => rfl
  | cons p l ih => rw [List.map_cons, List.length_cons, ← ih]; simp [countXfers]

theorem countSamples_xfers (l : List (Nat × Nat)) (f : Nat × Nat → List Byte) :
    countSamples (l.map fun p => Event.xfer (f p)) = 0 := by
  induction l with
  | nil => rfl
  | cons p l ih => rw [List.map_cons, ← ih]; simp [countSamples]

theorem countXfers_wait (c : Config) : countXfers (wEvents c 0) = 0 := by
  simp only [wEvents, countXfers_append, countXfers_delay]; rfl

theorem countSamples_wait (c : Config) : countSamples (wEvents c 0) = 1 := by
  simp only [wEvents, countSamples_append, countSamples_delay]; rfl

theorem countXfers_command (c : Config) (op : Byte) (bytes : List Byte) (wait : Bool) :
    countXfers (commandEvents c op bytes wait) = commandXfers c bytes.length := by
  have hw : countXfers (if wait then wEvents c 0 else []) = 0 := by
    cases wait <;> simp [countXfers_wait]
  have hc : countXfers (cEvents c op) = 1 := by
    rw [cEvents, countXfers_append, countXfers_delay]; rfl
  have hd : countXfers (dEvents c bytes) = if bytes.length = 0 then 0 else ceilDiv bytes.length c.maxChunk := by
    by_cases hn : bytes = []
    · simp [dEvents, hn]
    · have hlen : bytes.length ≠ 0 := by simpa using hn
      rw [dEvents, if_neg hn, if_neg hlen, countXfers_append, countXfers_append, xferEvents, countXfers_xfers,
        length_chunks]
      simp [countXfers]
  rw [commandEvents, countXfers_append, countXfers_append, hw, hc, hd, commandXfers, Nat.add_zero]

theorem countSamples_command (c : Config) (op : Byte) (bytes : List Byte) (wait : Bool) :
    countSamples (commandEvents c op bytes wait) = if wait then 1 else 0 := by
  have hw : countSamples (if wait then wEvents c 0 else []) = if wait then 1 else 0 := by
    cases wait <;> simp [countSamples_wait]
  have hc : countSamples (cEvents c op) = 0 := by
    rw [cEvents, countSamples_append, countSamples_delay]; rfl
  have hd : countSamples (dEvents c bytes) = 0 := by
    by_cases hn : bytes = []
    · simp [dEvents, hn]
    · rw [dEvents, if_neg hn, countSamples_append, countSamples_append, xferEvents, countSamples_xfers]
      simp [countSamples]
  rw [commandEvents, countSamples_append, countSamples_append, hw, hc, hd]; omega

/-! ### Sending -/

/-- A part of an operation's pseudocode has run from s to t: the events are in the trace, their draws are used up, and
nothing changed but what the sequencer's primitives write. -/
structure Ran (s t : State) (evs : List Event) : Prop where
  frame : seqOnly s t
  trace : t.trace = s.trace ++ evs
  xferIn : t.xferIn = s.xferAfter (countXfers evs)
  busyIn : t.busyIn = s.busyIn.drop (countSamples evs)

theorem Ran.refl (s : State) : Ran s s [] := ⟨rfl, by simp, by simp, rfl⟩

theorem Ran.trans {s t u : State} {a b : List Event} (h : Ran s t a) (h' : Ran t u b) : Ran s u (a ++ b) := by
  refine ⟨h.frame.trans h'.frame, ?_, ?_, ?_⟩
  · rw [h'.trace, h.trace, List.append_assoc]
  · rw [h'.xferIn, State.xferAfter_add h.frame.cfg h.xferIn, countXfers_append]
  · rw [h'.busyIn, h.busyIn, DrawStream.drop_add, countSamples_append]

/-- With the draws that the events need, the pseudocode runs from s without an error and emits them. -/
def Sends (ms : List Micro) (s : State) (evs : List Event) : Prop :=
  s.xfersOk (countXfers evs) → s.idleNext (countSamples evs) → ∃ t, runMicros ms s = .ok t ∧ Ran s t evs

theorem Sends.nil (s : State) : Sends [] s [] := fun _ _ => ⟨s, rfl, Ran.refl s⟩

/-- Pseudocode sends in parts. -/
theorem Sends.append {ms ns : List Micro} {s : State} {a b : List Event} (h : Sends ms s a)
    (h' : ∀ t, runMicros ms s = .ok t → seqOnly s t → Sends ns t b) : Sends (ms ++ ns) s (a ++ b) := by
  intro hx hi
  rw [countXfers_append] at hx
  rw [countSamples_append] at hi
  obtain ⟨t, ht, rt⟩ := h (State.xfersOk_add hx) (State.idleNext_add hi)
  obtain ⟨u, hu, ru⟩ := h' t ht rt.frame (State.xfersOk_after hx rt.frame.cfg rt.xferIn)
    (State.idleNext_after hi rt.frame.cfg rt.busyIn)
  refine ⟨u, ?_, rt.trans ru⟩
  rw [runMicros_append, ht]; exact hu

/-- A primitive that succeeds always and draws nothing. -/
theorem Sends.prim {p : Prim} {s t : State} {evs : List Event} (h : runPrim p s = .ok t) (hx : countXfers evs = 0)
    (hs : countSamples evs = 0) (ht : t.trace = s.trace ++ evs) (hxi : t.xferIn = s.xferIn)
    (hbi : t.busyIn = s.busyIn) : Sends [.prim p] s evs := by
  intro _ _
  refine ⟨t, ?_, ?_, ht, ?_, ?_⟩
  · simp [runMicros, Micro.expand, runPrims, h]
  · have := runPrim_seqOnly p s; rw [h] at this; exact this
  · rw [hx, hxi]; simp
  · rw [hs, hbi]; rfl

/-- A panel command sends its byte, its data, and waits if it does. -/
theorem Sends.frame {f : Frame} {s : State} {src : Source} {wait : Bool} (bytes : List Byte)
    (h : framePlan f s = commandPlan s.cfg f.op src wait) (hb : ∀ t : State, busOnly s t → src.bytes t = bytes) :
    Sends [.frame f] s (commandEvents s.cfg f.op bytes wait) := by
  intro hx hi
  rw [countXfers_command] at hx
  rw [countSamples_command] at hi
  have hl : src.length = bytes.length := by rw [← hb s rfl, Source.length_bytes]
  obtain ⟨t, ht, hs, -, -⟩ := commandPlan_sent f.op src bytes wait hb hl hx hi
  refine ⟨t, ?_, hs.frame.seqOnly, hs.trace, ?_, ?_⟩
  · simp [runMicros, Micro.expand, h, ht]
  · rw [hs.xferIn, countXfers_command]
  · rw [hs.busyIn, countSamples_command]

/-- A panel command whose data does not come from a memory. -/
theorem Sends.lit {f : Frame} {s : State} {bytes : List Byte} {wait : Bool}
    (h : framePlan f s = commandPlan s.cfg f.op (.lit bytes) wait) :
    Sends [.frame f] s (commandEvents s.cfg f.op bytes wait) := Sends.frame bytes h fun _ _ => rfl

/-- `ResetPulse` (R96). -/
theorem Sends.resetPulse (s : State) : Sends ((resetPulse s.cfg).map .prim) s (pulseEvents s.cfg) := by
  intro _ _
  have h : runMicros ((Machine.resetPulse s.cfg).map .prim) s
      = .ok (delay s.cfg.resetHoldMs (setRst true (delay s.cfg.resetHoldMs (setRst false s)))) := by
    rw [runMicros_prims]; rfl
  have hx : countXfers (pulseEvents s.cfg) = 0 := by
    simp only [pulseEvents, countXfers_append, countXfers_delay]; rfl
  have hs : countSamples (pulseEvents s.cfg) = 0 := by
    simp only [pulseEvents, countSamples_append, countSamples_delay]; rfl
  refine ⟨_, h, rfl, ?_, ?_, ?_⟩
  · simp [pulseEvents]
  · rw [hx]; simp
  · rw [hs]; rfl

/-- A `WAIT` entry, idle at its first sample (R82). -/
theorem Sends.wait (s : State) : Sends [.prim (.poll 0)] s (wEvents s.cfg 0) := by
  intro _ hi
  have hx := countXfers_wait s.cfg
  have hs := countSamples_wait s.cfg
  rw [hs] at hi
  obtain ⟨t, ht, hsent, -, -⟩ := poll_sent (s := s) hi
  refine ⟨t, ?_, hsent.frame.seqOnly, hsent.trace, ?_, ?_⟩
  · rw [runMicros_cons, Micro.expand, ht]; rfl
  · rw [hsent.xferIn, hx]
  · rw [hsent.busyIn, hs]

/-- A table's command entry (R98). -/
theorem Sends.table (op : Byte) (data : List Byte) (wait : Bool) (s : State) :
    Sends [.frame (tableFrame op data wait)] s (commandEvents s.cfg op data wait) :=
  Sends.lit (f := tableFrame op data wait) (framePlan_table op data wait s)

/-- `SetWindow` of the operation's rectangle, on FW (R115). -/
theorem Sends.setWindow {s : State} (hv : s.cfg.variant = .fw) : Sends setWindow s (swEvents s.cfg s.rect) := by
  have hp : ∀ t : State, seqOnly s t →
      Sends [.frame (ruleFrame 0x44)] t (commandEvents s.cfg 0x44 (fXWin s.cfg s.rect.x0 s.rect.ww) false)
      ∧ Sends [.frame (ruleFrame 0x45)] t (commandEvents s.cfg 0x45 (fYWin s.cfg s.rect.y0 s.rect.wh) false)
      ∧ Sends [.frame (ruleFrame 0x4E)] t (commandEvents s.cfg 0x4E (fXCur s.cfg s.rect.x0) false)
      ∧ Sends [.frame (ruleFrame 0x4F)] t (commandEvents s.cfg 0x4F (fYCur s.cfg s.rect.y0) false) := by
    intro t ht
    have hvt : t.cfg.variant = .fw := by rw [ht.cfg, hv]
    rw [← ht.cfg, ← ht.rect]
    refine ⟨?_, ?_, ?_, ?_⟩ <;> refine Sends.lit (f := ruleFrame _) ?_ <;>
      simp [framePlan, decodeFrame, ruleFrame, hvt, decodeFwRule, planOf, planFwXWindow, planFwYWindow, planFwXCursor,
        planFwYCursor]
  exact (((hp s rfl).1.append fun t _ ht => (hp t ht).2.1).append fun t _ ht => (hp t ht).2.2.1).append
    fun t _ ht => (hp t ht).2.2.2

/-! ### The register-LUT commands (R90, R93) -/

theorem regLut_nodup {c : Config} (h : c.wf = true) (hv : c.variant = .nf) : c.regLutOp.toList.Nodup := by
  simp only [Config.wf, hv, Bool.and_eq_true] at h
  have := h.2
  simp only [Config.regLutOpsOk, Bool.and_eq_true, decide_eq_true_eq] at this
  exact this.1

theorem regLut_notFixed {c : Config} (h : c.wf = true) (hv : c.variant = .nf) {op : Byte}
    (ho : op ∈ c.regLutOp.toList) : op ∉ Config.nfFixedOps := by
  simp only [Config.wf, hv, Bool.and_eq_true] at h
  have := h.2
  simp only [Config.regLutOpsOk, Bool.and_eq_true, List.all_eq_true] at this
  simpa using this.2 op ho

/-- On NF the register-LUT opcodes decode to the five register-LUT commands, in the order of R90. -/
theorem decodeFrame_regLut {c : Config} (h : c.wf = true) (hv : c.variant = .nf) :
    decodeFrame c (ruleFrame c.regLutOp.vcom) = .ok .nfRegLut0
      ∧ decodeFrame c (ruleFrame c.regLutOp.ww) = .ok .nfRegLut1
      ∧ decodeFrame c (ruleFrame c.regLutOp.bw) = .ok .nfRegLut2
      ∧ decodeFrame c (ruleFrame c.regLutOp.wb) = .ok .nfRegLut3
      ∧ decodeFrame c (ruleFrame c.regLutOp.bb) = .ok .nfRegLut4 := by
  have hn := regLut_nodup h hv
  have hf := fun op ho => regLut_notFixed (op := op) h hv ho
  simp only [Five.toList, List.mem_cons, List.not_mem_nil, or_false, forall_eq_or_imp, forall_eq, Config.nfFixedOps,
    not_or] at hf
  simp only [Five.toList, List.nodup_cons, List.mem_cons, List.not_mem_nil, or_false, not_or, List.nodup_nil, and_true,
    not_false_eq_true] at hn
  obtain ⟨⟨n1, n2, n3, n4⟩, ⟨n5, n6, n7⟩, ⟨n8, n9⟩, n10⟩ := hn
  refine ⟨?_, ?_, ?_, ?_, ?_⟩ <;>
    simp only [decodeFrame, ruleFrame, hv, decodeNfRule, hf, Ne.symm n1, Ne.symm n2, Ne.symm n3, Ne.symm n4,
      Ne.symm n5, Ne.symm n6, Ne.symm n7, Ne.symm n8, Ne.symm n9, Ne.symm n10, if_true, if_false]

/-! ### InstallLut (R93) -/

/-- The commands of `InstallLut(m)` between the tracker's clearing and its setting. -/
def lutFrames (c : Config) : List Micro :=
  match c.variant with
  | .fw => [.frame (ruleFrame 0x32)]
  | .nf => c.regLutOp.toList.map fun op => .frame (ruleFrame op)

theorem installLut_eq (c : Config) (m : Mode) :
    installLut c m = [.prim .lutClear] ++ (lutFrames c ++ [.prim (.lutSet m)]) := by
  unfold installLut lutFrames
  cases c.variant <;> rfl

theorem Sends.lutFrames {s : State} (h : s.cfg.wf = true) :
    Sends (lutFrames s.cfg) s (lutEvents s.cfg s.latch.mode) := by
  unfold Machine.lutFrames lutEvents
  cases hv : s.cfg.variant with
  | fw =>
    exact Sends.lit (f := ruleFrame 0x32) (by simp [framePlan, decodeFrame, ruleFrame, hv, decodeFwRule, planOf,
      planFwLutUpload])
  | nf =>
    have hp : ∀ t : State, seqOnly s t →
        Sends [.frame (ruleFrame s.cfg.regLutOp.vcom)] t
          (commandEvents s.cfg (regLutOpcode s.cfg 0) (regLutTable s.cfg 0 s.latch.mode) false)
        ∧ Sends [.frame (ruleFrame s.cfg.regLutOp.ww)] t
          (commandEvents s.cfg (regLutOpcode s.cfg 1) (regLutTable s.cfg 1 s.latch.mode) false)
        ∧ Sends [.frame (ruleFrame s.cfg.regLutOp.bw)] t
          (commandEvents s.cfg (regLutOpcode s.cfg 2) (regLutTable s.cfg 2 s.latch.mode) false)
        ∧ Sends [.frame (ruleFrame s.cfg.regLutOp.wb)] t
          (commandEvents s.cfg (regLutOpcode s.cfg 3) (regLutTable s.cfg 3 s.latch.mode) false)
        ∧ Sends [.frame (ruleFrame s.cfg.regLutOp.bb)] t
          (commandEvents s.cfg (regLutOpcode s.cfg 4) (regLutTable s.cfg 4 s.latch.mode) true) := by
      intro t ht
      have hvt : t.cfg.variant = .nf := by rw [ht.cfg, hv]
      have hd := decodeFrame_regLut (c := t.cfg) (by rw [ht.cfg]; exact h) hvt
      rw [← ht.cfg, ← ht.latch]
      refine ⟨?_, ?_, ?_, ?_, ?_⟩ <;> refine Sends.lit (f := ruleFrame _) ?_ <;>
        simp only [framePlan, hd, planOf] <;> rfl
    exact ((((hp s rfl).1.append fun t _ ht => (hp t ht).2.1).append fun t _ ht => (hp t ht).2.2.1).append
      fun t _ ht => (hp t ht).2.2.2.1).append fun t _ ht => (hp t ht).2.2.2.2

theorem Sends.installLut {s : State} (h : s.cfg.wf = true) :
    Sends (installLut s.cfg s.latch.mode) s (lutEvents s.cfg s.latch.mode) := by
  rw [installLut_eq]
  have h1 : Sends [.prim .lutClear] s [] := Sends.prim (t := clearTracker s) rfl rfl rfl (by simp) rfl rfl
  have := h1.append (ns := Machine.lutFrames s.cfg ++ [.prim (.lutSet s.latch.mode)])
    (b := lutEvents s.cfg s.latch.mode ++ []) fun t _ ht => by
      have hl := Sends.lutFrames (s := t) (by rw [ht.cfg]; exact h)
      rw [ht.cfg, ht.latch] at hl
      exact hl.append fun u _ _ => Sends.prim (t := setTracker s.latch.mode u) rfl rfl rfl (by simp) rfl rfl
  simpa using this

/-! ### RunSeq (R98) -/

theorem Sends.entry {s : State} (h : s.cfg.wf = true) (hr : s.latch.op ≠ .transfer) (e : SeqEntry)
    (he : e = .windowFull → s.cfg.variant = .fw) :
    Sends (entrySteps s.cfg s.latch.mode e) s (entryEvents s.cfg s.latch.mode e) := by
  cases e with
  | cmd op data wait => exact Sends.table op data wait s
  | wait => exact Sends.wait s
  | windowFull =>
    have hrect : s.rect = fullRect s.cfg := by simp [State.rect, hr]
    have := Sends.setWindow (he rfl)
    rw [hrect] at this
    exact this
  | lut =>
    simp only [entrySteps, entryEvents]
    split
    · exact Sends.installLut h
    · exact Sends.nil s

/-- A table plays its entries (R98). -/
theorem Sends.runSeq {s : State} (h : s.cfg.wf = true) (hr : s.latch.op ≠ .transfer) (table : List SeqEntry)
    (ht : .windowFull ∈ table → s.cfg.variant = .fw) :
    Sends (runSeq s.cfg s.latch.mode table) s (tableEvents s.cfg s.latch.mode table) := by
  induction table generalizing s with
  | nil => exact Sends.nil s
  | cons e es ih =>
    refine (Sends.entry h hr e fun he => ht (by simp [he])).append fun t _ hst => ?_
    have := ih (s := t) (by rw [hst.cfg]; exact h) (by rw [hst.latch]; exact hr)
      (fun he => by rw [hst.cfg]; exact ht (by simp [he]))
    rw [hst.cfg, hst.latch] at this
    exact this

/-- An NF initialization table has no `WINDOW_FULL` (R99), and no sleep table has one (R131). -/
theorem initSeq_windowFull {c : Config} (h : c.wf = true) (hm : .windowFull ∈ c.initSeq) : c.variant = .fw := by
  cases hv : c.variant with
  | fw => rfl
  | nf =>
    simp only [Config.wf, Bool.and_eq_true] at h
    have := h.1.1.2
    simp only [Config.initSeqOk, hv, Bool.and_eq_true, beq_iff_eq] at this
    have hc := this.1.2
    rw [List.count_eq_zero] at hc
    exact absurd hm hc

theorem sleepSeq_windowFull {c : Config} (h : c.wf = true) (hm : .windowFull ∈ c.sleepSeq) : c.variant = .fw := by
  simp only [Config.wf, Bool.and_eq_true] at h
  have := h.1.2
  unfold Config.sleepSeqOk at this
  split at this
  · simp at this
  · rename_i e hl
    simp only [Bool.and_eq_true, List.all_eq_true] at this
    have hne : c.sleepSeq ≠ [] := by rintro h0; rw [h0] at hm; simp at hm
    rw [List.getLast?_eq_getLast_of_ne_nil hne, Option.some.injEq] at hl
    rw [← List.dropLast_append_getLast hne, hl, List.mem_append, List.mem_singleton] at hm
    rcases hm with hm | hm
    · exact absurd (this.2 _ hm) (by simp [Config.sleepEntryOk])
    · rw [← hm] at this; exact absurd this.1 (by simp [Config.sleepLastOk])

end Sys2Proof.Machine
end

