-- ==== Sys2Proof/Laws/Step.lean ====
section
/-! SUPPORT. Which of the host and the sequencer a step belongs to, and what the host's statements do. -/

namespace Sys2Proof.Machine

/-- While no operation runs, the step is the host's (R50). -/
theorem step_idle {s : State} (hc : s.cfg.wf = true) (hr : s.run = false) : step s = hostStep s := by
  unfold step stepOnce; rw [if_pos hc, if_neg (by rw [hr]; exact Bool.false_ne_true)]

/-- While an operation runs and the host waits, the step is the sequencer's. -/
theorem step_quiet {s : State} (hc : s.cfg.wf = true) (hr : s.run = true) (hw : s.hostWaits = true) :
    step s = quietStep s := by
  unfold step stepOnce; rw [if_pos hc, if_pos hr, if_pos hw]

/-- While an operation runs and the host does not wait, the host moves where the draw says so. -/
theorem step_hostFirst {s : State} (hc : s.cfg.wf = true) (hr : s.run = true) (hw : s.hostWaits = false)
    (hf : s.hostFirst = true) : step s = hostStep { s with schedIn := s.schedIn.rest } := by
  unfold step stepOnce; rw [if_pos hc, if_pos hr, if_neg (by rw [hw]; exact Bool.false_ne_true), if_pos hf]

/-- While an operation runs and the host does not wait, the sequencer takes one primitive where the draw says so. -/
theorem step_sequencerFirst {s : State} (hc : s.cfg.wf = true) (hr : s.run = true) (hw : s.hostWaits = false)
    (hf : s.hostFirst = false) : step s = .next (sequencerStep { s with schedIn := s.schedIn.rest }) := by
  unfold step stepOnce
  rw [if_pos hc, if_pos hr, if_neg (by rw [hw]; exact Bool.false_ne_true), if_neg (by rw [hf]; exact Bool.false_ne_true)]

/-- A host that waits for nothing but the end has no statement or a `waitdone` next. -/
theorem hostWaits_cases {s : State} (h : s.hostWaits = true) :
    s.hostq = [] ∨ ∃ rest, s.hostq = .waitdone :: rest := by
  unfold State.hostWaits at h
  split at h
  · exact .inl (by assumption)
  · exact .inr ⟨_, by assumption⟩
  · cases h

/-- A CMD write at the head of the host's program. -/
theorem hostStep_cmd {s : State} {w : Word} {rest : List HostStmt} (hq : s.hostq = .access (.wr .b4 0 w) :: rest) :
    hostStep s = cmdWrite w { s with hostq := rest } := by
  unfold hostStep; rw [hq]; rfl

/-- A `waitdone` at the head of the host's program. -/
theorem hostStep_waitdone {s : State} {rest : List HostStmt} (hq : s.hostq = .waitdone :: rest) :
    hostStep s = .next { s with hostq := rest, reads := s.reads ++ [statusWord s] } := by
  unfold hostStep; rw [hq]

/-- A legal CMD write after which the host waits. -/
theorem cmdWrite_waits {w : Word} {i : Instr} {s : State} (hd : decodeHostOp w = .ok i) (hw : s.hostWaits = true) :
    cmdWrite w s = exec i s := by
  unfold cmdWrite; rw [hd]; exact if_pos hw

/-- A legal CMD write after which the host goes on. -/
theorem cmdWrite_goesOn {w : Word} {i : Instr} {s : State} (hd : decodeHostOp w = .ok i) (hw : s.hostWaits = false) :
    cmdWrite w s = .next (issue i s) := by
  unfold cmdWrite; rw [hd]; exact if_neg (by rw [hw]; exact Bool.false_ne_true)

/-- An illegal CMD write. -/
theorem cmdWrite_illegal {w : Word} {e : DecodeError} {s : State} (hd : decodeHostOp w = .error e) :
    cmdWrite w s = .next (issueIllegal s) := by
  unfold cmdWrite; rw [hd]

/-- The six host operations (R60). -/
def isHostOp (i : Instr) : Prop :=
  i = .reset ∨ (∃ m, i = .init m) ∨ (∃ win, i = .transfer win) ∨ (∃ m, i = .refresh m) ∨ i = .sleep ∨ i = .wake

/-- Only host operations decode from a CMD word. -/
theorem decodeHostOp_cases {w : Word} {i : Instr} (h : decodeHostOp w = .ok i) : isHostOp i := by
  unfold isHostOp
  unfold decodeHostOp at h
  repeat' split at h
  all_goals first | (cases h; done) | (cases h; simp)

/-- A host operation is its CMD write and, if it is accepted, the operation to its end. -/
theorem exec_hostOp {i : Instr} (h : isHostOp i) (s : State) : exec i s = .next (carryOut (issue i s) s) := by
  rcases h with rfl | ⟨m, rfl⟩ | ⟨w, rfl⟩ | ⟨m, rfl⟩ | rfl | rfl <;> rfl

/-- While an operation runs, a CMD write is ignored but for OVERRUN (R162). -/
theorem issueCmd_running {e : ErrCode} {a s : State} (h : s.run = true) : issueCmd e a s = overrunCmd s := by
  unfold issueCmd; rw [if_pos h]

theorem issueCmd_rejected {e : ErrCode} {a s : State} (h : s.run = false) (he : e ≠ .ok) :
    issueCmd e a s = reject e s := by
  unfold issueCmd; rw [if_neg (by rw [h]; exact Bool.false_ne_true), if_neg he]

theorem issueCmd_accepted {a s : State} (h : s.run = false) : issueCmd .ok a s = a := by
  unfold issueCmd; rw [if_neg (by rw [h]; exact Bool.false_ne_true), if_pos rfl]

/-- While an operation runs, the CMD write of any operation is ignored but for OVERRUN (R162); a panel command is not
written to CMD. -/
theorem issue_running {s : State} (h : s.run = true) (i : Instr) : issue i s = overrunCmd s ∨ issue i s = s := by
  cases i <;> first | exact .inr rfl | exact .inl (issueCmd_running h)

theorem carryOut_running {a s : State} (h : s.run = true) : carryOut a s = a := by
  unfold carryOut; rw [if_pos h]

theorem carryOut_rejected {a s : State} (ha : a.run = false) : carryOut a s = a := by
  unfold carryOut; rw [ha]; simp

theorem carryOut_accepted {a s : State} (h : s.run = false) (ha : a.run = true) : carryOut a s = complete a := by
  unfold carryOut; rw [if_neg (by rw [h]; exact Bool.false_ne_true), if_pos ha]

/-- The step of a panel command the host does not interrupt. -/
theorem quietStep_frame {s : State} {f : Frame} {rest : List Micro} (h : s.todo = .frame f :: rest) :
    quietStep s = .next (perform (framePlan f s) { s with todo := rest }) := by
  unfold quietStep
  rw [h]
  show runFrame f { s with todo := rest } = _
  unfold runFrame framePlan
  show (match decodeFrame s.cfg f with
    | .ok i => exec i { s with todo := rest }
    | .error _ => .next (perform (rawPlan f { s with todo := rest }) { s with todo := rest })) = _
  cases hd : decodeFrame s.cfg f with
  | error e => rfl
  | ok i =>
    refine (exec_panel (i := i) (s := { s with todo := rest }) (panelByte_of_decodeFrame (c := s.cfg) hd)).trans ?_
    cases i <;> rfl

/-! ### What a step can be -/

/-- A register write changes the operand registers and OVERRUN only (R24 to R27). -/
theorem writeRegister_frame (off : Nat) (v : Word) (s : State) :
    writeRegister off v s
      = { s with overrun := (writeRegister off v s).overrun, regs := (writeRegister off v s).regs } := by
  unfold writeRegister
  repeat' split
  all_goals rfl

/-- A host write that is answered changes the operand registers, OVERRUN and STAGE only (R49). -/
theorem hostWrite_frame {w : Width} {a : HostAddr} {v : Word} {s t : State} (h : hostWrite w a v s = .next t) :
    t = { s with regs := t.regs, overrun := t.overrun, stage := t.stage } := by
  unfold hostWrite at h
  split at h
  swap
  · cases h
  split at h
  · cases h; rw [writeRegister_frame]
  · cases h; rfl
  · split at h <;> cases h; rfl
  · cases h; rfl
  · cases h; rfl

/-- A host read that is answered changes the host's results only (R49). -/
theorem hostRead_frame {w : Width} {a : HostAddr} {s t : State} (h : hostRead w a s = .next t) :
    t = { s with reads := s.reads ++ [readData s w a] } := by
  unfold hostRead at h
  split at h <;> cases h; rfl

/-- The host's step: a read, a write, a `waitdone` or nothing; or a CMD write, alone or with its whole operation. -/
theorem hostStep_cases {s t : State} (h : hostStep s = .next t) :
    (∃ q, t = { s with hostq := q, reads := t.reads, regs := t.regs, overrun := t.overrun, stage := t.stage })
      ∨ ∃ q, (∃ i, t = issue i { s with hostq := q }) ∨ t = issueIllegal { s with hostq := q }
        ∨ ∃ i, isHostOp i ∧ t = carryOut (issue i { s with hostq := q }) { s with hostq := q } := by
  unfold hostStep at h
  split at h
  · cases h; exact .inl ⟨s.hostq, rfl⟩
  · cases h; exact .inl ⟨_, rfl⟩
  · rename_i a rest _
    unfold hostAccess at h
    split at h
    · rename_i w _
      refine .inr ⟨rest, ?_⟩
      cases hd : decodeHostOp w with
      | error e => rw [cmdWrite_illegal hd] at h; cases h; exact .inr (.inl rfl)
      | ok i =>
        cases hw : State.hostWaits { s with hostq := rest } with
        | true =>
          rw [cmdWrite_waits hd hw, exec_hostOp (decodeHostOp_cases hd)] at h
          cases h; exact .inr (.inr ⟨i, decodeHostOp_cases hd, rfl⟩)
        | false => rw [cmdWrite_goesOn hd hw] at h; cases h; exact .inl ⟨i, rfl⟩
    · split at h
      · exact .inl ⟨rest, by rw [hostRead_frame h]⟩
      · exact .inl ⟨rest, by rw [hostWrite_frame h]⟩

/-- The sequencer's step where the pseudocode is at its end. -/
theorem sequencerStep_nil {s : State} (h : s.todo = []) : sequencerStep s = finish s := by
  unfold sequencerStep; rw [h]

/-- The sequencer's step at a panel command. -/
theorem sequencerStep_frame {s : State} {f : Frame} {rest : List Micro} (h : s.todo = .frame f :: rest) :
    sequencerStep s = { s with todo := (framePlan f s).map .prim ++ rest } := by
  unfold sequencerStep; rw [h]

/-- The sequencer's step at a primitive. -/
theorem sequencerStep_prim {s : State} {p : Prim} {rest : List Micro} (h : s.todo = .prim p :: rest) :
    sequencerStep s = primStep p rest s := by
  unfold sequencerStep; rw [h]

/-- What a step is, on the state s' that s is once the statement and the draw are taken: the host's access; a CMD write,
alone or with its whole operation; a primitive step of the sequencer; or a whole panel command. -/
inductive StepIs (s t : State) (s' : State) : Prop where
  | access (h : t = { s' with reads := t.reads, regs := t.regs, overrun := t.overrun, stage := t.stage })
  | issued (i : Instr) (h : t = issue i s')
  | illegal (h : t = issueIllegal s')
  | whole (i : Instr) (hi : isHostOp i) (h : t = carryOut (issue i s') s')
  | sequencer (hr : s.run = true) (h : t = sequencerStep s')
  | command (hr : s.run = true) (hs : s' = s) (f : Frame) (rest : List Micro) (ht : s.todo = .frame f :: rest)
      (h : t = perform (framePlan f s) { s with todo := rest })

/-- Everything a step can be. -/
theorem step_cases {s t : State} (h : step s = .next t) :
    s.cfg.wf = true ∧ ∃ q d, StepIs s t { s with hostq := q, schedIn := d } := by
  have host : ∀ d, hostStep { s with schedIn := d } = .next t → ∃ q d, StepIs s t { s with hostq := q, schedIn := d } := by
    intro d hd
    rcases hostStep_cases hd with ⟨q, h1⟩ | ⟨q, ⟨i, h1⟩ | h1 | ⟨i, hi, h1⟩⟩
    · exact ⟨q, d, .access h1⟩
    · exact ⟨q, d, .issued i h1⟩
    · exact ⟨q, d, .illegal h1⟩
    · exact ⟨q, d, .whole i hi h1⟩
  by_cases hc : s.cfg.wf = true
  swap
  · unfold step at h; rw [if_neg hc] at h; cases h
  refine ⟨hc, ?_⟩
  by_cases hr : s.run = true
  swap
  · rw [step_idle hc (by simpa using hr)] at h; exact host s.schedIn h
  cases hw : s.hostWaits with
  | true =>
    rw [step_quiet hc hr hw] at h
    refine ⟨s.hostq, s.schedIn, ?_⟩
    show StepIs s t s
    unfold quietStep at h
    split at h
    · rename_i f rest ht
      have h' : quietStep s = .next t := by unfold quietStep; rw [ht]; exact h
      rw [quietStep_frame ht] at h'; cases h'
      exact .command hr rfl f rest ht rfl
    · rename_i p rest ht; cases h; exact .sequencer hr (sequencerStep_prim ht).symm
    · rename_i ht; cases h; exact .sequencer hr (sequencerStep_nil ht).symm
  | false =>
    cases hf : s.hostFirst with
    | true => rw [step_hostFirst hc hr hw hf] at h; exact host _ h
    | false =>
      rw [step_sequencerFirst hc hr hw hf] at h; cases h
      exact ⟨s.hostq, s.schedIn.rest, .sequencer hr rfl⟩

/-- Everything a CMD write alone can do (R162): it is ignored, rejected, or the operation is accepted. -/
theorem issue_cases (i : Instr) (s : State) :
    issue i s = s ∨ (s.run = true ∧ issue i s = overrunCmd s) ∨ (s.run = false ∧ ∃ e, issue i s = reject e s)
      ∨ (s.run = false ∧ ∃ op m win l sm f ms, issue i s
          = { accept op m win s with lutValid := l, sessMode := sm, fmt := f, todo := ms }) := by
  have key : ∀ e a, (∃ op m win l sm f ms,
      a = { accept op m win s with lutValid := l, sessMode := sm, fmt := f, todo := ms }) →
      (s.run = true ∧ issueCmd e a s = overrunCmd s) ∨ (s.run = false ∧ ∃ e', issueCmd e a s = reject e' s)
      ∨ (s.run = false ∧ ∃ op m win l sm f ms, issueCmd e a s
          = { accept op m win s with lutValid := l, sessMode := sm, fmt := f, todo := ms }) := by
    intro e a ha
    cases hr : s.run with
    | true => exact .inl ⟨rfl, issueCmd_running hr⟩
    | false =>
      by_cases he : e = .ok
      · subst he; rw [issueCmd_accepted hr]; exact .inr (.inr ⟨rfl, ha⟩)
      · rw [issueCmd_rejected hr he]; exact .inr (.inl ⟨rfl, e, rfl⟩)
  cases i <;> first
    | exact .inl rfl
    | exact .inr (key _ _ ⟨_, _, _, _, _, _, _, rfl⟩)

/-- Everything the sequencer's step can do (R8, R35, R164): the operation ends, or it aborts with BUSY_TIMEOUT or
TRANSPORT_FAILURE, or only what `seqOnly` names and the pseudocode that is left change. -/
theorem sequencerStep_cases (s : State) :
    (s.todo = [] ∧ sequencerStep s = finish s)
      ∨ (∃ c u, (c = .busyTimeout ∨ c = .transportFailure) ∧ seqOnly s u ∧ sequencerStep s = abort c u)
      ∨ (∃ u ms, seqOnly s u ∧ sequencerStep s = { u with todo := ms }) := by
  unfold sequencerStep
  split
  · rename_i h; exact .inl ⟨h, rfl⟩
  · exact .inr (.inr ⟨s, _, rfl, rfl⟩)
  · rename_i p rest h
    refine .inr ?_
    cases p with
    | raiseTransport => exact .inl ⟨_, s, .inr rfl, rfl, rfl⟩
    | poll k =>
      show (∃ c u, (c = .busyTimeout ∨ c = .transportFailure) ∧ seqOnly s u ∧ pollStep k rest s = abort c u)
        ∨ ∃ u ms, seqOnly s u ∧ pollStep k rest s = { u with todo := ms }
      unfold pollStep
      split
      · exact .inr ⟨sampleBusy s, _, rfl, rfl⟩
      · split
        · exact .inl ⟨_, sampleBusy s, .inl rfl, rfl, rfl⟩
        · exact .inr ⟨sampleBusy s, _, rfl, rfl⟩
    | xfer src lo hi =>
      refine .inr ?_
      show ∃ u ms, seqOnly s u ∧ xferStep src lo hi rest s = { u with todo := ms }
      unfold xferStep
      split
      · exact ⟨spiXfer (src.slice s lo hi) s, _, rfl, rfl⟩
      · exact ⟨spiXfer (src.slice s lo hi) s, _, rfl, rfl⟩
    | setRst v => exact .inr ⟨setRst v s, rest, rfl, rfl⟩
    | setDc v => exact .inr ⟨setDc v s, rest, rfl, rfl⟩
    | csAssert => exact .inr ⟨setCs true s, rest, rfl, rfl⟩
    | csDeassert => exact .inr ⟨setCs false s, rest, rfl, rfl⟩
    | delay ms => exact .inr ⟨delay ms s, rest, rfl, rfl⟩
    | merge => exact .inr ⟨merge s, rest, rfl, rfl⟩
    | copyForward => exact .inr ⟨copyForward s, rest, rfl, rfl⟩
    | lutClear => exact .inr ⟨clearTracker s, rest, rfl, rfl⟩
    | lutSet m => exact .inr ⟨setTracker m s, rest, rfl, rfl⟩

/-- Everything a whole panel command can do (R74, R75, R82, R164): it returns with bus state changed only, or the
operation aborts from there. -/
theorem perform_frame (f : Frame) (s s' : State) :
    ∃ u, busOnly s' u ∧ u.touched = true ∧ (perform (framePlan f s) s' = u
      ∨ ∃ c, (c = .busyTimeout ∨ c = .transportFailure) ∧ perform (framePlan f s) s' = abort c u) := by
  obtain ⟨h1, h2, -⟩ := runPrims_bus (framePlan_isBus f s) s'
  refine ⟨(runPrims (framePlan f s) s').state, h1, ?_, ?_⟩
  · obtain ⟨src, wait, he⟩ := framePlan_eq f s; rw [he]; exact commandPlan_touched _ _ _ _ _
  · unfold perform
    cases hr : runPrims (framePlan f s) s' with
    | ok t => exact .inl rfl
    | raised c t => exact .inr ⟨c, h2 c t hr, rfl⟩

end Sys2Proof.Machine
end

