-- ==== Sys2Proof/Laws/Operations.lean ====
section
/-! SUPPORT. What a whole operation can do: that it completes with the events its pseudocode sends, that otherwise it
aborts, and which fields each operation's pseudocode leaves alone. -/

namespace Sys2Proof.Machine

/-- An accepted operation whose draws are good ends in its end step, with its events in the trace. -/
theorem complete_ok {a : State} {evs : List Event} (h : Sends a.todo { a with todo := [] } evs)
    (hx : a.xfersOk (countXfers evs)) (hi : a.idleNext (countSamples evs)) :
    ∃ u, complete a = finish u ∧ Ran { a with todo := [] } u evs ∧ runMicros a.todo { a with todo := [] } = .ok u := by
  obtain ⟨u, hu, hr⟩ := h hx hi
  exact ⟨u, by rw [complete_eq, hu]; rfl, hr, hu⟩

/-! ### Primitives that pseudocode does not hold -/

/-- Pseudocode that leaves the LUT tracker alone. -/
def noLut (ms : List Micro) : Prop := .prim .lutClear ∉ ms ∧ ∀ m, .prim (.lutSet m) ∉ ms

/-- Pseudocode that leaves RST alone. -/
def noRst (ms : List Micro) : Prop := ∀ v, .prim (.setRst v) ∉ ms

theorem noLut_append {a b : List Micro} (ha : noLut a) (hb : noLut b) : noLut (a ++ b) :=
  ⟨fun h => (List.mem_append.1 h).elim ha.1 hb.1, fun m h => (List.mem_append.1 h).elim (ha.2 m) (hb.2 m)⟩

theorem noRst_append {a b : List Micro} (ha : noRst a) (hb : noRst b) : noRst (a ++ b) :=
  fun v h => (List.mem_append.1 h).elim (ha v) (hb v)

/-- The only primitives of `InstallLut` are the tracker's. -/
theorem mem_installLut {c : Config} {m : Mode} {p : Prim} (h : .prim p ∈ installLut c m) :
    p = .lutClear ∨ p = .lutSet m := by
  unfold installLut at h
  cases hv : c.variant <;> simp [hv] at h <;> exact h

/-- The only primitives of a table's play are the waits and the tracker's. -/
theorem mem_runSeq {c : Config} {m : Mode} {table : List SeqEntry} {p : Prim} (h : .prim p ∈ runSeq c m table) :
    p = .poll 0 ∨ (.lut ∈ table ∧ (p = .lutClear ∨ p = .lutSet m)) := by
  simp only [runSeq, List.mem_flatMap] at h
  obtain ⟨e, he, hp⟩ := h
  cases e with
  | cmd op data wait => simp [entrySteps] at hp
  | wait => simp [entrySteps] at hp; exact .inl hp
  | windowFull => simp [entrySteps, setWindow] at hp
  | lut => simp [entrySteps] at hp; exact .inr ⟨he, mem_installLut hp.2⟩

theorem mem_resetPulse {c : Config} {p : Prim} (h : Micro.prim p ∈ (resetPulse c).map .prim) :
    (∃ v, p = .setRst v) ∨ ∃ ms, p = .delay ms := by
  simp [resetPulse] at h
  rcases h with rfl | rfl | rfl | rfl
  · exact .inl ⟨_, rfl⟩
  · exact .inr ⟨_, rfl⟩
  · exact .inl ⟨_, rfl⟩
  · exact .inr ⟨_, rfl⟩

theorem mem_initProgram {c : Config} {m : Mode} {p : Prim} (h : .prim p ∈ initProgram c m) :
    (∃ v, p = .setRst v) ∨ (∃ ms, p = .delay ms) ∨ p = .poll 0 ∨ p = .lutClear ∨ p = .lutSet m := by
  rcases List.mem_append.1 h with h | h
  · rcases mem_resetPulse h with h | h
    · exact .inl h
    · exact .inr (.inl h)
  · rcases mem_runSeq h with h | ⟨-, h | h⟩
    · exact .inr (.inr (.inl h))
    · exact .inr (.inr (.inr (.inl h)))
    · exact .inr (.inr (.inr (.inr h)))

theorem mem_transferProgram {c : Config} {f : Level} {p : Prim} (h : .prim p ∈ transferProgram c f) : p = .merge := by
  unfold transferProgram at h
  cases hv : c.variant <;> cases f <;> simp [hv, setWindow, streamPlane] at h <;> exact h

theorem mem_refreshProgram {s : State} {m : Mode} {p : Prim} (h : .prim p ∈ refreshProgram s m) :
    p = .lutClear ∨ p = .lutSet m ∨ p = .copyForward := by
  simp only [refreshProgram, List.mem_append] at h
  rcases h with ((h | h) | h) | h
  · unfold ensureLut at h
    split at h
    · rcases mem_installLut h with h | h
      · exact .inl h
      · exact .inr (.inl h)
    · cases h
  · unfold sendOld at h
    cases hv : s.cfg.variant <;> simp [hv, setWindow, streamPlane] at h
  · unfold trigger at h
    cases hv : s.cfg.variant <;> simp [hv] at h
  · simp at h; exact .inr (.inr h)

theorem noRst_runSeq (c : Config) (m : Mode) (table : List SeqEntry) : noRst (runSeq c m table) := by
  intro e h
  rcases mem_runSeq h with h | ⟨-, h | h⟩ <;> cases h

theorem noLut_runSeq {c : Config} {m : Mode} {table : List SeqEntry} (h : .lut ∉ table) :
    noLut (runSeq c m table) := by
  refine ⟨fun hm => ?_, fun m' hm => ?_⟩ <;> rcases mem_runSeq hm with h' | ⟨h', -⟩
  · cases h'
  · exact h h'
  · cases h'
  · exact h h'

theorem noLut_resetPulse (c : Config) : noLut ((resetPulse c).map .prim) := by
  refine ⟨fun hm => ?_, fun m' hm => ?_⟩ <;> rcases mem_resetPulse hm with ⟨_, h⟩ | ⟨_, h⟩ <;> cases h

/-! ### How an operation ends -/

/-- An accepted operation ends in its end step, or aborts with BUSY_TIMEOUT or TRANSPORT_FAILURE (R164); up to there
only what `seqOnly` names has changed. -/
theorem complete_outcome (a : State) :
    ∃ u, seqOnly { a with todo := [] } u
      ∧ ((runMicros a.todo { a with todo := [] } = .ok u ∧ complete a = finish u)
        ∨ ∃ c, (c = .busyTimeout ∨ c = .transportFailure) ∧ runMicros a.todo { a with todo := [] } = .raised c u
          ∧ complete a = abort c u) := by
  have hs := runMicros_seqOnly a.todo { a with todo := [] }
  cases hr : runMicros a.todo { a with todo := [] } with
  | ok u => rw [hr] at hs; exact ⟨u, hs, .inl ⟨rfl, by rw [complete_eq, hr]; rfl⟩⟩
  | raised c u =>
    rw [hr] at hs
    exact ⟨u, hs, .inr ⟨c, runMicros_code hr, rfl, by rw [complete_eq, hr]; rfl⟩⟩

theorem finish_init {u : State} (h : u.latch.op = .init ∨ u.latch.op = .wake) :
    finish u = { u with degraded := false, state := .idle, err := .ok, run := false, todo := [] } := by
  unfold finish; rcases h with h | h <;> rw [h]

theorem abort_init {u : State} {c : ErrCode} (h : u.latch.op = .init ∨ u.latch.op = .wake) :
    abort c u = { u with err := c, state := .uninit, run := false, todo := [] } := by
  unfold abort; rcases h with h | h <;> rw [h]

theorem finish_frames {u : State} (h : u.latch.op = .transfer ∨ u.latch.op = .refresh) :
    finish u = { u with state := .idle, err := .ok, run := false, todo := [] } := by
  unfold finish; rcases h with h | h <;> rw [h]

theorem finish_sleep {u : State} (h : u.latch.op = .sleep) :
    finish u = { u with lutValid := false, state := .sleeping, err := .ok, run := false, todo := [] } := by
  unfold finish; rw [h]

theorem abort_frames {u : State} {c : ErrCode} (h : u.latch.op = .transfer ∨ u.latch.op = .refresh ∨ u.latch.op = .sleep) :
    abort c u
      = { u with err := c, degraded := u.degraded || u.touched, state := .idle, run := false, todo := [] } := by
  unfold abort; rcases h with h | h | h <;> rw [h]

/-! ### INIT and WAKE (R102, R106) -/

theorem checkInitMode_ok {c : Config} {m : Mode} (h : ¬ (c.variant = .nf ∧ m = .gray)) : checkInitMode c m = .ok := by
  unfold checkInitMode; rw [if_neg h]

/-- An accepted INIT or WAKE is the whole operation in its mode. -/
theorem exec_initOp {s : State} {i : Instr} {m : Mode} (hi : i = .init m ∨ (i = .wake ∧ m = s.sessMode))
    (hr : s.run = false) (h : ¬ (s.cfg.variant = .nf ∧ m = .gray)) :
    ∃ op, (op = .init ∨ op = .wake) ∧ exec i s = .next (complete (acceptInit op m s)) := by
  rcases hi with rfl | ⟨rfl, rfl⟩
  · refine ⟨.init, .inl rfl, ?_⟩
    show Host.Outcome.next (carryOut (startInit m s) s) = _
    unfold startInit; rw [checkInitMode_ok h, issueCmd_accepted hr, carryOut_accepted hr rfl]
  · refine ⟨.wake, .inr rfl, ?_⟩
    show Host.Outcome.next (carryOut (startWake s) s) = _
    unfold startWake; rw [checkInitMode_ok h, issueCmd_accepted hr, carryOut_accepted hr rfl]

/-- INIT and WAKE send the pulse and the table. -/
theorem Sends.initProgram {s : State} {op : OpCode} (m : Mode) (hop : op = .init ∨ op = .wake) (hc : s.cfg.wf = true) :
    Sends (initProgram s.cfg m) { acceptInit op m s with todo := [] }
      (pulseEvents s.cfg ++ tableEvents s.cfg m s.cfg.initSeq) := by
  unfold Machine.initProgram
  refine (Sends.resetPulse { acceptInit op m s with todo := [] }).append fun t _ ht => ?_
  have hl : t.latch = (acceptInit op m s).latch := ht.latch
  have hcf : t.cfg = s.cfg := ht.cfg
  have := Sends.runSeq (s := t) (by rw [hcf]; exact hc)
    (by rw [hl]; rcases hop with rfl | rfl <;> simp [acceptInit, accept]) s.cfg.initSeq
    (fun h => by rw [hcf]; exact initSeq_windowFull hc h)
  rw [hcf, hl] at this
  exact this

/-- An `InstallLut` that returns has set the tracker (R93). -/
theorem installLut_tracker {c : Config} {m : Mode} {s u : State} (h : runMicros (installLut c m) s = .ok u) :
    u.lutValid = true ∧ u.lutMode = m := by
  rw [installLut_eq, ← List.append_assoc, runMicros_append] at h
  generalize runMicros _ s = r at h
  cases r with
  | raised c t => cases h
  | ok t => simp [runMicros, Micro.expand, runPrims, runPrim] at h; subst h; exact ⟨rfl, rfl⟩

/-- An `InstallLut` that raises leaves the tracker cleared, and its mode as it was (R93). -/
theorem installLut_raised {c : Config} {m : Mode} {s u : State} {e : ErrCode}
    (h : runMicros (installLut c m) s = .raised e u) : u.lutValid = false ∧ u.lutMode = s.lutMode := by
  rw [installLut_eq, List.singleton_append, runMicros_cons] at h
  change runMicros (lutFrames c ++ [.prim (.lutSet m)]) (clearTracker s) = _ at h
  rw [runMicros_append] at h
  have hn : noLut (lutFrames c) := by
    constructor
    · intro hp; unfold lutFrames at hp; split at hp <;> simp at hp
    · intro m hp; unfold lutFrames at hp; split at hp <;> simp at hp
  have k := runMicros_lut hn.1 hn.2 (clearTracker s)
  cases hr : runMicros (lutFrames c) (clearTracker s) with
  | raised e' t => rw [hr] at h k; cases h; exact k
  | ok t => rw [hr] at h; simp [runMicros, Micro.expand, runPrims, runPrim] at h

/-- A well-formed `T_INIT_SEQ` holds `LUT` once, at its end (R99). -/
theorem initSeq_last {c : Config} (h : c.wf = true) : ∃ l, c.initSeq = l ++ [.lut] ∧ .lut ∉ l := by
  simp only [Config.wf, Bool.and_eq_true] at h
  have h := h.1.1.2
  simp only [Config.initSeqOk, Bool.and_eq_true, beq_iff_eq] at h
  obtain ⟨⟨⟨⟨-, h1⟩, h2⟩, -⟩, -⟩ := h
  obtain ⟨l, hl⟩ := List.getLast?_eq_some_iff.1 h2
  refine ⟨l, hl, fun hm => ?_⟩
  rw [hl, List.count_append] at h1
  have := List.count_pos_iff.2 hm
  have h1' : List.count SeqEntry.lut [SeqEntry.lut] = 1 := by decide
  omega

/-- The pseudocode of INIT touches the tracker only at its end, in `InstallLut`. -/
theorem initProgram_split {c : Config} (h : c.wf = true) (m : Mode) :
    ∃ l, initProgram c m = l ++ (if c.hasProfile m then installLut c m else []) ∧ noLut l := by
  obtain ⟨l, hl, hn⟩ := initSeq_last h
  refine ⟨(resetPulse c).map .prim ++ runSeq c m l, ?_, noLut_append (noLut_resetPulse c) (noLut_runSeq hn)⟩
  unfold initProgram; rw [hl]; simp [runSeq, entrySteps]

/-- The tracker after the pseudocode of INIT (R102). -/
theorem initProgram_tracker {c : Config} (h : c.wf = true) {m : Mode} {s u : State}
    (hu : runMicros (initProgram c m) s = .ok u) :
    u.lutValid = (c.hasProfile m || s.lutValid) ∧ u.lutMode = if c.hasProfile m then m else s.lutMode := by
  obtain ⟨l, hl, hn⟩ := initProgram_split h m
  rw [hl, runMicros_append] at hu
  have := runMicros_lut hn.1 hn.2 s
  cases hr : runMicros l s with
  | raised => rw [hr] at hu; cases hu
  | ok t =>
    rw [hr] at hu this
    by_cases hp : c.hasProfile m
    · simp only [hp, if_true] at hu ⊢
      exact installLut_tracker hu
    · simp [hp, runMicros] at hu ⊢; subst hu; exact this

/-- An INIT that raises leaves the tracker cleared. -/
theorem initProgram_raised {c : Config} (h : c.wf = true) {m : Mode} {s u : State} {e : ErrCode}
    (hs : s.lutValid = false) (hu : runMicros (initProgram c m) s = .raised e u) : u.lutValid = false := by
  obtain ⟨l, hl, hn⟩ := initProgram_split h m
  rw [hl, runMicros_append] at hu
  have := (runMicros_lut hn.1 hn.2 s).1
  cases hr : runMicros l s with
  | raised => rw [hr] at hu this; cases hu; rw [← hs]; exact this
  | ok t =>
    rw [hr] at hu this
    by_cases hp : c.hasProfile m
    · simp only [hp, if_true] at hu; exact (installLut_raised hu).1
    · simp [hp, runMicros] at hu

/-- INIT ends with RST high, whether it returns or raises (R96). -/
theorem initProgram_rst (c : Config) (m : Mode) (s : State) : (runMicros (initProgram c m) s).state.pins.rst = true := by
  unfold initProgram
  rw [runMicros_append, runMicros_prims]
  have hp : runPrims (resetPulse c) s
      = .ok (delay c.resetHoldMs (setRst true (delay c.resetHoldMs (setRst false s)))) := rfl
  rw [hp]
  exact runMicros_rst (noRst_runSeq c m c.initSeq)
    (delay c.resetHoldMs (setRst true (delay c.resetHoldMs (setRst false s))))

theorem initProgram_new (c : Config) (m : Mode) (s : State) : (runMicros (initProgram c m) s).state.new = s.new :=
  runMicros_new (fun h => by rcases mem_initProgram h with ⟨v, h⟩ | ⟨ms, h⟩ | h | h | h <;> cases h) s

theorem initProgram_old (c : Config) (m : Mode) (s : State) : (runMicros (initProgram c m) s).state.old = s.old :=
  runMicros_old (fun h => by rcases mem_initProgram h with ⟨v, h⟩ | ⟨ms, h⟩ | h | h | h <;> cases h) s

theorem seqOnly.hostSide {s t : State} (h : seqOnly s t) : hostSideSame s t :=
  ⟨h.cfg, h.regs, h.stage, h.overrun, h.hostq, h.reads, h.schedIn⟩

/-- The pulse draws nothing. -/
theorem countXfers_pulse (c : Config) (e : List Event) : countXfers (pulseEvents c ++ e) = countXfers e := by
  have hx : countXfers (pulseEvents c) = 0 := by
    simp only [pulseEvents, countXfers_append, countXfers_delay]; rfl
  rw [countXfers_append, hx, Nat.zero_add]

theorem countSamples_pulse (c : Config) (e : List Event) : countSamples (pulseEvents c ++ e) = countSamples e := by
  have hx : countSamples (pulseEvents c) = 0 := by
    simp only [pulseEvents, countSamples_append, countSamples_delay]; rfl
  rw [countSamples_append, hx, Nat.zero_add]

/-! ### TRANSFER (R121) -/

/-- The plan of a rule's frame is that of the command it decodes to. -/
theorem framePlan_rule {op : Byte} {s : State} {i : Instr} (h : decodeFrame s.cfg (ruleFrame op) = .ok i) :
    framePlan (ruleFrame op) s = planOf i s := by
  unfold framePlan; rw [h]

theorem decodeFrame_fw {c : Config} (hv : c.variant = .fw) :
    decodeFrame c (ruleFrame 0x20) = .ok .fwRefreshTrigger ∧ decodeFrame c (ruleFrame 0x22) = .ok .fwUpdateControl
      ∧ decodeFrame c (ruleFrame 0x24) = .ok .fwRamWriteA ∧ decodeFrame c (ruleFrame 0x26) = .ok .fwRamWriteB := by
  simp [decodeFrame, ruleFrame, hv, decodeFwRule]

theorem decodeFrame_nf {c : Config} (hv : c.variant = .nf) :
    decodeFrame c (ruleFrame 0x10) = .ok .nfTransmission1 ∧ decodeFrame c (ruleFrame 0x12) = .ok .nfLegacyRefresh
      ∧ decodeFrame c (ruleFrame 0x13) = .ok .nfTransmission2 := by
  simp [decodeFrame, ruleFrame, hv, decodeNfRule]

theorem noRst_setWindow : noRst setWindow := by intro v h; simp [setWindow] at h

/-- `SetWindow` changes bus state only, so no memory. -/
theorem setWindow_keeps (s : State) :
    (runMicros setWindow s).state.new = s.new ∧ (runMicros setWindow s).state.old = s.old :=
  ⟨runMicros_new (by simp [setWindow]) s, runMicros_old (by simp [setWindow]) s⟩

/-- A plane write behind its `SetWindow`, on FW (R115, R117). -/
theorem Sends.planeWrite {s : State} (hv : s.cfg.variant = .fw) {op : Byte} {src : Source} {bytes : List Byte}
    (hp : ∀ t : State, seqOnly s t → framePlan (ruleFrame op) t = commandPlan t.cfg op src false)
    (hb : ∀ t : State, seqOnly s t → t.new = s.new → t.old = s.old → src.bytes t = bytes) :
    Sends (Machine.setWindow ++ streamPlane op) s (writeEvents s.cfg op s.rect bytes) := by
  unfold writeEvents
  rw [hv]
  refine (Sends.setWindow hv).append fun t ht hs => ?_
  have hk := setWindow_keeps s
  rw [ht] at hk
  have := Sends.frame (f := ruleFrame op) (s := t) (wait := false) bytes (hp t hs) fun u hu =>
    hb u (hs.trans hu.seqOnly) (hu.new.trans hk.1) (hu.old.trans hk.2)
  rw [hs.cfg] at this
  exact this

/-- The pseudocode of TRANSFER behind its merge. -/
theorem Sends.transferPlanes {s : State} (hop : s.latch.op = .transfer) :
    Sends (transferProgram s.cfg s.fmt).tail s
      (transferEvents s (if s.cfg.variant = .fw then s.rect else fullRect s.cfg)) := by
  unfold transferProgram transferEvents
  cases hv : s.cfg.variant with
  | fw =>
    have hA : ∀ (f : Level) (t : State), seqOnly s t → s.fmt = f → framePlan (ruleFrame 0x24) t
        = commandPlan t.cfg 0x24 (if f then .planeA s.rect else .region s.rect) false := by
      intro f t ht hf
      rw [framePlan_rule (decodeFrame_fw (by rw [ht.cfg]; exact hv)).2.2.1, ← hf]
      show planFwRamWriteA t = _
      unfold planFwRamWriteA; rw [ht.fmt, ht.rect]
    have hB : ∀ (t : State), seqOnly s t → framePlan (ruleFrame 0x26) t
        = commandPlan t.cfg 0x26 (.planeB s.rect) false := by
      intro t ht
      rw [framePlan_rule (decodeFrame_fw (by rw [ht.cfg]; exact hv)).2.2.2]
      show planFwRamWriteB t = _
      unfold planFwRamWriteB; rw [ht.rect, ht.latch, hop]; rfl
    cases hf : s.fmt with
    | false =>
      simp only [List.tail_cons]
      exact Sends.planeWrite hv (fun t ht => hA false t ht hf) fun t ht hn _ => region1_congr ht.cfg hn _
    | true =>
      simp only [List.tail_cons, if_true]
      rw [List.append_assoc]
      refine (Sends.planeWrite (op := 0x24) (src := .planeA s.rect) (bytes := plane 1 s s.rect) hv
        (fun t ht => hA true t ht hf) fun t ht hn _ => plane_congr ht.cfg hn 1 _).append fun t ht hs => ?_
      have hk : t.new = s.new := by
        have := runMicros_new (ms := Machine.setWindow ++ streamPlane 0x24) (by simp [Machine.setWindow, streamPlane]) s
        rw [ht] at this; exact this
      have := Sends.planeWrite (s := t) (op := 0x26) (src := .planeB s.rect) (bytes := plane 0 s s.rect)
        (by rw [hs.cfg]; exact hv) (fun u hu => hB u (hs.trans hu))
        fun u hu hn _ => plane_congr (hu.cfg.trans hs.cfg) (hn.trans hk) 0 _
      rw [hs.cfg, hs.rect] at this
      exact this
  | nf =>
    simp only [List.tail_cons, writeEvents, hv]
    refine Sends.frame (f := ruleFrame 0x13) (src := .region (fullRect s.cfg)) (wait := false) _ ?_ fun t ht => ?_
    · exact framePlan_rule (decodeFrame_nf hv).2.2
    · exact region1_congr ht.cfg ht.new _

/-- An accepted TRANSFER: its checks pass (R163). -/
theorem exec_transferOp {s : State} {win : Bool} (h : transferAccepted s win) :
    exec (.transfer win) s = .next (complete (acceptTransfer win s)) := by
  obtain ⟨hr, hst, hd, hw, hl⟩ := h
  have hc : checkTransfer win s = .ok := by
    have : ¬ (win = true ∧ ¬ windowLegal s.cfg (windowRect s.regs.winOrg s.regs.winSize) = true) :=
      fun h => h.2 (hw h.1)
    simp [checkTransfer, checkReady, checkState, hst, hd, hl]
    simpa using hw
  show Host.Outcome.next (carryOut (startTransfer win s) s) = _
  unfold startTransfer; rw [hc, issueCmd_accepted hr, carryOut_accepted hr rfl]

/-! ### REFRESH (R126) -/

/-- An accepted REFRESH: its checks pass (R163). -/
theorem exec_refreshOp {s : State} {m : Mode} (h : refreshAccepted s m) :
    exec (.refresh m) s = .next (complete (acceptRefresh m s)) := by
  obtain ⟨hr, hst, hd, hv, hf⟩ := h
  have hc : checkRefresh m s = .ok := by
    unfold checkRefresh checkRefreshMode
    rw [if_neg (by simp [checkReady, checkState, hst, hd]), if_neg (by simp [hf]; simpa using hv)]
  show Host.Outcome.next (carryOut (startRefresh m s) s) = _
  unfold startRefresh; rw [hc, issueCmd_accepted hr, carryOut_accepted hr rfl]

theorem Sends.sendOld {s : State} (hop : s.latch.op = .refresh) : Sends (sendOld s.cfg s.latch.mode) s (oldEvents s s.latch.mode) := by
  unfold Machine.sendOld oldEvents
  by_cases hd : s.latch.mode.isDiff = true
  · simp only [hd, if_true]
    cases hv : s.cfg.variant with
    | fw =>
      have hr : s.rect = fullRect s.cfg := by simp [State.rect, hop]
      have := Sends.planeWrite (s := s) (op := 0x26) (src := .oldFrame s.cfg.frame1)
        (bytes := s.readOld 0 s.cfg.frame1) hv ?_ fun t ht _ ho => readOld_congr ho 0 _
      · rw [hr] at this; exact this
      · intro t ht
        rw [framePlan_rule (decodeFrame_fw (by rw [ht.cfg]; exact hv)).2.2.2]
        show planFwRamWriteB t = _
        unfold planFwRamWriteB; rw [ht.latch, hop, ht.cfg]; rfl
    | nf =>
      refine Sends.frame (f := ruleFrame 0x10) (src := .oldFrame s.cfg.frame1) (wait := false) _ ?_ fun t ht => ?_
      · rw [framePlan_rule (decodeFrame_nf hv).1]; rfl
      · exact readOld_congr ht.old 0 _
  · simp only [hd]; exact Sends.nil s

theorem Sends.trigger (s : State) : Sends (trigger s.cfg) s (triggerEvents s.cfg s.latch.mode) := by
  unfold Machine.trigger triggerEvents
  cases hv : s.cfg.variant with
  | fw =>
    have h1 : Sends [.frame (ruleFrame 0x22)] s (commandEvents s.cfg 0x22 [s.cfg.upd s.latch.mode] false) :=
      Sends.lit (f := ruleFrame 0x22) (by rw [framePlan_rule (decodeFrame_fw hv).2.1]; rfl)
    refine h1.append (ns := [.frame (ruleFrame 0x20)]) fun t _ ht => ?_
    have := Sends.lit (f := ruleFrame 0x20) (s := t) (bytes := []) (wait := true)
      (by rw [framePlan_rule (decodeFrame_fw (by rw [ht.cfg]; exact hv)).1]; rfl)
    rw [ht.cfg] at this; exact this
  | nf => exact Sends.lit (f := ruleFrame 0x12) (by rw [framePlan_rule (decodeFrame_nf hv).2.1]; rfl)

theorem mem_ensureLut {s : State} {m : Mode} {p : Prim} (h : .prim p ∈ ensureLut s m) : p = .lutClear ∨ p = .lutSet m := by
  unfold ensureLut at h
  split at h
  · exact mem_installLut h
  · cases h

theorem ensureLut_keeps (s0 : State) (m : Mode) (s : State) :
    (runMicros (ensureLut s0 m) s).state.new = s.new ∧ (runMicros (ensureLut s0 m) s).state.old = s.old :=
  ⟨runMicros_new (fun h => by rcases mem_ensureLut h with h | h <;> cases h) s,
    runMicros_old (fun h => by rcases mem_ensureLut h with h | h <;> cases h) s⟩

/-- The pseudocode of REFRESH in the latched mode, with the tracker of a given earlier state. -/
theorem Sends.refreshProgram {s s0 : State} (hc : s.cfg.wf = true) (hop : s.latch.op = .refresh) (h0 : s0.cfg = s.cfg)
    (hl : s0.lutValid = s.lutValid) (hm : s0.lutMode = s.lutMode) :
    Sends (refreshProgram s0 s.latch.mode) s (refreshEvents s s.latch.mode ++ []) := by
  unfold Machine.refreshProgram refreshEvents
  have h1 : Sends (ensureLut s0 s.latch.mode) s (ensureEvents s s.latch.mode) := by
    unfold ensureLut ensureEvents
    rw [h0, hl, hm]
    split
    · exact Sends.installLut hc
    · exact Sends.nil s
  have h2 := h1.append (ns := Machine.sendOld s0.cfg s.latch.mode) (b := oldEvents s s.latch.mode) fun t ht hs => by
    have := Sends.sendOld (s := t) (by rw [hs.latch]; exact hop)
    have hk := (ensureLut_keeps s0 s.latch.mode s).2
    rw [ht] at hk
    change t.old = s.old at hk
    rw [hs.latch, hs.cfg, ← h0] at this
    have he : oldEvents t s.latch.mode = oldEvents s s.latch.mode := by
      unfold oldEvents; rw [hs.cfg, readOld_congr hk]
    rw [he] at this; exact this
  have h3 := h2.append (ns := Machine.trigger s0.cfg) (b := triggerEvents s.cfg s.latch.mode) fun t ht hs => by
    have := Sends.trigger t
    rw [hs.latch, hs.cfg, ← h0] at this
    rw [h0] at this ⊢; exact this
  exact h3.append fun t _ _ => Sends.prim (t := copyForward t) (evs := []) rfl rfl rfl (by simp [copyForward]) rfl rfl

/-- The tracker after an `EnsureLut(m)` that returns: set for m where m has a profile, else as it was (R94). -/
theorem ensureLut_done {s s0 t : State} {m : Mode} (h0 : s0.cfg = s.cfg) (hl : s0.lutValid = s.lutValid)
    (hm : s0.lutMode = s.lutMode) (h : runMicros (ensureLut s0 m) s = .ok t) :
    t.lutValid = (s.cfg.hasProfile m || s.lutValid) ∧ t.lutMode = if s.cfg.hasProfile m then m else s.lutMode := by
  unfold ensureLut at h
  rw [h0, hl, hm] at h
  by_cases hp : s.cfg.hasProfile m = true
  · by_cases hv : s.lutValid = true ∧ s.lutMode = m
    · simp [hp, hv, runMicros] at h; subst h; simp [hp, hv]
    · have := installLut_tracker (c := s.cfg) (m := m) (s := s) (u := t) (by rw [if_pos ⟨hp, hv⟩] at h; exact h)
      simp [hp, this]
  · simp [hp, runMicros] at h; subst h; simp [hp]

/-- The tracker after an `EnsureLut(m)` that raises: cleared, its mode as it was (R93). -/
theorem ensureLut_raised {s s0 t : State} {m : Mode} {e : ErrCode} (h : runMicros (ensureLut s0 m) s = .raised e t) :
    t.lutValid = false ∧ t.lutMode = s.lutMode := by
  unfold ensureLut at h
  split at h
  · exact installLut_raised h
  · cases h

/-- The old image and the trigger of a REFRESH are panel commands only (R124, R125). -/
theorem mem_sendOld_trigger (c : Config) (m : Mode) (p : Prim) : .prim p ∉ sendOld c m ++ trigger c := by
  intro hp
  rcases List.mem_append.1 hp with hp | hp
  · unfold sendOld at hp; cases hv : c.variant <;> simp [hv, setWindow, streamPlane] at hp
  · unfold trigger at hp; cases hv : c.variant <;> simp [hv] at hp

/-- The tracker after a REFRESH that raises (R92, R164): cleared where `EnsureLut` raised, else as `EnsureLut` left it. -/
theorem refreshProgram_tracker {s s0 u : State} {m : Mode} {e : ErrCode} (h0 : s0.cfg = s.cfg)
    (hl : s0.lutValid = s.lutValid) (hm : s0.lutMode = s.lutMode)
    (h : runMicros (refreshProgram s0 m) s = .raised e u) :
    (∃ t, runMicros (ensureLut s0 m) s = .raised e t ∧ u.lutValid = false ∧ u.lutMode = s.lutMode)
      ∨ ∃ t, runMicros (ensureLut s0 m) s = .ok t ∧ u.lutValid = (s.cfg.hasProfile m || s.lutValid)
        ∧ u.lutMode = if s.cfg.hasProfile m then m else s.lutMode := by
  unfold refreshProgram at h
  rw [List.append_assoc, List.append_assoc, runMicros_append] at h
  cases hr : runMicros (ensureLut s0 m) s with
  | raised c t => rw [hr] at h; cases h; exact .inl ⟨_, rfl, ensureLut_raised hr⟩
  | ok t =>
    have et := ensureLut_done h0 hl hm hr
    refine .inr ⟨t, rfl, ?_⟩
    have hb : ∀ p, .prim p ∈ sendOld s0.cfg m ++ (trigger s0.cfg ++ [.prim .copyForward]) → p = .copyForward := by
      intro p hp
      rw [← List.append_assoc, List.mem_append] at hp
      rcases hp with hp | hp
      · exact absurd hp (mem_sendOld_trigger _ _ _)
      · simpa using hp
    have k := runMicros_lut (fun hp => by cases hb _ hp) (fun m hp => by cases hb _ hp) t
    rw [hr, Res.bind_ok] at h
    rw [h] at k
    exact ⟨k.1.trans et.1, k.2.trans et.2⟩

/-- What the pseudocode of REFRESH leaves when it returns: OLD is the copy, the tracker is the mode's (R94, R127). -/
theorem refreshProgram_done {s s0 u : State} {m : Mode} (h0 : s0.cfg = s.cfg) (hl : s0.lutValid = s.lutValid)
    (hm : s0.lutMode = s.lutMode) (h : runMicros (refreshProgram s0 m) s = .ok u) :
    u.new = s.new ∧ (∀ a, a < s.cfg.slotCap → u.oldByte a = s.newByte a)
      ∧ u.lutValid = (s.cfg.hasProfile m || s.lutValid)
      ∧ u.lutMode = if s.cfg.hasProfile m then m else s.lutMode := by
  unfold refreshProgram at h
  rw [List.append_assoc, List.append_assoc, runMicros_append] at h
  have ek := ensureLut_keeps s0 m s
  have es := runMicros_seqOnly (ensureLut s0 m) s
  cases hr : runMicros (ensureLut s0 m) s with
  | raised c t => rw [hr] at h; cases h
  | ok t =>
    have et := ensureLut_done h0 hl hm hr
    rw [hr] at h ek es
    have hb := mem_sendOld_trigger s0.cfg m
    simp only [Res.bind_ok] at h
    rw [← List.append_assoc, runMicros_append] at h
    have k1 := runMicros_new (hb .merge) t
    have k2 := runMicros_lut (hb .lutClear) (fun m => hb (.lutSet m)) t
    have k3 := runMicros_seqOnly (sendOld s0.cfg m ++ trigger s0.cfg) t
    cases hr2 : runMicros (sendOld s0.cfg m ++ trigger s0.cfg) t with
    | raised c v => rw [hr2] at h; cases h
    | ok v =>
      rw [hr2] at h k1 k2 k3
      simp [runMicros, Micro.expand, runPrims, runPrim] at h
      subst h
      have hvc : v.cfg = s.cfg := k3.cfg.trans es.cfg
      have hvn : v.new = s.new := k1.trans ek.1
      refine ⟨hvn, fun a ha => ?_, k2.1.trans et.1, k2.2.trans et.2⟩
      unfold State.oldByte copyForward
      simp only []
      rw [hvc, hvn, Memory.lookup_append, Memory.lookup_filter_of_true _ (fun b => by simpa using ha),
        Memory.lookup_filter_of_false v.old (fun b => by simpa using ha)]
      simp [State.newByte]

/-- REFRESH raises before its `CopyForward` (R126, R164). -/
theorem refreshProgram_raised {s s0 u : State} {m : Mode} {e : ErrCode}
    (h : runMicros (refreshProgram s0 m) s = .raised e u) : u.new = s.new ∧ u.old = s.old := by
  refine ⟨?_, ?_⟩
  · have := runMicros_new (ms := refreshProgram s0 m)
      (fun h => by rcases mem_refreshProgram h with h | h | h <;> cases h) s
    rw [h] at this; exact this
  · unfold refreshProgram at h
    rw [runMicros_append] at h
    have hb : .prim .copyForward ∉ ensureLut s0 m ++ sendOld s0.cfg m ++ trigger s0.cfg := by
      intro hp
      rcases List.mem_append.1 hp with hp | hp
      · rcases List.mem_append.1 hp with hp | hp
        · rcases mem_ensureLut hp with h | h <;> cases h
        · unfold sendOld at hp; cases hv : s0.cfg.variant <;> simp [hv, setWindow, streamPlane] at hp
      · unfold trigger at hp; cases hv : s0.cfg.variant <;> simp [hv] at hp
    have k := runMicros_old hb s
    cases hr : runMicros (ensureLut s0 m ++ sendOld s0.cfg m ++ trigger s0.cfg) s with
    | ok t => rw [hr] at h; simp [runMicros, Micro.expand, runPrims, runPrim] at h
    | raised c t => rw [hr] at h k; cases h; exact k

/-! ### `st.touched` and the error codes -/

/-- Pseudocode with a panel command behind primitives that never raise has touched the bus once it is over (R74). -/
theorem runMicros_touches {pre : List Micro} {f : Frame} {rest : List Micro}
    (h : ∀ m ∈ pre, m = .prim .merge ∨ m = .prim .lutClear) (s : State) :
    (runMicros (pre ++ .frame f :: rest) s).state.touched = true := by
  induction pre generalizing s with
  | nil =>
    rw [List.nil_append, runMicros_cons]
    have ht : (runPrims (framePlan f s) s).state.touched = true := by
      obtain ⟨src, wait, he⟩ := framePlan_eq f s; rw [he]; exact commandPlan_touched _ _ _ _ _
    show ((runPrims (framePlan f s) s).bind (runMicros rest)).state.touched = true
    cases hr : runPrims (framePlan f s) s with
    | ok t => rw [hr] at ht; exact runMicros_touched rest ht
    | raised c t => rw [hr] at ht; exact ht
  | cons m pre ih =>
    rw [List.cons_append, runMicros_cons]
    rcases h m (by simp) with rfl | rfl
    · exact ih (fun m hm => h m (by simp [hm])) _
    · exact ih (fun m hm => h m (by simp [hm])) _

theorem transferProgram_touches (c : Config) (f : Level) (s : State) :
    (runMicros (transferProgram c f) s).state.touched = true := by
  have : ∃ g rest, transferProgram c f = [.prim .merge] ++ .frame g :: rest := by
    unfold transferProgram; cases c.variant <;> cases f <;> exact ⟨_, _, rfl⟩
  obtain ⟨g, rest, h⟩ := this
  rw [h]; exact runMicros_touches (by simp) s

theorem refreshProgram_touches (s0 : State) (m : Mode) (s : State) :
    (runMicros (refreshProgram s0 m) s).state.touched = true := by
  have : ∃ pre g rest, refreshProgram s0 m = pre ++ .frame g :: rest ∧ ∀ m ∈ pre, m = Micro.prim .merge ∨ m = .prim .lutClear := by
    have e : ensureLut s0 m = [] ∨ ∃ g rest, ensureLut s0 m = [.prim .lutClear] ++ .frame g :: rest := by
      unfold ensureLut
      split
      · refine .inr ?_
        rw [installLut_eq]; unfold lutFrames
        cases s0.cfg.variant <;> exact ⟨_, _, rfl⟩
      · exact .inl rfl
    unfold refreshProgram
    rcases e with e | ⟨g, rest, e⟩ <;> rw [e]
    · unfold sendOld trigger setWindow
      cases m.isDiff <;> cases s0.cfg.variant <;> exact ⟨[], _, _, rfl, by simp⟩
    · exact ⟨[.prim .lutClear], g, rest ++ sendOld s0.cfg m ++ trigger s0.cfg ++ [.prim .copyForward], by simp, by simp⟩
  obtain ⟨pre, g, rest, h, hp⟩ := this
  rw [h]; exact runMicros_touches hp s

/-- A panel command without a busy-wait holds no poll. -/
theorem commandPlan_noWait {c : Config} {op : Byte} {src : Source} {p : Prim} (h : p ∈ commandPlan c op src false)
    (k : Nat) : p ≠ .poll k := by
  rintro rfl
  simp only [commandPlan, busyWait, List.mem_append] at h
  rcases h with (h | h) | h
  · simp [commandFrame] at h
  · unfold dataFrame at h; split at h <;> simp at h
  · simp at h

/-- A panel command that does not wait raises nothing but TRANSPORT_FAILURE. -/
theorem commandPlan_code {c : Config} {op : Byte} {src : Source} {s t : State} {e : ErrCode}
    (h : runPrims (commandPlan c op src false) s = .raised e t) : e = .transportFailure := by
  have hp : ∀ p ∈ commandPlan c op src false, p.isBus = true ∧ ∀ k, p ≠ .poll k :=
    fun p hp => ⟨commandPlan_isBus c op src false p hp, commandPlan_noWait hp⟩
  revert h hp
  generalize commandPlan c op src false = ps
  intro h hp
  induction ps generalizing s with
  | nil => simp [runPrims] at h
  | cons p ps ih =>
    rw [runPrims_cons] at h
    cases hr : runPrim p s with
    | ok u => rw [hr] at h; exact ih h fun q hq => hp q (by simp [hq])
    | raised e' u =>
      rw [hr] at h; cases h
      have hb := hp p (by simp)
      cases p with
      | xfer src lo hi =>
        unfold runPrim at hr
        by_cases hx : s.xferOk = true
        · simp [hx] at hr
        · simp only [hx] at hr; cases hr; rfl
      | poll k => exact absurd rfl (hb.2 k)
      | _ => simp [runPrim, Prim.isBus] at hr hb

/-- A panel command of `SetWindow` waits for nothing (R115). -/
theorem setWindow_frames {f : Frame} (hm : .frame f ∈ setWindow) {u : State} (hv : u.cfg.variant = .fw) :
    ∃ src, framePlan f u = commandPlan u.cfg f.op src false := by
  simp only [setWindow, List.mem_cons, List.not_mem_nil, or_false, Micro.frame.injEq] at hm
  rcases hm with rfl | rfl | rfl | rfl
  · exact ⟨.lit _, by simp [framePlan, decodeFrame, ruleFrame, hv, decodeFwRule, planOf, planFwXWindow]; rfl⟩
  · exact ⟨.lit _, by simp [framePlan, decodeFrame, ruleFrame, hv, decodeFwRule, planOf, planFwYWindow]; rfl⟩
  · exact ⟨.lit _, by simp [framePlan, decodeFrame, ruleFrame, hv, decodeFwRule, planOf, planFwXCursor]; rfl⟩
  · exact ⟨.lit _, by simp [framePlan, decodeFrame, ruleFrame, hv, decodeFwRule, planOf, planFwYCursor]; rfl⟩

/-- A panel command of TRANSFER waits for nothing (R115, R117, R121). -/
theorem transferProgram_frames {s : State} {fmt : Level} {f : Frame} (hm : .frame f ∈ transferProgram s.cfg fmt)
    {u : State} (hu : seqOnly s u) : ∃ src, framePlan f u = commandPlan u.cfg f.op src false := by
  unfold transferProgram at hm
  cases hv : s.cfg.variant with
  | fw =>
    have hvu : u.cfg.variant = .fw := by rw [hu.cfg]; exact hv
    have hd := decodeFrame_fw hvu
    have : .frame f ∈ setWindow ∨ f = ruleFrame 0x24 ∨ f = ruleFrame 0x26 := by
      cases fmt <;> simp [hv, streamPlane] at hm <;> tauto
    rcases this with h | rfl | rfl
    · exact setWindow_frames h hvu
    · exact ⟨_, (framePlan_rule hd.2.2.1).trans rfl⟩
    · exact ⟨_, (framePlan_rule hd.2.2.2).trans rfl⟩
  | nf =>
    simp [hv, streamPlane] at hm; subst hm
    exact ⟨_, (framePlan_rule (decodeFrame_nf (c := u.cfg) (by rw [hu.cfg]; exact hv)).2.2).trans rfl⟩

/-- A TRANSFER raises nothing but TRANSPORT_FAILURE, for none of its commands waits (R115, R117). -/
theorem transferProgram_code {s t : State} {e : ErrCode} (h : runMicros (transferProgram s.cfg s.fmt) s = .raised e t) :
    e = .transportFailure := by
  have hf : ∀ f, .frame f ∈ transferProgram s.cfg s.fmt → ∀ u : State, seqOnly s u →
      ∃ src, framePlan f u = commandPlan u.cfg f.op src false := fun f hm u hu => transferProgram_frames hm hu
  have hp : ∀ p, .prim p ∈ transferProgram s.cfg s.fmt → p = .merge := fun p => mem_transferProgram
  revert hf hp h
  generalize transferProgram s.cfg s.fmt = ms
  intro h hf hp
  have key : ∀ (ms : List Micro) (u : State), seqOnly s u → runMicros ms u = .raised e t →
      (∀ f, .frame f ∈ ms → ∀ u : State, seqOnly s u → ∃ src, framePlan f u = commandPlan u.cfg f.op src false) →
      (∀ p, .prim p ∈ ms → p = .merge) → e = .transportFailure := by
    intro ms
    induction ms with
    | nil => intro u hu h _ _; simp [runMicros] at h
    | cons m ms ih =>
      intro u hu h hf hp
      rw [runMicros_cons] at h
      have hs := runPrims_seqOnly (m.expand u) u
      cases hr : runPrims (m.expand u) u with
      | ok v =>
        rw [hr] at h hs
        exact ih v (hu.trans hs) h (fun f hm => hf f (by simp [hm])) fun p hm => hp p (by simp [hm])
      | raised e' v =>
        rw [hr] at h; cases h
        cases m with
        | frame f =>
          obtain ⟨src, he⟩ := hf f (by simp) u hu
          change runPrims (framePlan f u) u = _ at hr
          rw [he] at hr; exact commandPlan_code hr
        | prim p => rw [hp p (by simp)] at hr; simp [Micro.expand, runPrims, runPrim] at hr
  exact key ms s rfl h hf hp

/-- A sleep table holds no `LUT` (R131). -/
theorem sleepSeq_lut {c : Config} (h : c.wf = true) : .lut ∉ c.sleepSeq := by
  intro hm
  simp only [Config.wf, Bool.and_eq_true] at h
  have := h.1.2
  unfold Config.sleepSeqOk at this
  split at this
  · simp at this
  · rename_i e hl
    simp only [Bool.and_eq_true, List.all_eq_true] at this
    have hne : c.sleepSeq ≠ [] := by rintro h0; rw [h0] at hm; simp at hm
    rw [List.getLast?_eq_getLast_of_ne_nil hne, Option.some.injEq] at hl
    rw [← List.dropLast_append_getLast hne, hl, List.mem_append, List.mem_singleton] at hm
    rcases hm with hm | hm
    · exact absurd (this.2 _ hm) (by simp [Config.sleepEntryOk])
    · rw [← hm] at this; exact absurd this.1 (by simp [Config.sleepLastOk])

/-- A panel command leaves CS deasserted, whether it returns or raises (R74, R75). -/
theorem commandPlan_cs (c : Config) (op : Byte) (src : Source) (wait : Bool) (s : State) :
    (runPrims (commandPlan c op src wait) s).state.pins.cs = false := by
  have hcf : (runPrims (commandFrame c op) s).state.pins.cs = false := by
    by_cases h : (setCs true (setDc false s)).xferOk = true <;> simp [commandFrame, runPrims, runPrim, h]
  have hd : ∀ t : State, t.pins.cs = false → (runPrims (dataFrame c src) t).state.pins.cs = false := by
    intro t ht
    unfold dataFrame
    split
    · exact ht
    · have hx : ∀ (l : List (Nat × Nat)) (u : State), (∃ v, runPrims (l.map fun p => Prim.xfer src p.1 p.2) u = .ok v) ∨ (runPrims (l.map fun p => Prim.xfer src p.1 p.2) u).state.pins.cs = false := by
        intro l
        induction l with
        | nil => intro u; exact .inl ⟨u, rfl⟩
        | cons p l ih =>
          intro u
          rw [List.map_cons, runPrims_cons]
          by_cases h : u.xferOk = true
          · simp only [runPrim, h, if_true, Res.bind_ok]; exact ih _
          · simp only [runPrim, h]; exact .inr rfl
      rw [List.cons_append, List.cons_append, runPrims_cons]
      show (((runPrims _ _))).state.pins.cs = _
      rw [runPrims_cons]
      show (((runPrims _ _))).state.pins.cs = _
      show (runPrims (((chunks c.maxChunk src.length).map fun p => Prim.xfer src p.1 p.2) ++ [Prim.csDeassert]) _).state.pins.cs = false
      rw [runPrims_append]
      rcases hx (chunks c.maxChunk src.length) (setCs true (setDc true t)) with ⟨v, hv⟩ | h
      · rw [hv]; rfl
      · revert h
        generalize runPrims ((chunks c.maxChunk src.length).map _) (setCs true (setDc true t)) = r
        intro h; cases r <;> first | rfl | exact h
  have hwt : ∀ t : State, t.pins.cs = false → (runPrims (busyWait wait) t).state.pins.cs = false := by
    intro t ht
    cases wait with
    | false => exact ht
    | true =>
      show (runPrims [.poll 0] t).state.pins.cs = false
      rw [runPrims_cons]
      have := (waitIdle_frame t.latch.timeout.toNat (t.maxPolls - 0) 0 t).2.1
      show ((waitIdle _ _ _ _).bind _).state.pins.cs = false
      cases hr : waitIdle t.latch.timeout.toNat (t.maxPolls - 0) 0 t <;> rw [hr] at this
      · simp [runPrims] at this ⊢; rw [this]; exact ht
      · simp [runPrims] at this ⊢; rw [this]; exact ht
  unfold commandPlan
  rw [runPrims_append, runPrims_append]
  cases h1 : runPrims (commandFrame c op) s with
  | raised e t => rw [h1] at hcf; exact hcf
  | ok t =>
    rw [h1] at hcf
    have h2 := hd t hcf
    simp only [Res.bind_ok]
    cases h3 : runPrims (dataFrame c src) t with
    | raised e t => rw [h3] at h2; exact h2
    | ok v => rw [h3] at h2; exact hwt v h2

end Sys2Proof.Machine
end

