-- ==== Sys2Proof/Laws/PerInstr.lean ====
section
/-! SUPPORT. What holds of every instruction, as syntax, by one lemma per constructor: its code is a CMD word with clear
reserved bits and a listed OP (R59, R60), or a panel command frame whose byte is its row's (R64, R67). -/

namespace Sys2Proof.Laws.TableOpcode

/-- A host operation's code is a CMD word with RSV = 0 and OP in 1 to 6; a panel command's is a frame with its byte. -/
def codeAgrees : Option Byte → Code → Prop
  | none, .hostWord w => cmdRsv w = 0 ∧ 1 ≤ (cmdOp w).toNat ∧ (cmdOp w).toNat ≤ 6
  | some b, .frame f => f.op = b
  | none, .frame _ => False
  | some _, .hostWord _ => False

/-- The instruction's code agrees with its row, on every EPDC. -/
def Statement (i : Instr) : Prop := ∀ c : Config, codeAgrees (Machine.panelByte c i) (encode c i)

theorem reset : Statement .reset := fun _ =>
  show codeAgrees none (.hostWord (cmdWord 0x01 false 0)) from by unfold codeAgrees; decide
theorem init (mode : Mode) : Statement (.init mode) := fun _ =>
  show codeAgrees none (.hostWord (cmdWord 0x02 false mode.code)) from by unfold codeAgrees; cases mode <;> decide
theorem transfer (win : Bool) : Statement (.transfer win) := fun _ =>
  show codeAgrees none (.hostWord (cmdWord 0x03 win 0)) from by unfold codeAgrees; cases win <;> decide
theorem refresh (mode : Mode) : Statement (.refresh mode) := fun _ =>
  show codeAgrees none (.hostWord (cmdWord 0x04 false mode.code)) from by unfold codeAgrees; cases mode <;> decide
theorem sleep : Statement .sleep := fun _ =>
  show codeAgrees none (.hostWord (cmdWord 0x05 false 0)) from by unfold codeAgrees; decide
theorem wake : Statement .wake := fun _ =>
  show codeAgrees none (.hostWord (cmdWord 0x06 false 0)) from by unfold codeAgrees; decide
theorem fwGateSetting (data : List Byte) (wait : Bool) : Statement (.fwGateSetting data wait) := fun _ => rfl
theorem fwGateVoltage (data : List Byte) (wait : Bool) : Statement (.fwGateVoltage data wait) := fun _ => rfl
theorem fwSourceVoltage (data : List Byte) (wait : Bool) : Statement (.fwSourceVoltage data wait) := fun _ => rfl
theorem fwBooster (data : List Byte) (wait : Bool) : Statement (.fwBooster data wait) := fun _ => rfl
theorem fwDeepSleep (data : List Byte) : Statement (.fwDeepSleep data) := fun _ => rfl
theorem fwDataEntryMode (data : List Byte) (wait : Bool) : Statement (.fwDataEntryMode data wait) := fun _ => rfl
theorem fwSensorEnable (data : List Byte) (wait : Bool) : Statement (.fwSensorEnable data wait) := fun _ => rfl
theorem fwRefreshTrigger : Statement .fwRefreshTrigger := fun _ => rfl
theorem fwUpdateControl : Statement .fwUpdateControl := fun _ => rfl
theorem fwRamWriteA : Statement .fwRamWriteA := fun _ => rfl
theorem fwRamWriteB : Statement .fwRamWriteB := fun _ => rfl
theorem fwVcom (data : List Byte) (wait : Bool) : Statement (.fwVcom data wait) := fun _ => rfl
theorem fwLutUpload : Statement .fwLutUpload := fun _ => rfl
theorem fwDisplayOption (data : List Byte) (wait : Bool) : Statement (.fwDisplayOption data wait) := fun _ => rfl
theorem fwBorder (data : List Byte) (wait : Bool) : Statement (.fwBorder data wait) := fun _ => rfl
theorem fwXWindow : Statement .fwXWindow := fun _ => rfl
theorem fwYWindow : Statement .fwYWindow := fun _ => rfl
theorem fwXCursor : Statement .fwXCursor := fun _ => rfl
theorem fwYCursor : Statement .fwYCursor := fun _ => rfl
theorem nfPowerOff (data : List Byte) (wait : Bool) : Statement (.nfPowerOff data wait) := fun _ => rfl
theorem nfPowerOn (data : List Byte) (wait : Bool) : Statement (.nfPowerOn data wait) := fun _ => rfl
theorem nfDeepSleep (data : List Byte) : Statement (.nfDeepSleep data) := fun _ => rfl
theorem nfTransmission1 : Statement .nfTransmission1 := fun _ => rfl
theorem nfLegacyRefresh : Statement .nfLegacyRefresh := fun _ => rfl
theorem nfTransmission2 : Statement .nfTransmission2 := fun _ => rfl
theorem nfRegLut0 : Statement .nfRegLut0 := fun _ => rfl
theorem nfRegLut1 : Statement .nfRegLut1 := fun _ => rfl
theorem nfRegLut2 : Statement .nfRegLut2 := fun _ => rfl
theorem nfRegLut3 : Statement .nfRegLut3 := fun _ => rfl
theorem nfRegLut4 : Statement .nfRegLut4 := fun _ => rfl

end Sys2Proof.Laws.TableOpcode
end

