-- ==== Sys2Proof/Laws/Protocol.lean ====
section
/-! SUPPORT. The bus protocol and the memories' form: every plan keeps the protocol, and what primitives and pseudocode
that keep it leave on the lines, in the trace and in the memories. -/

namespace Sys2Proof.Machine

/-! ### Framing of the trace (R79) -/

theorem framed_append (a b : List Event) :
    framed (a ++ b) = b.foldl (fun cs e => cs.bind fun v => e.framed v) (framed a) := by
  simp [framed, List.foldl_append]

theorem framed_delay {evs : List Event} (h : framed evs = some false) (ms : Nat) :
    framed (evs ++ delayEvents ms) = some false := by
  rw [framed_append, h]
  unfold delayEvents
  split <;> rfl

/-! ### What a primitive leaves on the lines -/

/-- The trace's frames are whole but for an open one while CS is asserted. -/
def State.framedOk (s : State) : Prop := framed s.trace = some s.pins.cs

theorem sampleBusy_framed {s : State} (hf : s.framedOk) (hc : s.pins.cs = false) : (sampleBusy s).framedOk := by
  unfold State.framedOk at *
  rw [sampleBusy_trace, sampleBusy_pins, framed_append, hf, hc]; rfl

theorem delay_framed {s : State} (hf : s.framedOk) (hc : s.pins.cs = false) (ms : Nat) : (delay ms s).framedOk := by
  unfold State.framedOk at *
  rw [delay_trace, delay_pins, hc]
  exact framed_delay (by rw [hf, hc]) ms

theorem waitIdle_framed {T fuel k : Nat} {s : State} (hf : s.framedOk) (hc : s.pins.cs = false) :
    (waitIdle T fuel k s).state.framedOk := by
  induction fuel generalizing k s with
  | zero =>
    by_cases hb : s.busyLevel = s.cfg.busyActive
    · rw [waitIdle_spent hb]; exact sampleBusy_framed hf hc
    · rw [waitIdle_idle hb]; exact delay_framed (sampleBusy_framed hf hc) hc _
  | succ fuel ih =>
    by_cases hb : s.busyLevel = s.cfg.busyActive
    · by_cases hT : T ≤ k * s.cfg.pollMs
      · rw [waitIdle_late hb hT]; exact sampleBusy_framed hf hc
      · rw [waitIdle_busy hb hT]; exact ih (delay_framed (sampleBusy_framed hf hc) hc _) hc
    · rw [waitIdle_idle hb]; exact delay_framed (sampleBusy_framed hf hc) hc _

/-- A primitive that the protocol allows leaves the lines as the protocol says, and CS deasserted and RST high if it
raises; the trace stays framed. -/
theorem runPrim_lines {p : Prim} {s : State} {cs rst : Bool} (h : p.lines s.pins.cs s.pins.rst = some (cs, rst))
    (hf : s.framedOk) :
    (runPrim p s).state.framedOk ∧
      match runPrim p s with
      | .ok t => t.pins.cs = cs ∧ t.pins.rst = rst
      | .raised _ t => t.pins.cs = false ∧ t.pins.rst = true := by
  have tail : ∀ (t : State) (e : Event) (v : Bool), t.trace = s.trace ++ [e] → e.framed s.pins.cs = some v →
      t.pins.cs = v → t.framedOk := by
    intro t e v ht he hv
    unfold State.framedOk at *
    rw [ht, framed_append, hf, hv]; exact he
  cases hcs : s.pins.cs <;> cases hrst : s.pins.rst <;> rw [hcs, hrst] at h <;> rw [hcs] at tail <;>
    cases p <;> simp only [Prim.lines, Bool.not_true, Bool.not_false, Bool.and_true, Bool.and_false, if_true, Bool.false_eq_true, if_false, Option.some.injEq, Prod.mk.injEq, reduceCtorEq] at h
  all_goals obtain ⟨rfl, rfl⟩ := h
  all_goals first
    | exact ⟨tail _ _ _ rfl rfl hcs, hcs, rfl⟩
    | exact ⟨tail _ _ _ rfl rfl hcs, hcs, hrst⟩
    | exact ⟨tail _ _ _ rfl rfl rfl, rfl, hrst⟩
    | exact ⟨delay_framed hf hcs _, hcs, hrst⟩
    | exact ⟨hf, hcs, hrst⟩
    | skip
  case xfer src lo hi =>
    unfold runPrim
    by_cases hx : s.xferOk = true
    · simp only [hx, if_true]
      exact ⟨tail _ _ _ (by rw [Res.state_ok, spiXfer_trace, if_pos hx]) rfl hcs, hcs, hrst⟩
    · simp only [hx]
      refine ⟨?_, rfl, hrst⟩
      unfold State.framedOk at *
      show framed ((spiXfer (src.slice s lo hi) s).trace ++ [.cs false]) = some false
      rw [spiXfer_trace, if_neg hx, List.append_assoc, framed_append, hf, hcs]; rfl
  case poll k =>
    have h1 := waitIdle_frame s.latch.timeout.toNat (s.maxPolls - k) k s
    have h2 := waitIdle_framed (T := s.latch.timeout.toNat) (fuel := s.maxPolls - k) (k := k) hf hcs
    refine ⟨h2, ?_⟩
    show match waitIdle s.latch.timeout.toNat (s.maxPolls - k) k s with
      | .ok t => t.pins.cs = false ∧ t.pins.rst = true
      | .raised _ t => t.pins.cs = false ∧ t.pins.rst = true
    cases hr : waitIdle s.latch.timeout.toNat (s.maxPolls - k) k s with
    | ok t =>
      rw [hr] at h1
      have := h1.2.1
      rw [Res.state_ok] at this
      exact ⟨by rw [this, hcs], by rw [this, hrst]⟩
    | raised c t =>
      rw [hr] at h1
      have := h1.2.1
      rw [Res.state_raised] at this
      exact ⟨by rw [this, hcs], by rw [this, hrst]⟩

/-- A run of primitives that the protocol allows, with more pseudocode behind it. -/
theorem runPrims_lines {ps : List Prim} {rest : List Micro} {s : State}
    (h : linesOk s.pins.cs s.pins.rst (ps.map .prim ++ rest) = true) (hf : s.framedOk) :
    (runPrims ps s).state.framedOk ∧
      match runPrims ps s with
      | .ok t => linesOk t.pins.cs t.pins.rst rest = true
      | .raised _ t => t.pins.cs = false ∧ t.pins.rst = true := by
  induction ps generalizing s with
  | nil => exact ⟨hf, h⟩
  | cons p ps ih =>
    rw [List.map_cons, List.cons_append, linesOk] at h
    split at h
    · rename_i cs rst hl
      have hp := runPrim_lines hl hf
      rw [runPrims_cons]
      cases hr : runPrim p s with
      | ok t =>
        rw [hr] at hp
        obtain ⟨hft, hcs, hrst⟩ := hp
        exact ih (s := t) (by rw [hcs, hrst]; exact h) hft
      | raised c t => rw [hr] at hp; exact hp
    · cases h

theorem linesOk_xfers (src : Source) (l : List (Nat × Nat)) (rest : List Micro) :
    linesOk true true ((l.map fun p => Prim.xfer src p.1 p.2).map .prim ++ rest) = linesOk true true rest := by
  induction l with
  | nil => rfl
  | cons p l ih => simpa [linesOk, Prim.lines] using ih

/-- A panel command keeps the protocol (R73, R79). -/
theorem linesOk_commandPlan (c : Config) (op : Byte) (src : Source) (wait : Bool) (rest : List Micro) :
    linesOk false true ((commandPlan c op src wait).map .prim ++ rest) = linesOk false true rest := by
  have hw : linesOk false true ((busyWait wait).map .prim ++ rest) = linesOk false true rest := by
    cases wait <;> simp [busyWait, linesOk, Prim.lines]
  have hd : ∀ rest', linesOk false true ((dataFrame c src).map .prim ++ rest') = linesOk false true rest' := by
    intro rest'
    unfold dataFrame
    split
    · rfl
    · have := linesOk_xfers src (chunks c.maxChunk src.length) (.prim .csDeassert :: rest')
      simp only [List.map_append, List.map_cons, List.map_nil, List.append_assoc, List.cons_append, List.nil_append,
        linesOk, Prim.lines, Bool.not_false, Bool.and_self, if_true] at this ⊢
      exact this
  rw [commandPlan, List.map_append, List.map_append, List.append_assoc, List.append_assoc]
  simp only [commandFrame, List.map_cons, List.map_nil, List.cons_append, List.nil_append, linesOk, Prim.lines,
    Bool.not_false, Bool.and_self, if_true]
  rw [hd, hw]

theorem linesOk_frame {cs rst : Bool} {f : Frame} {rest : List Micro} (h : linesOk cs rst (.frame f :: rest) = true) :
    cs = false ∧ rst = true ∧ linesOk false true rest = true := by
  rw [linesOk] at h
  cases cs <;> cases rst <;> simp_all

/-- A piece of pseudocode may be put in its expansion's place. -/
theorem linesOk_expand {cs rst : Bool} {m : Micro} {rest : List Micro} (h : linesOk cs rst (m :: rest) = true)
    (s : State) : linesOk cs rst ((m.expand s).map .prim ++ rest) = true := by
  cases m with
  | prim p => exact h
  | frame f =>
    obtain ⟨rfl, rfl, hr⟩ := linesOk_frame h
    obtain ⟨src, wait, he⟩ := framePlan_eq f s
    show linesOk false true ((framePlan f s).map .prim ++ rest) = true
    rw [he, linesOk_commandPlan]; exact hr

/-- Pseudocode that keeps the protocol to its end leaves CS deasserted and RST high, whether it returns or raises. -/
theorem runMicros_lines {ms : List Micro} {s : State} (h : linesOk s.pins.cs s.pins.rst ms = true) (hf : s.framedOk) :
    (runMicros ms s).state.framedOk ∧ (runMicros ms s).state.pins.cs = false
      ∧ (runMicros ms s).state.pins.rst = true := by
  induction ms generalizing s with
  | nil =>
    simp only [linesOk, Bool.and_eq_true, Bool.not_eq_true'] at h
    exact ⟨hf, h.1, h.2⟩
  | cons m ms ih =>
    have hp := runPrims_lines (linesOk_expand h s) hf
    rw [runMicros_cons]
    cases hr : runPrims (m.expand s) s with
    | ok t => rw [hr] at hp; exact ih hp.2 hp.1
    | raised c t => rw [hr] at hp; exact ⟨hp.1, hp.2.1, hp.2.2⟩

/-! ### The operations' own pseudocode -/

theorem linesOk_append {cs rst : Bool} {ms ns : List Micro} (h : linesOk cs rst ms = true)
    (h' : linesOk false true ns = true) : linesOk cs rst (ms ++ ns) = true := by
  induction ms generalizing cs rst with
  | nil => cases cs <;> cases rst <;> simp_all [linesOk]
  | cons m ms ih =>
    cases m with
    | frame f =>
      rw [List.cons_append, linesOk] at *
      cases cs <;> cases rst <;> simp_all
    | prim p =>
      rw [List.cons_append, linesOk] at *
      split at h
      · exact ih h
      · cases h

/-- The pulse may begin with RST at any level (R96). -/
theorem linesOk_resetPulse (c : Config) (rst : Bool) : linesOk false rst ((resetPulse c).map .prim) = true := by
  cases rst <;> rfl

theorem linesOk_installLut (c : Config) (m : Mode) : linesOk false true (installLut c m) = true := by
  unfold installLut; cases c.variant <;> rfl

theorem linesOk_runSeq (c : Config) (m : Mode) (table : List SeqEntry) :
    linesOk false true (runSeq c m table) = true := by
  induction table with
  | nil => rfl
  | cons e es ih =>
    refine linesOk_append (ms := entrySteps c m e) ?_ ih
    cases e with
    | lut =>
      show linesOk false true (if c.hasProfile m then installLut c m else []) = true
      split <;> [exact linesOk_installLut c m; rfl]
    | _ => rfl

theorem linesOk_initProgram (c : Config) (m : Mode) (rst : Bool) : linesOk false rst (initProgram c m) = true :=
  linesOk_append (linesOk_resetPulse c rst) (linesOk_runSeq c m c.initSeq)

theorem linesOk_transferProgram (c : Config) (fmt : Level) : linesOk false true (transferProgram c fmt) = true := by
  unfold transferProgram; cases c.variant <;> cases fmt <;> rfl

theorem linesOk_refreshProgram (s : State) (m : Mode) : linesOk false true (refreshProgram s m) = true := by
  unfold refreshProgram
  refine linesOk_append (linesOk_append (linesOk_append ?_ ?_) ?_) rfl
  · unfold ensureLut; split <;> [exact linesOk_installLut _ m; rfl]
  · unfold sendOld; cases m.isDiff <;> cases s.cfg.variant <;> rfl
  · unfold trigger; cases s.cfg.variant <;> rfl

/-! ### The memories' form -/

/-- NEW and OLD are in canonical form and within their capacity (R37). -/
def State.slotsOk (s : State) : Prop :=
  s.new.wf (some white) = true ∧ s.new.below s.cfg.slotCap = true ∧ s.old.wf (some white) = true
    ∧ s.old.below s.cfg.slotCap = true

theorem runPrim_slotsOk {p : Prim} {s : State} (h : s.slotsOk) : (runPrim p s).state.slotsOk := by
  obtain ⟨h1, h2, h3, h4⟩ := h
  by_cases hb : p.isBus = true
  · have := (runPrim_bus hb s).1
    unfold State.slotsOk
    rw [this.new, this.old, this.cfg]; exact ⟨h1, h2, h3, h4⟩
  · cases p with
    | merge => exact ⟨Memory.setAll_wf _ _ h1, Memory.setAll_below _ _ h2, h3, h4⟩
    | copyForward =>
      refine ⟨h1, h2, ?_, ?_⟩
      · refine Memory.append_wf (Memory.filter_wf _ h1) (Memory.filter_wf _ h3) fun c hc d hd => ?_
        have hc' := List.mem_filter.mp hc
        have hd' := List.mem_filter.mp hd
        simp only [decide_eq_true_eq] at hc' hd'
        omega
      · refine Memory.below_iff.mpr fun c hc => ?_
        rcases List.mem_append.mp hc with hc | hc
        · exact of_decide_eq_true (List.mem_filter.mp hc).2
        · exact Memory.below_iff.mp h4 c (List.mem_of_mem_filter hc)
    | setRst v => exact ⟨h1, h2, h3, h4⟩
    | lutClear => exact ⟨h1, h2, h3, h4⟩
    | lutSet m => exact ⟨h1, h2, h3, h4⟩
    | raiseTransport => exact ⟨h1, h2, h3, h4⟩
    | setDc v => simp [Prim.isBus] at hb
    | csAssert => simp [Prim.isBus] at hb
    | csDeassert => simp [Prim.isBus] at hb
    | xfer src lo hi => simp [Prim.isBus] at hb
    | delay ms => simp [Prim.isBus] at hb
    | poll k => simp [Prim.isBus] at hb

theorem runPrims_slotsOk {ps : List Prim} {s : State} (h : s.slotsOk) : (runPrims ps s).state.slotsOk :=
  runPrims_rel (R := fun s t => s.slotsOk → t.slotsOk) (fun _ => id) (fun h h' hs => h' (h hs))
    (fun _ _ _ ht => runPrim_slotsOk ht) s h

theorem runMicros_slotsOk {ms : List Micro} {s : State} (h : s.slotsOk) : (runMicros ms s).state.slotsOk :=
  runMicros_rel (R := fun s t => s.slotsOk → t.slotsOk) (fun _ => id) (fun h h' hs => h' (h hs))
    (fun _ _ _ _ _ _ ht => runPrim_slotsOk ht) s h

/-- A write to STAGE keeps its form (R37). -/
theorem writeStage_form {s : State} (cells : List Host.Cell) (h : s.stage.wf none = true)
    (h' : s.stage.below s.cfg.slotCap = true) :
    (writeStage cells s).stage.wf none = true ∧ (writeStage cells s).stage.below s.cfg.slotCap = true :=
  ⟨Memory.setAll_wf _ _ h, Memory.setAll_below _ _ h'⟩

end Sys2Proof.Machine
end

