-- ==== Sys2Proof/Laws/Simulation.lean ====
section
/-! SUPPORT. Two runs side by side: a relation between states that every primitive keeps, a whole run of pseudocode
keeps; and the pseudocode of INIT reads no memory, so it has such runs from states that agree on what it reads (R105,
R106). -/

namespace Sys2Proof.Machine

/-- Two results are related: both return, or both raise the same error, with related states. -/
def RelRes (R : State → State → Prop) : Res → Res → Prop
  | .ok s, .ok s' => R s s'
  | .raised c s, .raised c' s' => c = c' ∧ R s s'
  | _, _ => False

/-- A relation carries over from a part of a run to the rest. -/
theorem bind_sim {R : State → State → Prop} {r r' : Res} {f f' : State → Res} (h : RelRes R r r') (hf : ∀ s s', R s s' → RelRes R (f s) (f' s')) :
    RelRes R (r.bind f) (r'.bind f') := by
  cases r <;> cases r' <;> simp [RelRes] at h
  · exact hf _ _ h
  · exact h

/-- Primitives that keep a relation, run side by side, keep it. -/
theorem runPrims_sim {R : State → State → Prop} {ps : List Prim} (h : ∀ p ∈ ps, ∀ s s', R s s' → RelRes R (runPrim p s) (runPrim p s'))
   {s s'} (hr : R s s') : RelRes R (runPrims ps s) (runPrims ps s') := by
  induction ps generalizing s s' with
  | nil => exact hr
  | cons p ps ih =>
    rw [runPrims_cons, runPrims_cons]
    exact bind_sim (h p (by simp) _ _ hr) fun t t' ht => ih (fun q hq => h q (by simp [hq])) ht

/-- Pseudocode that expands alike on related states keeps a relation that its primitives keep. -/
theorem runMicros_sim {R : State → State → Prop} {ms : List Micro}
   (h : ∀ m ∈ ms, ∀ s s', R s s' → m.expand s = m.expand s' ∧ ∀ p ∈ m.expand s, ∀ t t', R t t' → RelRes R (runPrim p t) (runPrim p t'))
   {s s'} (hr : R s s') : RelRes R (runMicros ms s) (runMicros ms s') := by
  induction ms generalizing s s' with
  | nil => exact hr
  | cons m ms ih =>
    rw [runMicros_cons, runMicros_cons]
    have hm := h m (by simp) _ _ hr
    rw [← hm.1]
    exact bind_sim (runPrims_sim hm.2 hr) fun t t' ht => ih (fun q hq => h q (by simp [hq])) ht

/-- A primitive that reads no memory and raises no bare error. -/
def Prim.isLit : Prim → Prop
  | .xfer src _ _ => ∃ b, src = .lit b
  | .merge => False
  | .copyForward => False
  | .raiseTransport => False
  | .setRst _ => True
  | .setDc _ => True
  | .csAssert => True
  | .csDeassert => True
  | .delay _ => True
  | .poll _ => True
  | .lutClear => True
  | .lutSet _ => True

theorem commandPlan_isLit (c op b wait) : ∀ p ∈ commandPlan c op (.lit b) wait, Prim.isLit p := by
  intro p hp
  simp only [commandPlan, List.mem_append] at hp
  rcases hp with (hp | hp) | hp
  · simp only [commandFrame, List.mem_cons, List.not_mem_nil, or_false] at hp
    rcases hp with rfl | rfl | rfl | rfl | rfl <;> simp [Prim.isLit]
  · unfold dataFrame at hp
    split at hp
    · simp at hp
    · simp only [List.cons_append, List.mem_cons, List.mem_append, List.mem_map, List.not_mem_nil, or_false] at hp
      rcases hp with rfl | rfl | ⟨q, -, rfl⟩ | rfl <;> simp [Prim.isLit]
  · cases wait <;> simp [busyWait] at hp
    subst hp; simp [Prim.isLit]

/-- The frames of INIT carry bytes that the parameters and the mode give. -/
theorem initProgram_frames {c : Config} (hc : c.wf = true) (m : Mode) : ∀ f, .frame f ∈ initProgram c m → ∃ bytes wait, ∀ s : State, s.cfg = c → s.latch.op ≠ .transfer → s.latch.mode = m →
    framePlan f s = commandPlan c f.op (.lit bytes) wait := by
  intro f hf
  have hlut : .frame f ∈ installLut c m → ∃ bytes wait, ∀ s : State, s.cfg = c → s.latch.op ≠ .transfer → s.latch.mode = m →
    framePlan f s = commandPlan c f.op (.lit bytes) wait := by
    intro h
    unfold installLut at h
    cases hv : c.variant with
    | fw =>
      simp [hv] at h; subst h
      exact ⟨c.lutFlash.get m, true, fun s h1 h2 h3 => by subst h1; simp [framePlan, decodeFrame, ruleFrame, hv, decodeFwRule, planOf,
      planFwLutUpload, h3]⟩
    | nf =>
      have hd := decodeFrame_regLut hc hv
      simp [hv, Five.toList] at h
      rcases h with h | h | h | h | h <;> subst h
      · exact ⟨regLutTable c 0 m, false, fun s h1 h2 h3 => by subst h1; subst h3; simp only [framePlan, hd, planOf]; rfl⟩
      · exact ⟨regLutTable c 1 m, false, fun s h1 h2 h3 => by subst h1; subst h3; simp only [framePlan, hd, planOf]; rfl⟩
      · exact ⟨regLutTable c 2 m, false, fun s h1 h2 h3 => by subst h1; subst h3; simp only [framePlan, hd, planOf]; rfl⟩
      · exact ⟨regLutTable c 3 m, false, fun s h1 h2 h3 => by subst h1; subst h3; simp only [framePlan, hd, planOf]; rfl⟩
      · exact ⟨regLutTable c 4 m, true, fun s h1 h2 h3 => by subst h1; subst h3; simp only [framePlan, hd, planOf]; rfl⟩
  rcases List.mem_append.1 hf with h | h
  · simp [resetPulse] at h
  · simp only [runSeq, List.mem_flatMap] at h
    obtain ⟨e, he, h⟩ := h
    cases e with
    | cmd op data wait =>
      simp [entrySteps] at h; subst h
      exact ⟨data, wait, fun s h1 _ _ => by subst h1; exact framePlan_table op data wait s⟩
    | wait => simp [entrySteps] at h
    | windowFull =>
      have hv := initSeq_windowFull hc he
      simp [entrySteps, setWindow] at h
      rcases h with h | h | h | h <;> subst h
      · exact ⟨fXWin c 0 c.width, false, fun s h1 h2 h3 => by
          subst h1; subst h3; have hrect : s.rect = fullRect s.cfg := by simp [State.rect, h2]
          simp [framePlan, decodeFrame, ruleFrame, hv, decodeFwRule, planOf, planFwXWindow, hrect]; rfl⟩
      · exact ⟨fYWin c 0 c.height, false, fun s h1 h2 h3 => by
          subst h1; subst h3; have hrect : s.rect = fullRect s.cfg := by simp [State.rect, h2]
          simp [framePlan, decodeFrame, ruleFrame, hv, decodeFwRule, planOf, planFwYWindow, hrect]; rfl⟩
      · exact ⟨fXCur c 0, false, fun s h1 h2 h3 => by
          subst h1; subst h3; have hrect : s.rect = fullRect s.cfg := by simp [State.rect, h2]
          simp [framePlan, decodeFrame, ruleFrame, hv, decodeFwRule, planOf, planFwXCursor, hrect]; rfl⟩
      · exact ⟨fYCur c 0, false, fun s h1 h2 h3 => by
          subst h1; subst h3; have hrect : s.rect = fullRect s.cfg := by simp [State.rect, h2]
          simp [framePlan, decodeFrame, ruleFrame, hv, decodeFwRule, planOf, planFwYCursor, hrect]; rfl⟩
    | lut => simp [entrySteps] at h; exact hlut h.2

/-- INIT run side by side from two states that agree on the parameters and the latched mode. -/
theorem initProgram_sim {R : State → State → Prop} {c : Config} (hc : c.wf = true) (m : Mode)
   (hR : ∀ s s', R s s' → s.cfg = c ∧ s'.cfg = c ∧ s.latch.op ≠ .transfer ∧ s'.latch.op ≠ .transfer ∧ s.latch.mode = m ∧ s'.latch.mode = m)
   (hp : ∀ p, Prim.isLit p → ∀ s s', R s s' → RelRes R (runPrim p s) (runPrim p s')) {s s'} (hr : R s s') :
   RelRes R (runMicros (initProgram c m) s) (runMicros (initProgram c m) s') := by
  refine runMicros_sim ?_ hr
  intro mi hmi t t' ht
  cases mi with
  | frame f =>
    obtain ⟨b, w, h⟩ := initProgram_frames hc m f hmi
    obtain ⟨h1, h2, h3, h4, h5, h6⟩ := hR _ _ ht
    refine ⟨?_, ?_⟩
    · show framePlan f t = framePlan f t'
      rw [h t h1 h3 h5, h t' h2 h4 h6]
    · show ∀ p ∈ framePlan f t, _
      rw [h t h1 h3 h5]
      intro p hpp; exact hp p (commandPlan_isLit _ _ _ _ p hpp)
  | prim p =>
    refine ⟨rfl, fun q hq => ?_⟩
    simp only [Micro.expand, List.mem_singleton] at hq; subst hq
    apply hp
    rcases mem_initProgram hmi with ⟨v, h⟩ | ⟨ms, h⟩ | h | h | h <;> subst h <;> simp [Prim.isLit]

end Sys2Proof.Machine
end

