-- ==== Sys2Proof/Laws/Stepping.lean ====
section
/-! SUPPORT. The sequencer's primitive steps, one after another, do what the run of a procedure does at once. -/

namespace Sys2Proof.Machine

/-- Steps of the sequencer compose. -/
theorem sequencerSteps_add (m n : Nat) (s : State) : sequencerSteps (m + n) s = sequencerSteps n (sequencerSteps m s) := by
  induction m generalizing s with
  | zero => simp [sequencerSteps]
  | succ m ih => rw [Nat.succ_add]; simp only [sequencerSteps]; exact ih _

/-- What primitive steps leave where a procedure answers r, with `rest` behind it. -/
def Res.after (r : Res) (rest : List Micro) : State := match r with | .ok t => { t with todo := rest } | .raised c t => abort c t

theorem abort_withTodo (c : ErrCode) (s : State) (ms : List Micro) : abort c { s with todo := ms } = abort c s := by
  unfold abort; cases s.latch.op <;> rfl

theorem pollStep_idle {k : Nat} {rest : List Micro} {s : State} (h : s.busyLevel ≠ s.cfg.busyActive) (ms : List Micro) :
    pollStep k rest { s with todo := ms } = { sampleBusy s with todo := .prim (.delay s.cfg.postIdleMs) :: rest } := if_pos h
theorem pollStep_late {k : Nat} {rest : List Micro} {s : State} (h : s.busyLevel = s.cfg.busyActive) (hT : s.latch.timeout.toNat ≤ k * s.cfg.pollMs) (ms : List Micro) :
    pollStep k rest { s with todo := ms } = abort .busyTimeout (sampleBusy s) := by
  refine (if_neg (not_not.2 h)).trans ((if_pos hT).trans ?_)
  exact abort_withTodo _ (sampleBusy s) _
theorem pollStep_busy {k : Nat} {rest : List Micro} {s : State} (h : s.busyLevel = s.cfg.busyActive) (hT : ¬ s.latch.timeout.toNat ≤ k * s.cfg.pollMs) (ms : List Micro) :
    pollStep k rest { s with todo := ms } = { sampleBusy s with todo := .prim (.delay s.cfg.pollMs) :: .prim (.poll (k + 1)) :: rest } :=
  (if_neg (not_not.2 h)).trans (if_neg hT)

/-- The primitive steps of a busy-wait make the busy-wait (R82). -/
theorem waitIdle_steps {p : Nat} (rest : List Micro) : ∀ fuel k (s : State), s.cfg.pollMs = p → s.latch.timeout.toNat ≤ (k + fuel) * p →
    ∃ n, sequencerSteps n { s with todo := .prim (.poll k) :: rest } = Res.after (waitIdle s.latch.timeout.toNat fuel k s) rest := by
  intro fuel
  induction fuel with
  | zero =>
    intro k s hc hT
    by_cases hb : s.busyLevel ≠ s.cfg.busyActive
    · rw [waitIdle_idle hb]
      refine ⟨2, ?_⟩
      show sequencerSteps 1 (pollStep k rest { s with todo := .prim (.poll k) :: rest }) = _
      rw [pollStep_idle hb]; rfl
    · have hb' : s.busyLevel = s.cfg.busyActive := by simpa using hb
      rw [waitIdle_spent hb']
      exact ⟨1, pollStep_late hb' (by rw [hc]; simpa using hT) _⟩
  | succ fuel ih =>
    intro k s hc hT
    by_cases hb : s.busyLevel ≠ s.cfg.busyActive
    · rw [waitIdle_idle hb]
      refine ⟨2, ?_⟩
      show sequencerSteps 1 (pollStep k rest { s with todo := .prim (.poll k) :: rest }) = _
      rw [pollStep_idle hb]; rfl
    · have hb' : s.busyLevel = s.cfg.busyActive := by simpa using hb
      by_cases hT' : s.latch.timeout.toNat ≤ k * s.cfg.pollMs
      · rw [waitIdle_late hb' hT']
        exact ⟨1, pollStep_late hb' hT' _⟩
      · rw [waitIdle_busy hb' hT']
        obtain ⟨n, hn⟩ := ih (k + 1) (delay s.cfg.pollMs (sampleBusy s)) hc (by show s.latch.timeout.toNat ≤ _; rw [show k + 1 + fuel = k + (fuel + 1) by omega]; exact hT)
        refine ⟨2 + n, ?_⟩
        rw [sequencerSteps_add]
        have : sequencerSteps 2 { s with todo := .prim (.poll k) :: rest } = { delay s.cfg.pollMs (sampleBusy s) with todo := .prim (.poll (k + 1)) :: rest } := by
          show sequencerSteps 1 (pollStep k rest { s with todo := .prim (.poll k) :: rest }) = _
          rw [pollStep_busy hb' hT']; rfl
        rw [this]; exact hn

theorem ceil_ge {a b : Nat} (hb : 1 ≤ b) : a ≤ ceilDiv a b * b := by
  by_contra h
  have : ceilDiv a b < ceilDiv a b := by rw [lt_ceilDiv_iff hb]; omega
  omega

/-- The primitive steps of a primitive make the primitive (R35). -/
theorem runPrim_steps (p : Prim) (rest : List Micro) (s : State) (hp : 1 ≤ s.cfg.pollMs) :
   ∃ n, sequencerSteps n { s with todo := .prim p :: rest } = Res.after (runPrim p s) rest := by
  cases p with
  | poll k =>
    refine waitIdle_steps rest _ k s rfl ?_
    have := ceil_ge (a := s.latch.timeout.toNat) hp
    show _ ≤ (k + (s.maxPolls - k)) * _
    refine this.trans (Nat.mul_le_mul_right _ ?_)
    show s.maxPolls ≤ _; omega
  | xfer src lo hi =>
    have hsl : src.slice { s with todo := .prim (.xfer src lo hi) :: rest } lo hi = src.slice s lo hi := by
      unfold Source.slice; cases src <;> rfl
    by_cases hx : s.xferOk = true
    · refine ⟨1, ?_⟩
      refine (if_pos (show State.xferOk { s with todo := .prim (.xfer src lo hi) :: rest } = true from hx)).trans ?_
      unfold runPrim
      rw [hsl]; simp only [hx, if_true]; rfl
    · refine ⟨3, ?_⟩
      have e : xferStep src lo hi rest { s with todo := .prim (.xfer src lo hi) :: rest } = { spiXfer (src.slice s lo hi) s with todo := [.prim .csDeassert, .prim .raiseTransport] } := by
        refine (if_neg (show ¬ State.xferOk { s with todo := .prim (.xfer src lo hi) :: rest } = true from hx)).trans ?_
        rw [hsl]; rfl
      show sequencerSteps 2 (xferStep src lo hi rest { s with todo := .prim (.xfer src lo hi) :: rest }) = _
      rw [e]
      unfold runPrim
      simp only [hx]
      exact abort_withTodo _ (setCs false (spiXfer (src.slice s lo hi) s)) _
  | raiseTransport => exact ⟨1, abort_withTodo _ _ _⟩
  | merge => exact ⟨1, rfl⟩
  | _ => exact ⟨1, rfl⟩

/-- The primitive steps of a list of primitives make the list's run. -/
theorem runPrims_steps (ps : List Prim) (rest : List Micro) (s : State) (hp : 1 ≤ s.cfg.pollMs) :
   ∃ n, sequencerSteps n { s with todo := ps.map .prim ++ rest } = Res.after (runPrims ps s) rest := by
  induction ps generalizing s with
  | nil => exact ⟨0, rfl⟩
  | cons p ps ih =>
    obtain ⟨n, hn⟩ := runPrim_steps p (ps.map .prim ++ rest) s hp
    have hs := runPrim_seqOnly p s
    rw [runPrims_cons]
    cases hr : runPrim p s with
    | raised c t => rw [hr] at hn; exact ⟨n, hn⟩
    | ok t =>
      rw [hr] at hn hs
      obtain ⟨m, hm⟩ := ih t (by rw [show t.cfg = s.cfg from hs.cfg]; exact hp)
      refine ⟨n + m, ?_⟩
      rw [sequencerSteps_add]
      change sequencerSteps n { s with todo := .prim p :: (ps.map .prim ++ rest) } = _ at hn
      rw [List.map_cons, List.cons_append, hn]; exact hm

theorem framePlan_todo (f : Frame) (s : State) (ms : List Micro) : framePlan f { s with todo := ms } = framePlan f s := by
  unfold framePlan
  show (match decodeFrame s.cfg f with | .ok i => planOf i { s with todo := ms } | .error _ => rawPlan f { s with todo := ms }) = _
  cases decodeFrame s.cfg f with
  | error e => rfl
  | ok i => cases i <;> rfl

/-- The primitive steps of an operation's pseudocode make the operation, to its end. -/
theorem runTodo_steps (ms : List Micro) (s : State) (hp : 1 ≤ s.cfg.pollMs) : ∃ n, sequencerSteps n { s with todo := ms } = runTodo ms s := by
  induction ms generalizing s with
  | nil =>
    refine ⟨1, ?_⟩
    show finish { s with todo := [] } = finish s
    unfold finish; cases s.latch.op <;> rfl
  | cons m ms ih =>
    have key : ∃ n, sequencerSteps n { s with todo := m :: ms } = Res.after (runPrims (m.expand s) s) ms := by
      cases m with
      | prim p =>
        obtain ⟨n, hn⟩ := runPrims_steps [p] ms s hp
        exact ⟨n, hn⟩
      | frame f =>
        obtain ⟨n, hn⟩ := runPrims_steps (framePlan f s) ms s hp
        refine ⟨1 + n, ?_⟩
        rw [sequencerSteps_add]
        have : sequencerSteps 1 { s with todo := .frame f :: ms } = { s with todo := (framePlan f s).map .prim ++ ms } := by
          show sequencerStep { s with todo := .frame f :: ms } = _
          rw [sequencerStep_frame (s := { s with todo := .frame f :: ms }) (f := f) (rest := ms) rfl, framePlan_todo]
        rw [this]; exact hn
    obtain ⟨n, hn⟩ := key
    have hs := runPrims_seqOnly (m.expand s) s
    rw [runTodo]
    cases hr : runPrims (m.expand s) s with
    | raised c t => rw [hr] at hn; exact ⟨n, hn⟩
    | ok t =>
      rw [hr] at hn hs
      obtain ⟨k, hk⟩ := ih t (by rw [show t.cfg = s.cfg from hs.cfg]; exact hp)
      exact ⟨n + k, by rw [sequencerSteps_add, hn]; exact hk⟩

end Sys2Proof.Machine
end

