-- ==== Sys2Proof/Laws/Timing.lean ====
section
/-! SUPPORT. The timed milliseconds of what the sequencer runs (R190): of a primitive, of a panel command, and of the
pseudocode of each operation, under every sequence of draws that lets it return. -/

namespace Sys2Proof.Machine

/-! ### Traces -/

@[simp] theorem timedMs_append (a b : List Event) : timedMs (a ++ b) = timedMs a + timedMs b := by
  induction a with
  | nil => simp [timedMs]
  | cons e a ih => cases e <;> simp [timedMs, ih]; omega

@[simp] theorem timedMs_delay (ms : Nat) : timedMs (delayEvents ms) = ms := by
  unfold delayEvents; split <;> simp_all [timedMs]

@[simp] theorem busyCount_append (c : Config) (a b : List Event) :
    busyCount c (a ++ b) = busyCount c a + busyCount c b := List.count_append

@[simp] theorem busyCount_delay (c : Config) (ms : Nat) : busyCount c (delayEvents ms) = 0 := by
  unfold delayEvents; split <;> simp [busyCount]

/-! ### Primitives -/

/-- The milliseconds of a primitive that returns, besides its poll delays (R16, R82). -/
def Prim.fixedMs (c : Config) : Prim → Nat
  | .delay ms => ms
  | .poll _ => c.postIdleMs
  | .setRst _ => 0
  | .setDc _ => 0
  | .csAssert => 0
  | .csDeassert => 0
  | .xfer _ _ _ => 0
  | .merge => 0
  | .copyForward => 0
  | .lutClear => 0
  | .lutSet _ => 0
  | .raiseTransport => 0

/-- From s to t the trace grew by events of ms milliseconds and the poll delays of their busy samples. -/
def Timed (s t : State) (ms : Nat) : Prop :=
  ∃ evs, t.trace = s.trace ++ evs ∧ timedMs evs = ms + busyCount s.cfg evs * s.cfg.pollMs

theorem Timed.refl (s : State) : Timed s s 0 := ⟨[], by simp, by simp [timedMs, busyCount]⟩

theorem Timed.trans {s t u : State} {a b : Nat} (h : Timed s t a) (h' : Timed t u b) (hc : t.cfg = s.cfg) :
    Timed s u (a + b) := by
  obtain ⟨e, he, hm⟩ := h
  obtain ⟨e', he', hm'⟩ := h'
  rw [hc] at hm'
  exact ⟨e ++ e', by rw [he', he, List.append_assoc], by rw [timedMs_append, busyCount_append, hm, hm']; ring⟩

/-- A busy-wait that returns (R82). -/
theorem waitIdle_timed {T fuel k : Nat} {s t : State} (h : waitIdle T fuel k s = .ok t) : Timed s t s.cfg.postIdleMs := by
  have idle : ∀ {s : State}, s.busyLevel ≠ s.cfg.busyActive →
      Timed s (delay s.cfg.postIdleMs (sampleBusy s)) s.cfg.postIdleMs := by
    intro s hb
    refine ⟨.busySample s.busyLevel :: delayEvents s.cfg.postIdleMs, by simp, ?_⟩
    have := busyCount_delay s.cfg s.cfg.postIdleMs
    unfold busyCount at this
    simp [timedMs, busyCount, hb, this]
  induction fuel generalizing k s with
  | zero =>
    by_cases hb : s.busyLevel ≠ s.cfg.busyActive
    · rw [waitIdle_idle hb] at h; cases h
      exact idle hb
    · rw [waitIdle_spent (by simpa using hb)] at h; cases h
  | succ fuel ih =>
    by_cases hb : s.busyLevel ≠ s.cfg.busyActive
    · rw [waitIdle_idle hb] at h; cases h
      exact idle hb
    · have hb' : s.busyLevel = s.cfg.busyActive := by simpa using hb
      by_cases hT : T ≤ k * s.cfg.pollMs
      · rw [waitIdle_late hb' hT] at h; cases h
      · rw [waitIdle_busy hb' hT] at h
        obtain ⟨e, he, hm⟩ := ih h
        change t.trace = _ at he
        change timedMs e = s.cfg.postIdleMs + busyCount s.cfg e * s.cfg.pollMs at hm
        refine ⟨.busySample s.cfg.busyActive :: delayEvents s.cfg.pollMs ++ e, by rw [he]; simp [hb'], ?_⟩
        have := busyCount_delay s.cfg s.cfg.pollMs
        unfold busyCount at this hm ⊢
        simp [timedMs, this, hm]; ring

/-- A primitive that returns. -/
theorem runPrim_timed {p : Prim} {s t : State} (h : runPrim p s = .ok t) : Timed s t (p.fixedMs s.cfg) := by
  cases p with
  | poll k => exact waitIdle_timed h
  | xfer src lo hi =>
    unfold runPrim at h
    by_cases hx : s.xferOk = true
    · simp only [hx, if_true] at h; cases h
      exact ⟨[.xfer (src.slice s lo hi)], by simp [hx], by simp [timedMs, busyCount, Prim.fixedMs]⟩
    · simp [hx] at h
  | raiseTransport => cases h
  | delay ms => cases h; exact ⟨delayEvents ms, by simp, by simp [Prim.fixedMs]⟩
  | setRst v => cases h; exact ⟨[.pin .rst v], by simp, by simp [timedMs, busyCount, Prim.fixedMs]⟩
  | setDc v => cases h; exact ⟨[.pin .dc v], by simp, by simp [timedMs, busyCount, Prim.fixedMs]⟩
  | csAssert => cases h; exact ⟨[.cs true], by simp, by simp [timedMs, busyCount, Prim.fixedMs]⟩
  | csDeassert => cases h; exact ⟨[.cs false], by simp, by simp [timedMs, busyCount, Prim.fixedMs]⟩
  | merge => cases h; exact Timed.refl s
  | copyForward => cases h; exact Timed.refl s
  | lutClear => cases h; exact Timed.refl s
  | lutSet m => cases h; exact Timed.refl s

/-- A list of primitives that returns. -/
theorem runPrims_timed {ps : List Prim} {s t : State} (h : runPrims ps s = .ok t) :
    Timed s t (ps.map (Prim.fixedMs s.cfg)).sum := by
  induction ps generalizing s with
  | nil => cases h; exact Timed.refl _
  | cons p ps ih =>
    rw [runPrims_cons] at h
    have hs : seqOnly s (runPrim p s).state := runPrim_seqOnly p s
    cases hp : runPrim p s with
    | raised c u => rw [hp] at h; cases h
    | ok u =>
      rw [hp] at h hs
      have hc : u.cfg = s.cfg := hs.cfg
      have := ih h
      rw [hc] at this
      exact (runPrim_timed hp).trans this hc

/-- Primitives without a busy-wait sample no BUSY level. -/
theorem runPrims_noWait {ps : List Prim} (h : ∀ p ∈ ps, ∀ k, p ≠ .poll k) {s t : State} (hr : runPrims ps s = .ok t)
    (c : Config) : ∃ evs, t.trace = s.trace ++ evs ∧ busyCount c evs = 0 := by
  induction ps generalizing s with
  | nil => cases hr; exact ⟨[], by simp, rfl⟩
  | cons p ps ih =>
    rw [runPrims_cons] at hr
    cases hp : runPrim p s with
    | raised e u => rw [hp] at hr; cases hr
    | ok u =>
      rw [hp] at hr
      obtain ⟨e, he, hz⟩ := ih (fun q hq => h q (by simp [hq])) hr
      have : ∃ e, u.trace = s.trace ++ e ∧ busyCount c e = 0 := by
        cases p with
        | poll k => exact absurd rfl (h _ (by simp) k)
        | xfer src lo hi =>
          unfold runPrim at hp
          by_cases hx : s.xferOk = true
          · simp only [hx, if_true] at hp; cases hp
            exact ⟨_, rfl, by simp [busyCount, hx]⟩
          · simp [hx] at hp
        | delay ms => cases hp; exact ⟨_, rfl, by simp⟩
        | setRst v => cases hp; exact ⟨_, rfl, by simp [busyCount]⟩
        | setDc v => cases hp; exact ⟨_, rfl, by simp [busyCount]⟩
        | csAssert => cases hp; exact ⟨_, rfl, by simp [busyCount]⟩
        | csDeassert => cases hp; exact ⟨_, rfl, by simp [busyCount]⟩
        | raiseTransport => cases hp
        | merge => cases hp; exact ⟨[], by simp [merge], rfl⟩
        | copyForward => cases hp; exact ⟨[], by simp [copyForward], rfl⟩
        | lutClear => cases hp; exact ⟨[], by simp, rfl⟩
        | lutSet m => cases hp; exact ⟨[], by simp, rfl⟩
      obtain ⟨e', he', hz'⟩ := this
      exact ⟨e' ++ e, by rw [he, he', List.append_assoc], by simp [hz, hz']⟩

/-- Where no busy sample is taken, the milliseconds are the fixed ones. -/
theorem Timed.noWait {s t : State} {n : Nat} {evs : List Event} (h : Timed s t n) (he : t.trace = s.trace ++ evs)
    (hb : busyCount s.cfg evs = 0) : timedMs evs = n := by
  obtain ⟨e, h1, h2⟩ := h
  obtain rfl : evs = e := List.append_cancel_left (he.symm.trans h1)
  rw [h2, hb]; simp

theorem commandFrame_ms (c : Config) (op : Byte) : ((commandFrame c op).map (Prim.fixedMs c)).sum = c.cmdSettleMs := by
  simp [commandFrame, Prim.fixedMs]

theorem dataFrame_ms (c : Config) (src : Source) : ((dataFrame c src).map (Prim.fixedMs c)).sum = 0 := by
  unfold dataFrame
  split
  · rfl
  · simp [Prim.fixedMs, Function.comp_def]

/-- A panel command: its settle delay, and its post-idle delay if it waits (R74, R75, R82). -/
theorem commandPlan_ms (c : Config) (op : Byte) (src : Source) (wait : Bool) :
    ((commandPlan c op src wait).map (Prim.fixedMs c)).sum = c.cmdSettleMs + if wait then c.postIdleMs else 0 := by
  rw [commandPlan, List.map_append, List.map_append, List.sum_append, List.sum_append, commandFrame_ms, dataFrame_ms]
  cases wait <;> simp [busyWait, Prim.fixedMs]

/-! ### Pseudocode -/

/-- Pseudocode that takes ms milliseconds and its poll delays wherever it returns, on an EPDC of the given
parameters. -/
def Takes (c : Config) (ms : List Micro) (n : Nat) : Prop :=
  ∀ s t : State, s.cfg = c → runMicros ms s = .ok t → Timed s t n

theorem Takes.of {c : Config} {ms : List Micro} {a b : Nat} (h : Takes c ms a) (e : a = b) : Takes c ms b := e ▸ h

theorem Takes.nil (c : Config) : Takes c [] 0 := fun s t _ h => by cases h; exact Timed.refl s

theorem Takes.append {c : Config} {ms ns : List Micro} {a b : Nat} (h : Takes c ms a) (h' : Takes c ns b) :
    Takes c (ms ++ ns) (a + b) := by
  intro s t hc ht
  rw [runMicros_append] at ht
  have hs := runMicros_seqOnly ms s
  cases hr : runMicros ms s with
  | raised e u => rw [hr] at ht; cases ht
  | ok u =>
    rw [hr] at ht hs
    exact (h s u hc hr).trans (h' u t (hs.cfg.trans hc) ht) hs.cfg

theorem Takes.micro {c : Config} {m : Micro} {n : Nat}
    (h : ∀ s : State, s.cfg = c → ((m.expand s).map (Prim.fixedMs c)).sum = n) : Takes c [m] n := by
  intro s t hc ht
  rw [runMicros_cons] at ht
  cases hr : runPrims (m.expand s) s with
  | raised e u => rw [hr] at ht; cases ht
  | ok u =>
    rw [hr] at ht; cases ht
    have := runPrims_timed hr
    rwa [hc, h s hc] at this

theorem Takes.prim (c : Config) (p : Prim) : Takes c [.prim p] (p.fixedMs c) :=
  Takes.micro fun _ _ => by simp [Micro.expand]

theorem Takes.prims (c : Config) (ps : List Prim) : Takes c (ps.map .prim) (ps.map (Prim.fixedMs c)).sum := by
  intro s t hc ht
  rw [runMicros_prims] at ht
  have := runPrims_timed ht
  rwa [hc] at this

/-- A frame that decodes to a panel command which waits or does not. -/
theorem Takes.rule {c : Config} {op : Byte} {i : Instr} (wait : Bool) (hd : decodeFrame c (ruleFrame op) = .ok i)
    (hp : ∀ s : State, s.cfg = c → ∃ src, planOf i s = commandPlan c op src wait) :
    Takes c [.frame (ruleFrame op)] (c.cmdSettleMs + if wait then c.postIdleMs else 0) := by
  refine Takes.micro fun s hc => ?_
  obtain ⟨src, h⟩ := hp s hc
  show ((framePlan (ruleFrame op) s).map _).sum = _
  rw [framePlan_rule (by rw [hc]; exact hd), h, commandPlan_ms]

/-- `SetWindow` (R115). -/
theorem Takes.setWindow {c : Config} (hv : c.variant = .fw) : Takes c setWindow (4 * c.cmdSettleMs) := by
  have hp : ∀ op ∈ [(0x44 : Byte), 0x45, 0x4E, 0x4F], Takes c [.frame (ruleFrame op)] (c.cmdSettleMs + 0) := by
    intro op ho
    simp only [List.mem_cons, List.not_mem_nil, or_false] at ho
    rcases ho with rfl | rfl | rfl | rfl
    · exact Takes.rule (i := .fwXWindow) false (by simp [decodeFrame, ruleFrame, hv, decodeFwRule])
        fun s hc => ⟨_, by rw [← hc]; rfl⟩
    · exact Takes.rule (i := .fwYWindow) false (by simp [decodeFrame, ruleFrame, hv, decodeFwRule])
        fun s hc => ⟨_, by rw [← hc]; rfl⟩
    · exact Takes.rule (i := .fwXCursor) false (by simp [decodeFrame, ruleFrame, hv, decodeFwRule])
        fun s hc => ⟨_, by rw [← hc]; rfl⟩
    · exact Takes.rule (i := .fwYCursor) false (by simp [decodeFrame, ruleFrame, hv, decodeFwRule])
        fun s hc => ⟨_, by rw [← hc]; rfl⟩
  have := (((hp 0x44 (by simp)).append (hp 0x45 (by simp))).append (hp 0x4E (by simp))).append (hp 0x4F (by simp))
  rw [show 4 * c.cmdSettleMs = c.cmdSettleMs + 0 + (c.cmdSettleMs + 0) + (c.cmdSettleMs + 0) + (c.cmdSettleMs + 0) by
    ring]
  exact this

/-- `SetWindow` waits for nothing (R115). -/
theorem setWindow_noWait {s : State} (hv : s.cfg.variant = .fw) :
    ∀ p ∈ Machine.setWindow.flatMap (Micro.expand s), ∀ k, p ≠ .poll k := by
  intro p hp
  simp only [List.mem_flatMap] at hp
  obtain ⟨m, hm, hp⟩ := hp
  cases m with
  | frame f => obtain ⟨src, h⟩ := setWindow_frames hm hv; rw [Micro.expand, h] at hp; exact commandPlan_noWait hp
  | prim q => simp [Machine.setWindow] at hm

/-- TRANSFER waits for nothing (R121). -/
theorem transferProgram_noWait (s : State) (fmt : Level) :
    ∀ p ∈ (transferProgram s.cfg fmt).flatMap (Micro.expand s), ∀ k, p ≠ .poll k := by
  intro p hp
  simp only [List.mem_flatMap] at hp
  obtain ⟨m, hm, hp⟩ := hp
  cases m with
  | frame f =>
    obtain ⟨src, h⟩ := transferProgram_frames hm (seqOnly.refl s)
    rw [Micro.expand, h] at hp; exact commandPlan_noWait hp
  | prim q =>
    rw [mem_transferProgram hm] at hp
    simp only [Micro.expand, List.mem_singleton] at hp
    subst hp; simp

/-- The milliseconds of n commands and w waits, without the poll delays. -/
def fixedMs (c : Config) (n w : Nat) : Nat := n * c.cmdSettleMs + w * c.postIdleMs

theorem fixedMs_add (c : Config) (n w n' w' : Nat) :
    fixedMs c n w + fixedMs c n' w' = fixedMs c (n + n') (w + w') := by
  unfold fixedMs; ring

/-- `InstallLut` (R93). -/
theorem Takes.installLut {c : Config} (h : c.wf = true) (m : Mode) :
    Takes c (installLut c m) (fixedMs c (lutCommands c) 1) := by
  rw [installLut_eq]
  have key : Takes c (lutFrames c) (fixedMs c (lutCommands c) 1) := by
    unfold lutFrames lutCommands
    cases hv : c.variant with
    | fw =>
      have := Takes.rule (c := c) (op := 0x32) (i := .fwLutUpload) true
        (by simp [decodeFrame, ruleFrame, hv, decodeFwRule]) fun s hc => ⟨_, by rw [← hc]; rfl⟩
      simpa [fixedMs] using this
    | nf =>
      obtain ⟨d0, d1, d2, d3, d4⟩ := decodeFrame_regLut h hv
      have h0 := Takes.rule false d0 fun s hc => ⟨_, by rw [← hc]; rfl⟩
      have h1 := Takes.rule false d1 fun s hc => ⟨_, by rw [← hc]; rfl⟩
      have h2 := Takes.rule false d2 fun s hc => ⟨_, by rw [← hc]; rfl⟩
      have h3 := Takes.rule false d3 fun s hc => ⟨_, by rw [← hc]; rfl⟩
      have h4 := Takes.rule true d4 fun s hc => ⟨_, by rw [← hc]; rfl⟩
      have := (((h0.append h1).append h2).append h3).append h4
      simp only [Bool.false_eq_true, if_false, if_true] at this
      rw [show fixedMs c 5 1 = c.cmdSettleMs + 0 + (c.cmdSettleMs + 0) + (c.cmdSettleMs + 0) + (c.cmdSettleMs + 0)
        + (c.cmdSettleMs + c.postIdleMs) by unfold fixedMs; ring]
      exact this
  have := (Takes.prim c .lutClear).append (key.append (Takes.prim c (.lutSet m)))
  simpa [Prim.fixedMs] using this

/-- One entry of a table (R98). -/
theorem Takes.entry {c : Config} (h : c.wf = true) (m : Mode) (e : SeqEntry) (he : e = .windowFull → c.variant = .fw) :
    Takes c (entrySteps c m e) (fixedMs c (entryCommands c m e) (entryWaits c m e)) := by
  cases e with
  | cmd op data wait =>
    refine Takes.micro fun s hc => ?_
    show ((framePlan (tableFrame op data wait) s).map _).sum = _
    rw [framePlan_table, hc, commandPlan_ms]
    cases wait <;> simp [fixedMs, entryCommands, entryWaits]
  | wait =>
    have := Takes.prim c (.poll 0)
    exact this.of (by simp [fixedMs, entryCommands, entryWaits, Prim.fixedMs])
  | windowFull =>
    have := Takes.setWindow (he rfl)
    exact this.of (by simp [fixedMs, entryCommands, entryWaits])
  | lut =>
    simp only [entrySteps, entryCommands, entryWaits]
    split
    · exact Takes.installLut h m
    · simpa [fixedMs] using Takes.nil c

/-- A table (R98). -/
theorem Takes.runSeq {c : Config} (h : c.wf = true) (m : Mode) (table : List SeqEntry)
    (ht : .windowFull ∈ table → c.variant = .fw) :
    Takes c (Machine.runSeq c m table)
      (fixedMs c (table.map (entryCommands c m)).sum (table.map (entryWaits c m)).sum) := by
  induction table with
  | nil => exact (Takes.nil c).of (by simp [fixedMs])
  | cons e es ih =>
    have := (Takes.entry h m e fun he => ht (by simp [he])).append (ih fun he => ht (by simp [he]))
    rw [fixedMs_add] at this
    exact this

/-- The reset pulse and the initialization table (R96, R102). -/
theorem Takes.initProgram {c : Config} (h : c.wf = true) (m : Mode) :
    Takes c (initProgram c m) (2 * c.resetHoldMs
      + fixedMs c (c.initSeq.map (entryCommands c m)).sum (c.initSeq.map (entryWaits c m)).sum) := by
  refine Takes.append ?_ (Takes.runSeq h m c.initSeq (initSeq_windowFull h))
  have := Takes.prims c (resetPulse c)
  simpa [resetPulse, Prim.fixedMs, Nat.two_mul] using this

/-- TRANSFER (R121): none of its commands waits. -/
theorem Takes.transferProgram (c : Config) (fmt : Level) :
    Takes c (transferProgram c fmt) (fixedMs c (transferCommands c fmt) 0) := by
  unfold Machine.transferProgram
  rw [← List.singleton_append,
    show fixedMs c (transferCommands c fmt) 0 = 0 + fixedMs c (transferCommands c fmt) 0 by simp]
  refine (Takes.prim c .merge).append ?_
  unfold transferCommands
  cases hv : c.variant with
  | fw =>
    have hw := Takes.setWindow hv
    have hA := Takes.rule (i := .fwRamWriteA) false (decodeFrame_fw hv).2.2.1 fun s hc => ⟨_, by rw [← hc]; rfl⟩
    have hB := Takes.rule (i := .fwRamWriteB) false (decodeFrame_fw hv).2.2.2 fun s hc => ⟨_, by rw [← hc]; rfl⟩
    cases fmt with
    | false =>
      exact (hw.append hA).of (by simp [fixedMs]; ring)
    | true =>
      exact (((hw.append hA).append hw).append hB).of (by simp [fixedMs]; ring)
  | nf =>
    have := Takes.rule (i := .nfTransmission2) false (decodeFrame_nf hv).2.2 fun s hc => ⟨_, by rw [← hc]; rfl⟩
    simpa [fixedMs, streamPlane] using this

/-- REFRESH (R126): the LUT if needed, the old image in a differential mode, the trigger. -/
theorem Takes.refreshProgram {s : State} (h : s.cfg.wf = true) (m : Mode) :
    Takes s.cfg (refreshProgram s m)
      (fixedMs s.cfg ((if lutNeeded s m then lutCommands s.cfg else 0) + refreshCommands s.cfg m)
        ((if lutNeeded s m then 1 else 0) + 1)) := by
  have h1 : Takes s.cfg (ensureLut s m) (fixedMs s.cfg (if lutNeeded s m then lutCommands s.cfg else 0)
      (if lutNeeded s m then 1 else 0)) := by
    have hn : lutNeeded s m = decide (s.cfg.hasProfile m ∧ ¬ (s.lutValid ∧ s.lutMode = m)) := by
      unfold lutNeeded; cases s.cfg.hasProfile m <;> cases s.lutValid <;> by_cases hm : s.lutMode = m <;> simp [hm]
    unfold ensureLut
    rw [hn]
    by_cases hl : s.cfg.hasProfile m ∧ ¬ (s.lutValid ∧ s.lutMode = m)
    · rw [if_pos hl, decide_eq_true hl]; exact Takes.installLut h m
    · rw [if_neg hl, decide_eq_false hl]; simpa [fixedMs] using Takes.nil s.cfg
  have h2 : Takes s.cfg (sendOld s.cfg m ++ trigger s.cfg) (fixedMs s.cfg (refreshCommands s.cfg m) 1) := by
    unfold sendOld trigger refreshCommands
    cases hv : s.cfg.variant with
    | fw =>
      have hw := Takes.setWindow hv
      have hB := Takes.rule (i := .fwRamWriteB) false (decodeFrame_fw hv).2.2.2 fun s hc => ⟨_, by rw [← hc]; rfl⟩
      have hU := Takes.rule (i := .fwUpdateControl) false (decodeFrame_fw hv).2.1 fun s hc => ⟨_, by rw [← hc]; rfl⟩
      have hT := Takes.rule (i := .fwRefreshTrigger) true (decodeFrame_fw hv).1 fun s hc => ⟨_, by rw [← hc]; rfl⟩
      cases m.isDiff with
      | false =>
        exact (hU.append hT).of (by simp [fixedMs]; ring)
      | true =>
        exact ((hw.append hB).append (hU.append hT)).of (by simp [fixedMs]; ring)
    | nf =>
      have hO := Takes.rule (i := .nfTransmission1) false (decodeFrame_nf hv).1 fun s hc => ⟨_, by rw [← hc]; rfl⟩
      have hT := Takes.rule (i := .nfLegacyRefresh) true (decodeFrame_nf hv).2.1 fun s hc => ⟨_, by rw [← hc]; rfl⟩
      cases m.isDiff with
      | false => simpa [fixedMs] using hT
      | true =>
        exact (hO.append hT).of (by simp [fixedMs]; ring)
  have := (h1.append h2).append (Takes.prim s.cfg .copyForward)
  rw [fixedMs_add] at this
  unfold Machine.refreshProgram
  simpa [Prim.fixedMs, List.append_assoc] using this

/-- The sleep table (R130). -/
theorem Takes.sleepSeq {c : Config} (h : c.wf = true) :
    Takes c (Machine.runSeq c .gray c.sleepSeq)
      (fixedMs c (c.sleepSeq.map (entryCommands c .gray)).sum (c.sleepSeq.map (entryWaits c .gray)).sum) :=
  Takes.runSeq h .gray c.sleepSeq (sleepSeq_windowFull h)

end Sys2Proof.Machine
end

