-- ==== Sys2Proof/Machine/Assembler.lean ====
section
/-! DEFINITION. The host programs of R70 and R71: register and aperture addresses, operation mnemonics and
pseudo-instructions, each as the host statements it stands for. -/

namespace Sys2Proof.Machine.Asm

def cmdAddr : HostAddr := 0x000000
def statusAddr : HostAddr := 0x000004
def winOrgAddr : HostAddr := 0x000008
def winSizeAddr : HostAddr := 0x00000C
def xferLenAddr : HostAddr := 0x000010
def timeoutAddr : HostAddr := 0x000014
def clearAddr : HostAddr := 0x000018
def geomAddr : HostAddr := 0x00001C
def configAddr : HostAddr := 0x000020
/-- `STAGE+k` -/
def stageAddr (k : Nat) : HostAddr := BitVec.ofNat 22 (0x100000 + k)
/-- `NEW+k` -/
def newAddr (k : Nat) : HostAddr := BitVec.ofNat 22 (0x200000 + k)
/-- `OLD+k` -/
def oldAddr (k : Nat) : HostAddr := BitVec.ofNat 22 (0x300000 + k)

/-- `wr8 ADDR, VALUE` -/
def wr8 (a : HostAddr) (v : Byte) : HostStmt := .access (.wr .b1 a (v.setWidth 32))
/-- `wr16 ADDR, VALUE` -/
def wr16 (a : HostAddr) (v : BitVec 16) : HostStmt := .access (.wr .b2 a (v.setWidth 32))
/-- `wr32 ADDR, VALUE` -/
def wr32 (a : HostAddr) (v : Word) : HostStmt := .access (.wr .b4 a v)
/-- `rd32 ADDR` -/
def rd32 (a : HostAddr) : HostStmt := .access (.rd .b4 a)

/-- `wr32 CMD, word` for an operation mnemonic (R70): the word is the operation's own code. -/
def op (i : Instr) : List HostStmt :=
  match encode (Config.standard .fw) i with
  | .hostWord w => [wr32 cmdAddr w]
  | .frame _ => []

/-- `op! args`: the operation, then `waitdone` (R71). -/
def opDone (i : Instr) : List HostStmt := op i ++ [.waitdone]

/-- The n writes of `stage` and `stagefill`, byte k at STAGE+k. -/
def stageBytes (k : Nat) : List Byte → List HostStmt
  | [] => []
  | b :: bs => wr8 (stageAddr k) b :: stageBytes (k + 1) bs

/-- `stage b0, ..., bn-1` (R71). -/
def stage (bs : List Byte) : List HostStmt := stageBytes 0 bs ++ [wr32 xferLenAddr (BitVec.ofNat 32 bs.length)]

/-- `stagefill n, b` (R71). -/
def stagefill (n : Nat) (b : Byte) : List HostStmt := stage (List.replicate n b)

/-- `window x0, y0, ww, wh` (R71). -/
def window (x0 y0 ww wh : BitVec 16) : List HostStmt := [wr32 winOrgAddr (y0 ++ x0), wr32 winSizeAddr (wh ++ ww)]

end Sys2Proof.Machine.Asm
end

