-- ==== Sys2Proof/Tests/Slice0.lean ====
section
/-! SUPPORT. The model's own tests: well-formedness, decoding of words written out from the spec, single instructions and
steps against the vectors of 95_test_vectors.md, and a witness for the hypotheses of every obligation. -/

open Sys2Proof Sys2Proof.Machine

set_option maxRecDepth 8000

namespace Sys2Proof.Tests

/-! ### Small units and states

Units with every OPEN parameter fixed, so that the vectors' symbolic payloads have a value. `b` is 1. -/

def sub (b : Byte) : List Byte := List.replicate 30 b

/-- An FW or NF unit of w × h pixels. -/
def unit (v : Variant) (w h : Nat) : Config where
  variant := v
  width := w
  height := h
  busyActive := true
  cmdSettleMs := 1
  pollMs := 10
  postIdleMs := 200
  resetHoldMs := 200
  maxChunk := 512
  defaultTimeoutMs := 5000
  transportCanFail := true
  lutFlash := ⟨List.replicate 105 0x10, List.replicate 105 0x11, List.replicate 105 0x12, List.replicate 105 0x13⟩
  lutRegPart := ⟨sub 0x20, sub 0x21, sub 0x22, sub 0x23, sub 0x24⟩
  lutRegFast := ⟨sub 0x30, sub 0x31, sub 0x32, sub 0x33, sub 0x34⟩
  regLutOp := ⟨0xA0, 0xA1, 0xA2, 0xA3, 0xA4⟩
  updGray := 0xD0
  updPart := 0xD2
  updFast := 0xD3
  initSeq := match v with
    | .fw => [.wait, .cmd 0x3C [0x05] false, .windowFull, .lut]
    | .nf => [.cmd 0x04 [] true, .lut]
  sleepSeq := match v with
    | .fw => [.cmd 0x10 [0x01] false]
    | .nf => [.cmd 0x02 [] true, .cmd 0x07 [0xA5] false]
  payloads := ⟨[], [], [], []⟩
  spiHz := 4000000
  spiCpol := false
  spiCpha := false

def fw2 : Config := unit .fw 2 2
def nf2 : Config := unit .nf 2 2

/-- n successful transfers and n idle samples to come. -/
def easy (n : Nat) (s : State) : State :=
  { s with xferIn := ⟨List.replicate n true, 0⟩, busyIn := ⟨List.replicate n false, 0⟩ }

/-- IDLE after an INIT in mode m. -/
def idleAt (c : Config) (m : Mode) : State :=
  easy 32 { State.resetOf c with
    state := .idle, sessMode := m, fmt := m.fmt, lutValid := c.hasProfile m, lutMode := m,
    latch := ⟨.init, m, false, 0, 0, 0, 5000⟩ }

/-- A running operation with nothing left, in which a panel command can be run. -/
def running (c : Config) (op : OpCode) (m : Mode) : State :=
  { idleAt c m with run := true, state := runningState op, latch := ⟨op, m, false, 0, 0, 0, 5000⟩ }

/-- The next state of an answer, for reading its fields. -/
def after (r : Result) : State :=
  match r with
  | .next s => s
  | .fault _ => State.reset
  | .refused _ => State.reset

def isNext (r : Result) : Bool :=
  match r with
  | .next _ => true
  | .fault _ => false
  | .refused _ => false

/-- `C(op)` as 95_test_vectors.md section 0 writes it. -/
def C (op : Byte) : List Event := [.pin .dc false, .cs true, .xfer [op], .cs false, .delay 1]

/-- `D(s)` for a payload of one chunk. -/
def D (s : List Byte) : List Event := [.pin .dc true, .cs true, .xfer s, .cs false]

/-- `W(0)`. -/
def W0 : List Event := [.busySample false, .delay 200]

/-- `PULSE`. -/
def pulse : List Event := [.pin .rst false, .delay 200, .pin .rst true, .delay 200]

/-- `SW(0,0,2,2)` with the reference default payloads (Program 4). -/
def SW2 : List Event :=
  C 0x44 ++ D [0x00, 0x00] ++ C 0x45 ++ D [0x00, 0x00, 0x01, 0x00] ++ C 0x4E ++ D [0x00] ++ C 0x4F ++ D [0x00, 0x00]

/-! ### Well-formedness -/

theorem test_wf_units : fw2.wf = true ∧ nf2.wf = true := by decide
theorem test_wf_standard : (Config.standard .fw).wf = true ∧ (Config.standard .nf).wf = true := by decide
/-- R69: 255 bytes of data are allowed, 256 are not. -/
theorem test_wf_instr_255 : (Instr.fwBorder (List.replicate 255 0) true).wf = true := by decide
theorem test_illformed_instr_256 : (Instr.fwBorder (List.replicate 256 0) true).wf = false := by decide
theorem test_illformed_instr_deep_sleep : (Instr.nfDeepSleep (List.replicate 256 0)).wf = false := by decide
/-- R67: an NF command is none of an FW panel. -/
theorem test_illformed_variant : (Instr.nfPowerOn [] true).fits fw2 = false := by decide
/-- R14: each check on its own. -/
theorem test_illformed_width : (unit .fw 0 2).wf = false ∧ (unit .fw 2049 2).wf = false := by decide
theorem test_illformed_height : (unit .fw 2 0).wf = false ∧ (unit .fw 2 2049).wf = false := by decide
theorem test_illformed_hold : { fw2 with resetHoldMs := 199 }.wf = false := by decide
theorem test_illformed_chunk : { fw2 with maxChunk := 0 }.wf = false := by decide
theorem test_illformed_poll : { fw2 with pollMs := 0 }.wf = false := by decide
theorem test_illformed_flash_lut :
    { fw2 with lutFlash := { fw2.lutFlash with part := List.replicate 104 0 } }.wf = false := by decide
theorem test_illformed_reg_lut : { nf2 with lutRegFast := ⟨sub 0, sub 0, sub 0, sub 0, [0]⟩ }.wf = false := by decide
theorem test_illformed_reg_lut_part : { nf2 with lutRegPart := ⟨[], sub 0, sub 0, sub 0, sub 0⟩ }.wf = false := by decide
theorem test_illformed_reg_ops_equal : { nf2 with regLutOp := ⟨0xA0, 0xA0, 0xA2, 0xA3, 0xA4⟩ }.wf = false := by decide
theorem test_illformed_reg_op_fixed : { nf2 with regLutOp := ⟨0x13, 0xA1, 0xA2, 0xA3, 0xA4⟩ }.wf = false := by decide
theorem test_illformed_payload : { fw2 with payloads := ⟨[((0, 2), [])], [], [], []⟩ }.wf = false := by decide
/-- R99: the power-on step first, one LUT entry and it last, one WINDOW_FULL on FW, no forbidden command. -/
theorem test_illformed_init_first : { fw2 with initSeq := [.windowFull, .lut] }.wf = false := by decide
theorem test_illformed_init_no_lut : { fw2 with initSeq := [.wait, .windowFull] }.wf = false := by decide
theorem test_illformed_init_window : { fw2 with initSeq := [.wait, .lut] }.wf = false := by decide
theorem test_illformed_init_nf_window :
    { nf2 with initSeq := [.cmd 0x04 [] true, .windowFull, .lut] }.wf = false := by decide
theorem test_illformed_init_trigger :
    { fw2 with initSeq := [.wait, .windowFull, .cmd 0x20 [] true, .lut] }.wf = false := by decide
theorem test_illformed_init_c7 :
    { fw2 with initSeq := [.wait, .windowFull, .cmd 0x22 [0xC7] true, .lut] }.wf = false := by decide
/-- R131: the deep-sleep command last and without a wait, no window and no LUT in between. -/
theorem test_illformed_sleep_none : { fw2 with sleepSeq := [] }.wf = false := by decide
theorem test_illformed_sleep_wait : { fw2 with sleepSeq := [.cmd 0x10 [] true] }.wf = false := by decide
theorem test_illformed_sleep_window :
    { fw2 with sleepSeq := [.windowFull, .cmd 0x10 [] false] }.wf = false := by decide
/-- R14, I16: no step is taken with an ill-formed parameter set. -/
theorem test_illformed_step :
    step (State.resetOf { fw2 with pollMs := 0 }) = .refused .illFormedParameters := rfl

/-! ### Decoding -/

/-- R59, R60, R61: the 13 legal CMD words, bit by bit: RSV [31:11] 0, MODE [10:9], WIN [8], OP [7:0]. -/
theorem test_decode_reset : decodeTableWord 32 0b000000000000000000000_00_0_00000001 = some .reset := by decide
theorem test_decode_init :
    decodeTableWord 32 0b000000000000000000000_00_0_00000010 = some (.init .gray)
      ∧ decodeTableWord 32 0b000000000000000000000_01_0_00000010 = some (.init .full)
      ∧ decodeTableWord 32 0b000000000000000000000_10_0_00000010 = some (.init .part)
      ∧ decodeTableWord 32 0b000000000000000000000_11_0_00000010 = some (.init .fast) := by decide
theorem test_decode_transfer :
    decodeTableWord 32 0b000000000000000000000_00_0_00000011 = some (.transfer false)
      ∧ decodeTableWord 32 0b000000000000000000000_00_1_00000011 = some (.transfer true) := by decide
theorem test_decode_refresh :
    decodeTableWord 32 0b000000000000000000000_00_0_00000100 = some (.refresh .gray)
      ∧ decodeTableWord 32 0b000000000000000000000_01_0_00000100 = some (.refresh .full)
      ∧ decodeTableWord 32 0b000000000000000000000_10_0_00000100 = some (.refresh .part)
      ∧ decodeTableWord 32 0b000000000000000000000_11_0_00000100 = some (.refresh .fast) := by decide
theorem test_decode_sleep : decodeTableWord 32 0b000000000000000000000_00_0_00000101 = some .sleep := by decide
theorem test_decode_wake : decodeTableWord 32 0b000000000000000000000_00_0_00000110 = some .wake := by decide
/-- The illegal words of 95_test_vectors.md section 2.1. -/
theorem test_decode_illegal :
    ∀ w ∈ [0x00000000, 0x00000007, 0x000000FF, 0x00000101, 0x00000201, 0x00000102, 0x00000203, 0x00000104,
      0x00000605, 0x00000206, 0x00000803, 0x80000004], decodeTableWord 32 w = none := by decide

/-- R67: the FW commands that a table emits, with their data and wait. -/
theorem test_decode_fw_table :
    decode fw2 (.frame ⟨0x01, some ⟨[0xAA, 0xBB], true⟩⟩) = .ok (.fwGateSetting [0xAA, 0xBB] true)
      ∧ decode fw2 (.frame ⟨0x03, some ⟨[0x17], false⟩⟩) = .ok (.fwGateVoltage [0x17] false)
      ∧ decode fw2 (.frame ⟨0x04, some ⟨[0x41], false⟩⟩) = .ok (.fwSourceVoltage [0x41] false)
      ∧ decode fw2 (.frame ⟨0x0C, some ⟨[], true⟩⟩) = .ok (.fwBooster [] true)
      ∧ decode fw2 (.frame ⟨0x10, some ⟨[0x01], false⟩⟩) = .ok (.fwDeepSleep [0x01])
      ∧ decode fw2 (.frame ⟨0x11, some ⟨[0x03], false⟩⟩) = .ok (.fwDataEntryMode [0x03] false)
      ∧ decode fw2 (.frame ⟨0x18, some ⟨[0x80], false⟩⟩) = .ok (.fwSensorEnable [0x80] false)
      ∧ decode fw2 (.frame ⟨0x2C, some ⟨[0x36], false⟩⟩) = .ok (.fwVcom [0x36] false)
      ∧ decode fw2 (.frame ⟨0x37, some ⟨[], false⟩⟩) = .ok (.fwDisplayOption [] false)
      ∧ decode fw2 (.frame ⟨0x3C, some ⟨[0x05], false⟩⟩) = .ok (.fwBorder [0x05] false) := by decide
/-- R67: the FW commands that a fixed rule emits. -/
theorem test_decode_fw_rule :
    decode fw2 (.frame ⟨0b00100000, none⟩) = .ok .fwRefreshTrigger
      ∧ decode fw2 (.frame ⟨0b00100010, none⟩) = .ok .fwUpdateControl
      ∧ decode fw2 (.frame ⟨0b00100100, none⟩) = .ok .fwRamWriteA
      ∧ decode fw2 (.frame ⟨0b00100110, none⟩) = .ok .fwRamWriteB
      ∧ decode fw2 (.frame ⟨0b00110010, none⟩) = .ok .fwLutUpload
      ∧ decode fw2 (.frame ⟨0b01000100, none⟩) = .ok .fwXWindow
      ∧ decode fw2 (.frame ⟨0b01000101, none⟩) = .ok .fwYWindow
      ∧ decode fw2 (.frame ⟨0b01001110, none⟩) = .ok .fwXCursor
      ∧ decode fw2 (.frame ⟨0b01001111, none⟩) = .ok .fwYCursor := by decide
/-- R67: the NF commands. -/
theorem test_decode_nf :
    decode nf2 (.frame ⟨0x02, some ⟨[], true⟩⟩) = .ok (.nfPowerOff [] true)
      ∧ decode nf2 (.frame ⟨0x04, some ⟨[], true⟩⟩) = .ok (.nfPowerOn [] true)
      ∧ decode nf2 (.frame ⟨0x07, some ⟨[0xA5], false⟩⟩) = .ok (.nfDeepSleep [0xA5])
      ∧ decode nf2 (.frame ⟨0b00010000, none⟩) = .ok .nfTransmission1
      ∧ decode nf2 (.frame ⟨0b00010010, none⟩) = .ok .nfLegacyRefresh
      ∧ decode nf2 (.frame ⟨0b00010011, none⟩) = .ok .nfTransmission2 := by decide
/-- R160: the register-LUT commands have the unit's own opcodes. -/
theorem test_decode_nf_reg_lut :
    decode nf2 (.frame ⟨0xA0, none⟩) = .ok .nfRegLut0 ∧ decode nf2 (.frame ⟨0xA1, none⟩) = .ok .nfRegLut1
      ∧ decode nf2 (.frame ⟨0xA2, none⟩) = .ok .nfRegLut2 ∧ decode nf2 (.frame ⟨0xA3, none⟩) = .ok .nfRegLut3
      ∧ decode nf2 (.frame ⟨0xA4, none⟩) = .ok .nfRegLut4 := by decide
/-- R67: the same byte is another command on the other variant; R68: a byte no row lists is no instruction. -/
theorem test_decode_variant :
    decode nf2 (.frame ⟨0x20, none⟩) = .error (.notListed 0x20)
      ∧ decode fw2 (.frame ⟨0x99, some ⟨[], false⟩⟩) = .error (.notListed 0x99)
      ∧ decode fw2 (.frame ⟨0x10, some ⟨[], true⟩⟩) = .error .deepSleepWaits := by decide
/-- The opcode table's bytes. -/
theorem test_decode_table_bytes :
    decodeTableWord 8 0x24 = some .fwRamWriteA ∧ decodeTableWord 8 0x01 = some (.fwGateSetting [] false)
      ∧ decodeTableWord 8 0x13 = some .nfTransmission2 ∧ decodeTableWord 8 0x07 = some (.nfDeepSleep [])
      ∧ decodeTableWord 8 0xA3 = some .nfRegLut3 ∧ decodeTableWord 8 0x99 = none := by decide
/-- A placed word is what the next step runs. -/
theorem test_fetch_word :
    isNext (step (State.reset.withFetchWord 32 0x202)) = true
      ∧ isNext (step (State.reset.withFetchWord 8 0x24)) = true
      ∧ isNext (step (State.reset.withFetchWord 8 0xA4)) = true := by decide

/-! ### Panel commands (95_test_vectors.md sections 2.2, 2.4, 2.7, 2.8, 2.9 and S5) -/

/-- The trace of one instruction from a state with an empty trace. -/
def sent (i : Instr) (s : State) : List Event := (after (exec i s)).trace

def fwInit : State := running fw2 .init .full
def fwRefresh : State := running fw2 .refresh .part
def nfRefresh : State := running nf2 .refresh .part

/-- The GRAY frame of S5 in NEW: 0xC0, 0x90. -/
def fwGray : State := { running fw2 .transfer .gray with new := [(0, 0xC0), (1, 0x90)] }

theorem test_fwGateSetting : sent (.fwGateSetting [0xAA, 0xBB] false) fwInit = C 0x01 ++ D [0xAA, 0xBB] := by decide
theorem test_fwGateVoltage : sent (.fwGateVoltage [0x17] false) fwInit = C 0x03 ++ D [0x17] := by decide
theorem test_fwSourceVoltage : sent (.fwSourceVoltage [0x41] false) fwInit = C 0x04 ++ D [0x41] := by decide
theorem test_fwBooster_waits : sent (.fwBooster [0x10] true) fwInit = C 0x0C ++ D [0x10] ++ W0 := by decide
theorem test_fwDeepSleep : sent (.fwDeepSleep [0x01]) (running fw2 .sleep .gray) = C 0x10 ++ D [0x01] := by decide
theorem test_fwDataEntryMode : sent (.fwDataEntryMode [0x03] false) fwInit = C 0x11 ++ D [0x03] := by decide
theorem test_fwSensorEnable : sent (.fwSensorEnable [0x80] false) fwInit = C 0x18 ++ D [0x80] := by decide
theorem test_fwVcom : sent (.fwVcom [0x36] false) fwInit = C 0x2C ++ D [0x36] := by decide
/-- R77: no data frame for an empty payload. -/
theorem test_fwDisplayOption_empty : sent (.fwDisplayOption [] false) fwInit = C 0x37 := by decide
theorem test_fwBorder : sent (.fwBorder [0x05] false) fwInit = C 0x3C ++ D [0x05] := by decide
theorem test_fwRefreshTrigger : sent .fwRefreshTrigger fwRefresh = C 0x20 ++ W0 := by decide
/-- Section 2.2: a failed transfer, and no settle delay; R164: IDLE and DEGRADED. -/
theorem test_fwRefreshTrigger_fails :
    let t := after (exec .fwRefreshTrigger { fwRefresh with xferIn := ⟨[false], 0⟩ })
    t.trace = [.pin .dc false, .cs true, .xferFail [0x20], .cs false] ∧ t.err = .transportFailure ∧ t.state = .idle
      ∧ t.degraded = true ∧ t.run = false := by decide
theorem test_fwUpdateControl_full : sent .fwUpdateControl (running fw2 .refresh .full) = C 0x22 ++ D [0xC7] := by
  decide
theorem test_fwUpdateControl_part : sent .fwUpdateControl fwRefresh = C 0x22 ++ D [0xD2] := by decide
/-- S5: plane A of the 2 × 2 frame is 0xBF, 0xBF; plane B is 0xBF, 0x7F. -/
theorem test_fwRamWriteA_gray : sent .fwRamWriteA fwGray = C 0x24 ++ D [0xBF, 0xBF] := by decide
theorem test_fwRamWriteB_gray : sent .fwRamWriteB fwGray = C 0x26 ++ D [0xBF, 0x7F] := by decide
/-- Section 2.6: the padding of a 1-bit frame passes unchanged. -/
theorem test_fwRamWriteA_padding :
    sent .fwRamWriteA { running (unit .fw 9 1) .transfer .full with new := [(1, 0x80)] } = C 0x24 ++ D [0xFF, 0x80] := by
  decide
/-- R125: in a REFRESH, 0x26 carries OLD. -/
theorem test_fwRamWriteB_old : sent .fwRamWriteB { fwRefresh with old := [(1, 0x0F)] } = C 0x26 ++ D [0xFF, 0x0F] := by
  decide
/-- S8: one transfer of 105 bytes. -/
theorem test_fwLutUpload : sent .fwLutUpload fwRefresh = C 0x32 ++ D (List.replicate 105 0x12) ++ W0 := by decide

/-- The window of section 2.6 on the 416 × 240 panel. -/
def fwWindow : State :=
  let s := running (unit .fw 416 240) .transfer .full
  { s with latch := { s.latch with win := true, org := 0x000A0008, size := 0x00040010 } }

theorem test_fwXWindow : sent .fwXWindow fwWindow = C 0x44 ++ D [0x01, 0x02] := by decide
theorem test_fwYWindow : sent .fwYWindow fwWindow = C 0x45 ++ D [0x0A, 0x00, 0x0D, 0x00] := by decide
theorem test_fwXCursor : sent .fwXCursor fwWindow = C 0x4E ++ D [0x01] := by decide
theorem test_fwYCursor : sent .fwYCursor fwWindow = C 0x4F ++ D [0x0A, 0x00] := by decide
/-- Program 1: the payload of the full frame's 0x45. -/
theorem test_fwYWindow_full :
    sent .fwYWindow (running (unit .fw 416 240) .init .full) = C 0x45 ++ D [0x00, 0x00, 0xEF, 0x00] := by decide

theorem test_nfPowerOff : sent (.nfPowerOff [] true) (running nf2 .sleep .gray) = C 0x02 ++ W0 := by decide
/-- Section 2.9: T = 0 and a busy sample. -/
theorem test_nfPowerOff_timeout :
    let s := running nf2 .sleep .gray
    let t := after (exec (.nfPowerOff [] true)
      { s with latch := { s.latch with timeout := 0 }, busyIn := ⟨[true], 0⟩ })
    t.trace = C 0x02 ++ [.busySample true] ∧ t.err = .busyTimeout ∧ t.state = .idle ∧ t.degraded = true := by decide
theorem test_nfPowerOn : sent (.nfPowerOn [] true) (running nf2 .init .part) = C 0x04 ++ W0 := by decide
theorem test_nfDeepSleep : sent (.nfDeepSleep [0xA5]) (running nf2 .sleep .gray) = C 0x07 ++ D [0xA5] := by decide
theorem test_nfTransmission1 :
    sent .nfTransmission1 { nfRefresh with old := [(0, 0x00)] } = C 0x10 ++ D [0x00, 0xFF] := by decide
theorem test_nfLegacyRefresh : sent .nfLegacyRefresh nfRefresh = C 0x12 ++ W0 := by decide
theorem test_nfTransmission2 :
    sent .nfTransmission2 { running nf2 .transfer .part with new := [(1, 0x00)] } = C 0x13 ++ D [0xFF, 0x00] := by decide
/-- S8: five sub-tables of 30 bytes, and the wait after the fifth. -/
theorem test_nfRegLut0 : sent .nfRegLut0 nfRefresh = C 0xA0 ++ D (sub 0x20) := by decide
theorem test_nfRegLut1 : sent .nfRegLut1 nfRefresh = C 0xA1 ++ D (sub 0x21) := by decide
theorem test_nfRegLut2 : sent .nfRegLut2 nfRefresh = C 0xA2 ++ D (sub 0x22) := by decide
theorem test_nfRegLut3 : sent .nfRegLut3 (running nf2 .refresh .fast) = C 0xA3 ++ D (sub 0x33) := by decide
theorem test_nfRegLut4 : sent .nfRegLut4 nfRefresh = C 0xA4 ++ D (sub 0x24) ++ W0 := by decide

/-- Section 2.7: the plane split. -/
theorem test_planes :
    let s := { State.resetOf (unit .fw 8 1) with new := [(0, 0xC9), (1, 0xF0)] }
    plane 1 s (fullRect s.cfg) = [0xAC] ∧ plane 0 s (fullRect s.cfg) = [0x9C] := by decide
/-- Section 2.2: the chunks of a data frame. -/
theorem test_chunks :
    chunks 512 513 = [(0, 512), (512, 513)] ∧ (chunks 512 12480).length = 25
      ∧ (chunks 512 12480).getLast? = some (12288, 12480) := by decide

/-! ### Host operations (sections 2.1, 2.5, 2.8, 2.9, Program 4) -/

theorem test_reset :
    let t := after (exec .reset { idleAt fw2 .full with degraded := true })
    t.trace = pulse ∧ statusWord t = 0x00040050 := by decide
/-- Section 2.5, with this unit's table: STATUS 0x00040061 after `init full`. -/
theorem test_init_full :
    let t := after (exec (.init .full) (easy 32 (State.resetOf fw2)))
    t.trace = pulse ++ W0 ++ C 0x3C ++ D [0x05] ++ SW2 ++ C 0x32 ++ D (List.replicate 105 0x11) ++ W0
      ∧ statusWord t = 0x00040061 := by decide +kernel
theorem test_init_nf_full_timeout :
    let s := easy 32 (State.resetOf nf2)
    let t := after (exec (.init .full) { s with regs := { s.regs with timeout := 0 }, busyIn := ⟨[true], 0⟩ })
    t.trace = pulse ++ C 0x04 ++ [.busySample true] ∧ statusWord t = 0x00040100 := by decide
theorem test_wake_part :
    let t := after (exec .wake { idleAt nf2 .part with state := .sleeping, lutValid := false, degraded := true })
    statusWord t = 0x000800A1
      ∧ t.trace = pulse ++ C 0x04 ++ W0 ++ C 0xA0 ++ D (sub 0x20) ++ C 0xA1 ++ D (sub 0x21) ++ C 0xA2 ++ D (sub 0x22)
        ++ C 0xA3 ++ D (sub 0x23) ++ C 0xA4 ++ D (sub 0x24) ++ W0 := by decide +kernel
/-- Program 4, part 2. -/
theorem test_transfer_gray :
    let s := idleAt fw2 .gray
    let t := after (exec (.transfer false)
      { s with regs := { s.regs with xferLen := 2 }, stage := [(0, 0xC0), (1, 0x90)] })
    t.trace = SW2 ++ C 0x24 ++ D [0xBF, 0xBF] ++ SW2 ++ C 0x26 ++ D [0xBF, 0x7F]
      ∧ t.new = [(0, 0xC0), (1, 0x90)] ∧ statusWord t = 0x00020021 := by decide
/-- Section 2.6: W = 10, window (8, 0, 2, 3), one byte a row, into the second byte of each row of NEW. -/
theorem test_transfer_window :
    let s := idleAt (unit .fw 10 3) .full
    let t := after (exec (.transfer true)
      { s with
        regs := ⟨0x00000008, 0x00030002, 3, 5000⟩, stage := [(0, 0x01), (1, 0x02), (2, 0x03)] })
    t.new = [(1, 0x01), (3, 0x02), (5, 0x03)] ∧ t.err = .ok ∧ t.state = .idle := by decide
/-- Program 4, part 3, and OLD = NEW after it. -/
theorem test_refresh_gray :
    let t := after (exec (.refresh .gray) { idleAt fw2 .gray with new := [(0, 0xC0), (1, 0x90)] })
    t.trace = C 0x22 ++ D [0xD0] ++ C 0x20 ++ W0 ∧ t.old = [(0, 0xC0), (1, 0x90)] := by decide
/-- Section 2.8: FW PART after `init full`. -/
theorem test_refresh_part :
    let t := after (exec (.refresh .part) { idleAt fw2 .full with new := [(0, 0x00)], old := [(1, 0x0F)] })
    t.trace = C 0x32 ++ D (List.replicate 105 0x12) ++ W0 ++ SW2 ++ C 0x26 ++ D [0xFF, 0x0F] ++ C 0x22 ++ D [0xD2]
        ++ C 0x20 ++ W0
      ∧ t.old = [(0, 0x00)] ∧ statusWord t = 0x000400A1 := by decide +kernel
theorem test_sleep_fw :
    let t := after (exec .sleep (idleAt fw2 .full))
    t.trace = C 0x10 ++ D [0x01] ∧ statusWord t = 0x00040044 := by decide
theorem test_sleep_nf :
    let t := after (exec .sleep (idleAt nf2 .part))
    t.trace = C 0x02 ++ W0 ++ C 0x07 ++ D [0xA5] ∧ statusWord t = 0x00080084 := by decide

/-- The check order of section 2.1. -/
theorem test_check_order :
    let sleepy := { idleAt fw2 .full with state := .sleeping }
    let hurt := { idleAt fw2 .full with degraded := true, regs := ⟨4, 0, 0, 0⟩ }
    let windowed := { idleAt fw2 .full with regs := ⟨4, 0, 7, 0⟩ }
    (after (exec (.refresh .full) (State.resetOf fw2))).err = .notInitialized
      ∧ (after (exec .sleep (State.resetOf fw2))).err = .notInitialized
      ∧ (after (exec (.transfer false) sleepy)).err = .driverAsleep ∧ (after (exec .sleep sleepy)).err = .driverAsleep
      ∧ (after (exec (.transfer true) hurt)).err = .degraded ∧ (after (exec .sleep hurt)).err = .ok
      ∧ (after (exec (.refresh .gray) (idleAt fw2 .full))).err = .badMode
      ∧ (after (exec (.refresh .full) (idleAt fw2 .gray))).err = .badMode
      ∧ (after (exec (.transfer true) windowed)).err = .badWindow
      ∧ (after (exec (.transfer false) windowed)).err = .invalidBufferSize
      ∧ (after (exec (.init .gray) (State.resetOf nf2))).err = .badMode
      ∧ (after (exec (.transfer true) (idleAt nf2 .full))).err = .badWindow := by decide

/-- Section 2.3: T = 20 with two busy samples, then idle; and with three. -/
theorem test_waitIdle :
    let s := running fw2 .init .full
    let s20 := { s with latch := { s.latch with timeout := 20 } }
    let busy : List Event := [.busySample true, .delay 10, .busySample true, .delay 10]
    runPrim (.poll 0) { s20 with busyIn := ⟨[true, true, false], 0⟩ }
        = .ok { s20 with busyIn := ⟨[], 0⟩, trace := busy ++ [.busySample false, .delay 200], seqpc := 6 }
      ∧ runPrim (.poll 0) { s20 with busyIn := ⟨[true, true, true], 0⟩ }
        = .raised .busyTimeout { s20 with busyIn := ⟨[], 0⟩, trace := busy ++ [.busySample true], seqpc := 5 } := by
  decide

/-! ### Host accesses (section 2.10) -/

/-- The unit of section 2.10 with its first bytes of STAGE written. -/
def staged : State :=
  { State.resetOf (unit .fw 416 240) with stage := [(0, 0x11), (1, 0x22), (2, 0x33), (3, 0x44)] }

theorem test_read_stage : readData staged .b4 0x100000 = 0x44332211 := by decide
theorem test_write_stage :
    (after (hostWrite .b4 0x100004 0xAABBCCDD (State.resetOf (unit .fw 416 240)))).stage
      = [(4, 0xDD), (5, 0xCC), (6, 0xBB), (7, 0xAA)] := by decide
theorem test_write_stage16 :
    (after (hostWrite .b2 0x100006 0x1234 (State.resetOf (unit .fw 416 240)))).stage = [(6, 0x34), (7, 0x12)] := by
  decide
theorem test_misaligned : hostWrite .b4 0x100002 0 staged = .fault .misalignedAccess := rfl
theorem test_narrow_register : hostWrite .b1 0x000000 1 staged = .fault .misalignedAccess := rfl
theorem test_stage_locked : hostWrite .b4 0x100000 0 { staged with run := true } = .fault .stageLocked := rfl
theorem test_beyond_slot : readData staged .b4 (BitVec.ofNat 22 (0x200000 + 24960)) = 0 := by decide
theorem test_reserved_register : readData staged .b4 0x24 = 0 := by decide
theorem test_geom : readData staged .b4 0x1C = 0x00F001A0 := by decide
theorem test_config :
    readData staged .b4 0x20 = 0x00000002 ∧ configWord { nf2 with busyActive := false } = 0x00000001 := by decide
theorem test_overrun :
    (after (step { staged with
        run := true, state := .refreshing, schedIn := ⟨[true], 0⟩, hostq := [.access (.wr .b4 0 0x204)] })).overrun
      = true
      ∧ (after (hostWrite .b4 0x18 1 { staged with overrun := true })).overrun = false := by decide
/-- Program 3: STATUS 0x00040700 after an illegal word. -/
theorem test_bad_op :
    statusWord (after (step { State.resetOf fw2 with hostq := [.access (.wr .b4 0 7)] })) = 0x00040700 := by decide
/-- `op! full` (R70, R71) is a write of 0x00000202 to CMD and a waitdone. -/
theorem test_assembler :
    Asm.opDone (.init .full) = [.access (.wr .b4 0 0x00000202), .waitdone]
      ∧ Asm.window 8 10 16 4 = [.access (.wr .b4 0x08 0x000A0008), .access (.wr .b4 0x0C 0x00040010)] := by decide

/-! ### Witnesses: a state and operands that meet the hypotheses of each obligation, clause by clause -/

theorem next_of {r : Result} (h : isNext r = true) : r = .next (after r) := by
  cases r with
  | next s => rfl
  | fault e => cases h
  | refused e => cases h

/-- Whether a procedure returned. -/
def returned : Res → Bool
  | .ok _ => true
  | .raised _ _ => false

theorem returned_of {r : Res} (h : returned r = true) : ∃ t, r = .ok t := by
  cases r with
  | ok t => exact ⟨t, rfl⟩
  | raised c t => cases h

theorem xfersOk_of {s : State} {n : Nat} (h : (List.range n).all (fun k => s.xferOkAt k) = true) : s.xfersOk n :=
  fun k hk => List.all_eq_true.1 h k (List.mem_range.2 hk)

theorem idleNext_of {s : State} {n : Nat} (h : (List.range n).all (fun k => s.busyAt k != s.cfg.busyActive) = true) :
    s.idleNext n :=
  fun k hk => by simpa using List.all_eq_true.1 h k (List.mem_range.2 hk)

/-- A host program at a rest state: one CMD write, then `waitdone`. -/
def asks (w : Word) (s : State) : State := { s with hostq := [.access (.wr .b4 0 w), .waitdone] }

/-- IDLE with DEGRADED set. -/
def hurt (c : Config) (m : Mode) : State := { idleAt c m with degraded := true }

/-- IDLE with the full frame's length in XFER_LEN. -/
def filled (c : Config) (m : Mode) : State :=
  let s := idleAt c m
  { s with regs := { s.regs with xferLen := BitVec.ofNat 21 (expectedLen m.fmt (fullRect c)) } }

/-- IDLE with a legal window at the right edge of a 10 × 3 panel, one byte a row. -/
def windowed : State := { idleAt (unit .fw 10 3) .full with regs := ⟨0x00000008, 0x00030002, 3, 5000⟩ }

/-- A REFRESH in the middle of a command frame. -/
def midFrame : State :=
  { running fw2 .refresh .full with
    todo := [.prim (.xfer (.lit [0x20]) 0 1), .prim .csDeassert], pins := ⟨true, false, true⟩,
    trace := [.pin .dc false, .cs true], hostq := [.access (.rd .b4 4)] }

theorem test_witness_DecodeOfEncode :
    (fw2.wf = true ∧ (Instr.fwBorder (List.replicate 255 0) true).wf = true
        ∧ (Instr.fwBorder (List.replicate 255 0) true).fits fw2 = true)
      ∧ (nf2.wf = true ∧ Instr.nfRegLut4.wf = true ∧ Instr.nfRegLut4.fits nf2 = true) := by decide
theorem test_witness_EncodeOfDecode :
    decode fw2 (.hostWord 0x604) = .ok (.refresh .fast) ∧ decode nf2 (.frame ⟨0x13, none⟩) = .ok .nfTransmission2 := by
  decide
theorem test_witness_CmdWordLegality :
    let s := { State.resetOf fw2 with hostq := [.access (.wr .b4 0 0x803)] }
    cmdWordLegal 0x103 ∧ s.cfg.wf = true ∧ s.run = false ∧ ¬ cmdWordLegal 0x803
      ∧ s.hostq = .access (.wr .b4 0 0x803) :: [] := by unfold cmdWordLegal; decide
theorem test_witness_StepRunsHostOperation :
    let s := asks 0x202 (State.resetOf fw2)
    s.cfg.wf = true ∧ s.run = false ∧ s.hostq = .access (.wr .b4 0 0x202) :: [.waitdone]
      ∧ State.hostWaits { s with hostq := [.waitdone] } = true ∧ decodeHostOp 0x202 = .ok (.init .full) := by decide
theorem test_witness_StepRunsPanelCommand :
    let s := { fwRefresh with todo := [.frame (ruleFrame 0x20), .prim .copyForward], hostq := [.waitdone] }
    s.cfg.wf = true ∧ s.run = true ∧ s.hostWaits = true ∧ s.todo = .frame (ruleFrame 0x20) :: [.prim .copyForward]
      ∧ decodeFrame s.cfg (ruleFrame 0x20) = .ok .fwRefreshTrigger := by decide
theorem test_witness_StepIssuesAlone :
    let s := { State.resetOf fw2 with hostq := [.access (.wr .b4 0 1), .access (.rd .b4 4)] }
    s.cfg.wf = true ∧ s.run = false ∧ s.hostq = .access (.wr .b4 0 1) :: [.access (.rd .b4 4)]
      ∧ State.hostWaits { s with hostq := [.access (.rd .b4 4)] } = false ∧ decodeHostOp 1 = .ok .reset := by decide
theorem test_witness_WholeOperationIsItsSteps :
    ((idleAt fw2 .full).cfg.wf = true ∧ (idleAt fw2 .full).run = false
        ∧ (issue (.refresh .part) (idleAt fw2 .full)).run = true)
      ∧ (issue .sleep (idleAt nf2 .part)).run = true := by decide
/-- Also the hypotheses of StateMovesAlongTheRelation. -/
theorem test_witness_StepKeepsTheInvariant : midFrame.Inv ∧ ∃ t, step midFrame = .next t := by
  refine ⟨⟨by decide, by decide, by decide, by decide, by decide, by decide, by decide, by decide, by decide, by decide,
    by decide, by decide, by decide, by decide, by decide⟩, ?_⟩
  simp only [step, stepOnce, show midFrame.cfg.wf = true by decide, show midFrame.run = true by decide,
    show midFrame.hostWaits = false by decide]
  cases midFrame.hostFirst
  · exact ⟨_, rfl⟩
  · exact ⟨_, next_of (by decide)⟩
theorem test_witness_ResetMeetsTheInvariant : fw2.wf = true ∧ (unit .nf 2048 1).wf = true := by decide
theorem test_witness_StepKeepsTheParameters : ∃ t, step (asks 1 (State.resetOf fw2)) = .next t :=
  ⟨_, next_of (by decide)⟩
theorem test_witness_DegradedFlag_falls :
    ∃ t, step (asks 0x202 (hurt nf2 .full)) = .next t ∧ (asks 0x202 (hurt nf2 .full)).degraded = true
      ∧ t.degraded = false := ⟨_, next_of (by decide), by decide, by decide⟩
theorem test_witness_DegradedFlag_rises :
    let s := { asks 0x204 (idleAt nf2 .full) with xferIn := ⟨[false], 0⟩ }
    ∃ t, step s = .next t ∧ s.degraded = false ∧ t.degraded = true := ⟨_, next_of (by decide), by decide, by decide⟩
theorem test_witness_OverrunFlag_rises :
    let s := { midFrame with hostq := [.access (.wr .b4 0 7)], schedIn := ⟨[true], 0⟩ }
    ∃ t, step s = .next t ∧ s.overrun = false ∧ t.overrun = true := ⟨_, next_of (by decide), by decide, by decide⟩
theorem test_witness_OverrunFlag_falls :
    let s := { idleAt fw2 .full with overrun := true, hostq := [.access (.wr .b4 0x18 0xFFFFFFFF)] }
    ∃ t, step s = .next t ∧ s.overrun = true ∧ t.overrun = false := ⟨_, next_of (by decide), by decide, by decide⟩
theorem test_witness_HostWritesOnlyStage :
    (∃ t, hostWrite .b4 0x08 5 fwRefresh = .next t ∧ fwRefresh.run = true)
      ∧ ∃ t, hostWrite .b1 0x100001 5 (idleAt fw2 .full) = .next t :=
  ⟨⟨_, next_of (by decide), by decide⟩, _, next_of (by decide)⟩
theorem test_witness_ResetOperation : (hurt fw2 .gray).run = false ∧ (hurt fw2 .gray).todo = [] := by decide
theorem test_witness_InitAndWakeComplete :
    let s := idleAt fw2 .full
    let u := idleAt nf2 .part
    (s.cfg.wf = true ∧ s.run = false ∧ ¬ (s.cfg.variant = .nf ∧ Mode.gray = .gray)
        ∧ s.xfersOk (countXfers (tableEvents s.cfg .gray s.cfg.initSeq))
        ∧ s.idleNext (countSamples (tableEvents s.cfg .gray s.cfg.initSeq)))
      ∧ Instr.wake = .wake ∧ Mode.part = u.sessMode ∧ u.cfg.wf = true ∧ u.run = false
      ∧ ¬ (u.cfg.variant = .nf ∧ Mode.part = .gray)
      ∧ u.xfersOk (countXfers (tableEvents u.cfg .part u.cfg.initSeq))
      ∧ u.idleNext (countSamples (tableEvents u.cfg .part u.cfg.initSeq)) :=
  ⟨⟨by decide, by decide, by decide, xfersOk_of (by decide), idleNext_of (by decide)⟩, rfl, by decide, by decide,
    by decide, by decide, xfersOk_of (by decide), idleNext_of (by decide)⟩
/-- Also the hypotheses of WakeIsInit. -/
theorem test_witness_InitAndWakeOutcomes :
    let s := hurt nf2 .fast
    Mode.fast = s.sessMode ∧ s.cfg.wf = true ∧ s.run = false ∧ ¬ (s.cfg.variant = .nf ∧ Mode.fast = .gray)
      ∧ ¬ (s.cfg.variant = .nf ∧ s.sessMode = .gray) := by decide
theorem test_witness_InitIsIdempotent :
    let s := idleAt fw2 .full
    let s' := { idleAt fw2 .gray with new := [(0, 0)], degraded := true }
    s.cfg.wf = true ∧ s'.cfg = s.cfg ∧ s.run = false ∧ s'.run = false ∧ ¬ (s.cfg.variant = .nf ∧ Mode.part = .gray)
      ∧ s'.regs.timeout = s.regs.timeout ∧ s'.xferIn = s.xferIn ∧ s'.busyIn = s.busyIn := by decide
theorem test_witness_TransferCompletes_full :
    let s := filled fw2 .gray
    let r := transferRect s.cfg false s.regs.winOrg s.regs.winSize
    let merged := s.new.setAll (some white) s.cfg.slotCap (mergeCells s r)
    s.cfg.wf = true ∧ transferAccepted s false ∧ (s.cfg.variant = .nf → s.fmt = false)
      ∧ s.xfersOk (countXfers (transferEvents { s with new := merged } r)) :=
  ⟨by decide, by unfold transferAccepted; decide, by decide, xfersOk_of (by decide)⟩
theorem test_witness_TransferCompletes_window :
    let s := windowed
    let r := transferRect s.cfg true s.regs.winOrg s.regs.winSize
    let merged := s.new.setAll (some white) s.cfg.slotCap (mergeCells s r)
    s.cfg.wf = true ∧ transferAccepted s true ∧ (s.cfg.variant = .nf → s.fmt = false)
      ∧ s.xfersOk (countXfers (transferEvents { s with new := merged } r)) :=
  ⟨by decide, by unfold transferAccepted; decide, by decide, xfersOk_of (by decide)⟩
/-- Also, with every transfer to come successful, a case of TransferCompletes on NF. -/
theorem test_witness_TransferOutcomes :
    let s := filled nf2 .full
    s.cfg.wf = true ∧ transferAccepted s false ∧ (s.cfg.variant = .nf → s.fmt = false) ∧ s.xfersOk 32 :=
  ⟨by decide, by unfold transferAccepted; decide, by decide, xfersOk_of (by decide)⟩
theorem test_witness_MergeWritesTheRectangle :
    let s := windowed
    let r := windowRect s.regs.winOrg s.regs.winSize
    (s.cfg.wf = true ∧ s.new.wf (some white) = true ∧ windowLegal { s.cfg with variant := .fw } r = true
        ∧ 2 < r.wh ∧ 0 < bufferRow s.fmt r)
      ∧ ∀ row, row < r.wh → ∀ col, col < bufferRow s.fmt r →
        0 ≠ (r.y0 + row) * slotRow s.cfg s.fmt + r.x0 / pixelsPerByte s.fmt + col := by decide
theorem test_witness_MergeStaysInItsRows :
    let r : Rect := ⟨8, 0, 2, 3⟩
    (unit .fw 10 3).wf = true ∧ windowLegal { unit .fw 10 3 with variant := .fw } r = true ∧ 2 < r.wh
      ∧ 0 < bufferRow true r := by decide
/-- Pixel 1 of row 1 lies inside the 2 × 2 frame, bit position 2 in its padding. -/
theorem test_witness_PlanesHoldThePixels :
    let r := fullRect fw2
    (1 < r.wh ∧ 0 < panelRow r ∧ 1 < 8 ∧ r.x0 + 8 * 0 + 1 < r.x0 + r.ww)
      ∧ 2 < 8 ∧ ¬ r.x0 + 8 * 0 + 2 < r.x0 + r.ww := by decide
theorem test_witness_RegionIsTheRectangle :
    1 < (fullRect (unit .fw 9 2)).wh ∧ 1 < panelRow (fullRect (unit .fw 9 2)) := by decide
theorem test_witness_RefreshCompletes_fw :
    let s := { idleAt fw2 .full with new := [(0, 0)] }
    s.cfg.wf = true ∧ refreshAccepted s .part ∧ s.xfersOk (countXfers (refreshEvents s .part))
      ∧ s.idleNext (countSamples (refreshEvents s .part)) :=
  ⟨by decide, by unfold refreshAccepted; decide, xfersOk_of (by decide), idleNext_of (by decide)⟩
theorem test_witness_RefreshCompletes_gray :
    let s := { idleAt fw2 .gray with new := [(0, 0)] }
    s.cfg.wf = true ∧ refreshAccepted s .gray ∧ s.xfersOk (countXfers (refreshEvents s .gray))
      ∧ s.idleNext (countSamples (refreshEvents s .gray)) :=
  ⟨by decide, by unfold refreshAccepted; decide, xfersOk_of (by decide), idleNext_of (by decide)⟩
theorem test_witness_RefreshCompletes_nf :
    let s := { idleAt nf2 .part with new := [(0, 0)] }
    s.cfg.wf = true ∧ refreshAccepted s .fast ∧ s.xfersOk (countXfers (refreshEvents s .fast))
      ∧ s.idleNext (countSamples (refreshEvents s .fast)) :=
  ⟨by decide, by unfold refreshAccepted; decide, xfersOk_of (by decide), idleNext_of (by decide)⟩
/-- A mode without a profile; and a LUT upload that returns, and one whose command fails. -/
theorem test_witness_RefreshOutcomes :
    let s := idleAt fw2 .full
    let f := { s with xferIn := ⟨[false], 0⟩ }
    let a := { issue (.refresh .part) s with todo := [] }
    let b := { issue (.refresh .part) f with todo := [] }
    ((idleAt nf2 .part).cfg.wf = true ∧ refreshAccepted (idleAt nf2 .part) .full)
      ∧ (s.cfg.wf = true ∧ refreshAccepted s .part
        ∧ returned (runPrims ((ensureLut s .part).flatMap (Micro.expand a)) a) = true)
      ∧ f.cfg.wf = true ∧ refreshAccepted f .part
      ∧ returned (runPrims ((ensureLut f .part).flatMap (Micro.expand b)) b) = false := by
  unfold refreshAccepted; decide +kernel
theorem test_witness_SecondRefreshIsAllZeroDelta :
    let s := { idleAt nf2 .part with new := [(0, 0)] }
    s.cfg.wf = true ∧ refreshAccepted s .part
      ∧ ∃ t, exec (.refresh .part) s = .next t ∧ t.err = .ok ∧ t.xfersOk (countXfers (refreshEvents t .part))
        ∧ t.idleNext (countSamples (refreshEvents t .part)) :=
  ⟨by decide, by unfold refreshAccepted; decide, _, next_of (by decide), by decide, xfersOk_of (by decide),
    idleNext_of (by decide)⟩
/-- The last byte of the slot, and the first beyond it. -/
theorem test_witness_CopyForwardCopiesTheSlot :
    1 < (idleAt fw2 .full).cfg.slotCap ∧ (idleAt fw2 .full).cfg.slotCap ≤ 2 := by decide
theorem test_witness_SleepCompletes :
    let s := hurt nf2 .part
    s.cfg.wf = true ∧ s.run = false ∧ s.state = .idle
      ∧ s.xfersOk (countXfers (tableEvents s.cfg .gray s.cfg.sleepSeq))
      ∧ s.idleNext (countSamples (tableEvents s.cfg .gray s.cfg.sleepSeq)) :=
  ⟨by decide, by decide, by decide, xfersOk_of (by decide), idleNext_of (by decide)⟩
theorem test_witness_SleepOutcomes :
    let s := { idleAt fw2 .full with xferIn := ⟨[false], 0⟩ }
    s.cfg.wf = true ∧ s.run = false ∧ s.state = .idle := by decide
theorem test_witness_CmdWriteWhileRunning :
    let s := { midFrame with hostq := [.access (.wr .b4 0 7)], schedIn := ⟨[true], 0⟩ }
    s.run = true ∧ Instr.sleep ∈ [Instr.reset, .init .full, .transfer true, .refresh .full, .sleep, .wake]
      ∧ s.cfg.wf = true ∧ s.hostq = .access (.wr .b4 0 7) :: [] ∧ s.hostFirst = true := by decide
theorem test_witness_AcceptedCmdWrites :
    (State.resetOf fw2).run = false ∧ ¬ ((State.resetOf nf2).cfg.variant = .nf ∧ Mode.full = .gray)
      ∧ ¬ ((State.resetOf nf2).cfg.variant = .nf ∧ (State.resetOf nf2).sessMode = .gray)
      ∧ transferAccepted (filled fw2 .full) false ∧ transferAccepted windowed true
      ∧ refreshAccepted (idleAt fw2 .gray) .gray ∧ (idleAt fw2 .full).state = .idle := by
  unfold transferAccepted refreshAccepted; decide
theorem test_witness_IssueRejections_state :
    ({ idleAt fw2 .full with state := .sleeping }.run = false
        ∧ { idleAt fw2 .full with state := .sleeping }.state = .sleeping)
      ∧ (State.resetOf fw2).run = false ∧ (State.resetOf fw2).state = .uninit := by decide
theorem test_witness_IssueRejections_mode :
    ((hurt fw2 .full).run = false ∧ (hurt fw2 .full).state = .idle ∧ (hurt fw2 .full).degraded = true)
      ∧ (idleAt nf2 .full).cfg.variant = .nf
      ∧ ({ idleAt nf2 .full with sessMode := .gray }.cfg.variant = .nf
        ∧ { idleAt nf2 .full with sessMode := .gray }.sessMode = .gray)
      ∧ ((idleAt fw2 .full).state = .idle ∧ (idleAt fw2 .full).degraded = false ∧ Mode.gray.fmt ≠ (idleAt fw2 .full).fmt)
      ∧ ((idleAt nf2 .full).state = .idle ∧ (idleAt nf2 .full).degraded = false
        ∧ (idleAt nf2 .full).cfg.variant = .nf ∧ Mode.gray = .gray) := by decide
theorem test_witness_IssueRejections_transfer :
    let off := { windowed with regs := ⟨0x00000007, 0x00030002, 3, 5000⟩ }
    let short := { windowed with regs := ⟨0x00000008, 0x00030002, 2, 5000⟩ }
    (off.run = false ∧ off.state = .idle ∧ off.degraded = false
        ∧ windowLegal off.cfg (windowRect off.regs.winOrg off.regs.winSize) = false)
      ∧ short.run = false ∧ short.state = .idle ∧ short.degraded = false
      ∧ windowLegal short.cfg (windowRect short.regs.winOrg short.regs.winSize) = true
      ∧ short.regs.xferLen.toNat
        ≠ expectedLen short.fmt (transferRect short.cfg true short.regs.winOrg short.regs.winSize) := by decide
/-- The windows of section 2.6 on 416 × 240, W = 9 and W = 10. -/
theorem test_windows :
    let c := unit .fw 416 240
    ([⟨0, 0, 416, 240⟩, ⟨8, 10, 16, 4⟩, ⟨408, 0, 8, 1⟩] : List Rect).all (windowLegal c) = true
      ∧ ([⟨4, 0, 8, 1⟩, ⟨0, 0, 12, 1⟩, ⟨0, 0, 0, 1⟩, ⟨0, 0, 8, 0⟩, ⟨400, 0, 17, 1⟩, ⟨0, 239, 8, 2⟩, ⟨415, 0, 1, 1⟩] :
        List Rect).any (windowLegal c) = false
      ∧ windowLegal (unit .fw 9 1) ⟨8, 0, 1, 1⟩ = true ∧ windowLegal (unit .fw 10 3) ⟨8, 0, 2, 3⟩ = true
      ∧ windowLegal (unit .nf 416 240) ⟨0, 0, 416, 240⟩ = false := by decide
/-- A window register with Y0 or WH in its high half and X0 or WW in its low half. -/
def halves (high low : BitVec 16) : Word := high ++ low

theorem test_witness_LegalWindows :
    let s := { windowed with regs := ⟨halves 0 7, halves 3 2, 3, 0⟩ }
    (s.run = false ∧ s.state = .idle ∧ s.degraded = false ∧ s.regs.winOrg = halves 0 7 ∧ s.regs.winSize = halves 3 2)
      ∧ windowed.regs.winOrg = halves 0 8 ∧ windowed.regs.winSize = halves 3 2 := by decide
theorem test_witness_ExpectedLengths :
    (unit .fw 9 3).wf = true ∧ windowLegal (unit .fw 9 3) ⟨8, 2, 1, 1⟩ = true := by decide
theorem test_witness_FwTableCommandsSend :
    fwInit.xfersOk (commandXfers fwInit.cfg 255) ∧ fwInit.idleNext 1
      ∧ (Instr.fwBorder [0x05] true, (0x3C : Byte)) ∈ [(Instr.fwBorder [0x05] true, (0x3C : Byte))] :=
  ⟨xfersOk_of (by decide), idleNext_of (by decide), by decide⟩
theorem test_witness_FwRuleCommandsSend :
    (fwRefresh.fmt = false ∧ fwRefresh.latch.op = .refresh ∧ fwRefresh.idleNext 1
        ∧ fwRefresh.xfersOk (commandXfers fwRefresh.cfg (fwRefresh.readOld 0 fwRefresh.cfg.frame1).length)
        ∧ fwRefresh.xfersOk (commandXfers fwRefresh.cfg 105))
      ∧ fwGray.fmt = true ∧ fwGray.latch.op ≠ .refresh
      ∧ fwGray.xfersOk (commandXfers fwGray.cfg (plane 0 fwGray fwGray.rect).length) :=
  ⟨⟨by decide, by decide, idleNext_of (by decide), xfersOk_of (by decide), xfersOk_of (by decide)⟩, by decide,
    by decide, xfersOk_of (by decide)⟩
theorem test_witness_NfCommandsSend :
    let s := running nf2 .refresh .fast
    (nfRefresh.latch.mode = .part ∧ nfRefresh.xfersOk (commandXfers nfRefresh.cfg 30) ∧ nfRefresh.idleNext 1)
      ∧ s.latch.mode = .fast ∧ s.xfersOk (commandXfers s.cfg (s.readNew 0 s.cfg.frame1).length) :=
  ⟨⟨by decide, xfersOk_of (by decide), idleNext_of (by decide)⟩, by decide, xfersOk_of (by decide)⟩
theorem test_witness_PanelCommandFrame :
    (panelByte fw2 .fwRefreshTrigger = some 0x20 ∧ fwInit.latch.op = .init) ∧ fwRefresh.latch.op = .refresh := by decide
theorem test_witness_FailedCommandEndsTheOperation :
    let s := { fwInit with xferIn := ⟨[false], 0⟩ }
    let u := { nfRefresh with xferIn := ⟨[false], 0⟩ }
    (panelByte s.cfg .fwYCursor = some 0x4F ∧ s.xferOk = false ∧ s.latch.op = .init)
      ∧ panelByte u.cfg .nfRegLut3 = some 0xA3 ∧ u.xferOk = false ∧ u.latch.op = .refresh := by decide
theorem test_witness_UnlistedTableByteIsSent :
    let s := { fwInit with todo := [.frame (tableFrame 0x99 [0x01] true)], hostq := [.waitdone] }
    s.cfg.wf = true ∧ s.run = true ∧ s.hostWaits = true ∧ s.todo = .frame (tableFrame 0x99 [0x01] true) :: []
      ∧ decodeFrame s.cfg (tableFrame 0x99 [0x01] true) = .error (.notListed 0x99)
      ∧ s.xfersOk (commandXfers s.cfg 1) ∧ s.idleNext 1 :=
  ⟨by decide, by decide, by decide, by decide, by decide, xfersOk_of (by decide), idleNext_of (by decide)⟩
/-- Two chunks of literal bytes, and three of OLD. -/
theorem test_witness_DataFrameChunks :
    let s := running { unit .fw 8 5 with maxChunk := 2 } .refresh .part
    ((1 ≤ 512 ∧ 1 < ceilDiv (List.replicate 513 (0 : Byte)).length 512)
        ∧ Source.bytes fwInit (.lit (List.replicate 513 0)) ≠ []
        ∧ fwInit.xfersOk (ceilDiv (Source.bytes fwInit (.lit (List.replicate 513 0))).length fwInit.cfg.maxChunk))
      ∧ Source.bytes s (.oldFrame 5) ≠ [] ∧ 2 < ceilDiv (Source.bytes s (.oldFrame 5)).length s.cfg.maxChunk
      ∧ s.xfersOk (ceilDiv (Source.bytes s (.oldFrame 5)).length s.cfg.maxChunk) :=
  ⟨⟨by decide, by decide, xfersOk_of (by decide)⟩, by decide, by decide, xfersOk_of (by decide)⟩
/-- The second chunk of literal bytes, and the last of a region of NEW. -/
theorem test_witness_FailedChunkEndsTheFrame :
    let s := { running { unit .fw 8 3 with maxChunk := 2 } .transfer .full with xferIn := ⟨[true, false], 0⟩ }
    let src : Source := .region (fullRect s.cfg)
    (Source.bytes s (.lit [1, 2, 3]) ≠ [] ∧ 1 < ceilDiv (Source.bytes s (.lit [1, 2, 3])).length s.cfg.maxChunk)
      ∧ src.bytes s ≠ [] ∧ 1 < ceilDiv (src.bytes s).length s.cfg.maxChunk ∧ s.xfersOk 1 ∧ s.xferOkAt 1 = false :=
  ⟨by decide, by decide, by decide, xfersOk_of (by decide), by decide⟩
theorem test_witness_WaitIdleEnds : 1 ≤ { fw2 with pollMs := 1 }.pollMs := by decide
/-- The last address of the address space, and the register space with a narrow access. -/
theorem test_witness_MisalignedAccessFaults :
    (0x3FFFFF : HostAddr).toNat % Width.b2.bytes ≠ 0
      ∧ ((0xFC : HostAddr).toNat < 0x100 ∧ Width.b2 ≠ .b4) := by decide
theorem test_witness_StageIsLockedWhileRunning :
    (0x1FFFFC : HostAddr).toNat % Width.b4.bytes = 0 ∧ fwRefresh.run = true ∧ 0x100000 ≤ (0x1FFFFC : HostAddr).toNat
      ∧ (0x1FFFFC : HostAddr).toNat < 0x200000 := by decide
theorem test_witness_ReadsHaveNoSideEffect : ∃ t, hostRead .b4 0x3FFFFC fwRefresh = .next t :=
  ⟨_, next_of (by decide)⟩
/-- The last two bytes of a slot of 6 bytes, written with a word: two bytes land, two do not. -/
theorem test_witness_StageWriteIsLittleEndian :
    let s := idleAt (unit .fw 5 3) .full
    s.stage.wf none = true ∧ 4 < 0x100000 ∧ 4 % Width.b4.bytes = 0 ∧ s.run = false
      ∧ (1 < Width.b4.bytes ∧ 4 + 1 < s.cfg.slotCap) ∧ (3 < 4 ∧ 4 + Width.b4.bytes ≤ 8 ∧ s.cfg.slotCap ≤ 6) := by decide
theorem test_witness_ApertureReadIsLittleEndian :
    0xFFFFF < 0x100000 ∧ 3 < 4 ∧ (0 < Width.b1.bytes ∧ 5 + 0 < (unit .fw 5 3).slotCap)
      ∧ ¬ (1 < Width.b1.bytes ∧ 5 + 1 < (unit .fw 5 3).slotCap) := by decide
theorem test_witness_GeomAndConfig :
    (State.resetOf (unit .fw 2048 2048)).cfg.wf = true ∧ (State.resetOf (unit .nf 1 1)).cfg.wf = true := by decide
theorem test_witness_ReservedSpaceIsInert :
    ((0xFFFFF : HostAddr).toNat % Width.b1.bytes = 0 ∧ 0x100 ≤ (0xFFFFF : HostAddr).toNat
        ∧ (0xFFFFF : HostAddr).toNat < 0x100000)
      ∧ (0x24 ≤ (0xFC : HostAddr).toNat ∧ (0xFC : HostAddr).toNat < 0x100)
      ∧ 0x200000 ≤ (0x200000 : HostAddr).toNat := by decide
theorem test_witness_WaitdoneGivesStatus :
    let s := { idleAt fw2 .full with hostq := [.waitdone] }
    let u := { fwRefresh with hostq := [.waitdone], todo := [.frame (ruleFrame 0x20)] }
    (s.cfg.wf = true ∧ s.hostq = .waitdone :: [] ∧ s.run = false)
      ∧ u.cfg.wf = true ∧ u.hostq = .waitdone :: [] ∧ u.run = true ∧ ∃ t, step u = .next t :=
  ⟨by decide, by decide, by decide, by decide, _, next_of (by decide)⟩
/-- A command, a data frame, a wait with one busy sample, a wait of one poll that times out, a window, and the LUT of
either variant. -/
theorem test_witness_TimedLengths :
    let s := { fwInit with busyIn := ⟨[true, false], 0⟩ }
    let u := { fwInit with busyIn := ⟨[true, true], 0⟩, latch := { fwInit.latch with timeout := 10 } }
    (s.cfg.wf = true ∧ s.xferOk = true ∧ ∃ t, runPrims (dataFrame s.cfg (.lit [0x05])) s = .ok t)
      ∧ (1 ≤ ceilDiv s.latch.timeout.toNat s.cfg.pollMs ∧ (∀ i, i < 1 → s.busyAt i = s.cfg.busyActive)
        ∧ s.busyAt 1 ≠ s.cfg.busyActive)
      ∧ (∀ i, i ≤ ceilDiv u.latch.timeout.toNat u.cfg.pollMs → u.busyAt i = u.cfg.busyActive)
      ∧ (s.cfg.variant = .fw ∧ ∃ t, runPrims (setWindow.flatMap (Micro.expand s)) s = .ok t)
      ∧ (∃ t, runPrims ((installLut s.cfg .full).flatMap (Micro.expand s)) s = .ok t)
      ∧ nfRefresh.cfg.wf = true
      ∧ ∃ t, runPrims ((installLut nf2 .part).flatMap (Micro.expand nfRefresh)) nfRefresh = .ok t :=
  ⟨⟨by decide, by decide, returned_of (by decide)⟩, by decide, by decide, ⟨by decide, returned_of (by decide)⟩,
    returned_of (by decide +kernel), by decide, returned_of (by decide +kernel)⟩
/-- R190 by hand, for a table of WAIT, one command, WINDOW_FULL and LUT: 400 + 1 + 4 + 1 + two waits of 200. -/
theorem test_timed_init : timedMs (sent (.init .gray) (idleAt fw2 .full)) = 806 := by decide +kernel
/-- Each operation, from one state of either variant, with t the state it ends in. -/
theorem test_witness_TimedOperations :
    let s := filled fw2 .gray
    let u := filled nf2 .part
    (s.cfg.wf = true ∧ s.run = false ∧ ¬ (s.cfg.variant = .nf ∧ Mode.gray = .gray) ∧ transferAccepted s false
        ∧ refreshAccepted s .gray ∧ s.state = .idle)
      ∧ (u.cfg.wf = true ∧ u.run = false ∧ ¬ (u.cfg.variant = .nf ∧ u.sessMode = .gray) ∧ transferAccepted u false
        ∧ refreshAccepted u .fast ∧ u.state = .idle)
      ∧ (∀ i ∈ [Instr.reset, .init .gray, .transfer false, .refresh .gray, .sleep],
        isNext (exec i s) = true ∧ (after (exec i s)).err = .ok)
      ∧ ∀ i ∈ [Instr.wake, .transfer false, .refresh .fast, .sleep],
        isNext (exec i u) = true ∧ (after (exec i u)).err = .ok := by
  unfold transferAccepted refreshAccepted; decide +kernel

end Sys2Proof.Tests
end

section
/-! The parameters and STAGE over a step (R11, R37, R39), the parts of the invariant that the end of an operation, a
CMD write and a step of the sequencer keep, and the lengths of rectangles (R12, R112). -/

namespace Sys2Proof.Machine

/-! ### The parameters and STAGE -/

/-- A CMD write changes neither the parameters nor STAGE (R162). -/
theorem issue_cfg_stage (i : Instr) (s : State) : (issue i s).cfg = s.cfg ∧ (issue i s).stage = s.stage := by
  rcases issue_cases i s with h | ⟨-, h⟩ | ⟨-, e, h⟩ | ⟨-, op, m, win, l, sm, f, ms, h⟩ <;>
    rw [h] <;> exact ⟨rfl, rfl⟩

theorem issueIllegal_cfg_stage (s : State) :
    (issueIllegal s).cfg = s.cfg ∧ (issueIllegal s).stage = s.stage := by
  unfold issueIllegal issueCmd
  split
  · exact ⟨rfl, rfl⟩
  · exact ⟨rfl, rfl⟩

/-- An operation changes nothing on the host's side from its acceptance to its end (R20, R37). -/
theorem complete_hostSide (a : State) : hostSideSame a (complete a) := by
  have hs := (runMicros_seqOnly a.todo { a with todo := [] }).hostSide
  rw [complete_eq]
  obtain ⟨st, e, d, l, h, -⟩ := toEnd_frame (runMicros a.todo { a with todo := [] })
  rw [h]; exact hs

theorem carryOut_cfg_stage (i : Instr) (s : State) :
    (carryOut (issue i s) s).cfg = s.cfg ∧ (carryOut (issue i s) s).stage = s.stage := by
  have hi := issue_cfg_stage i s
  unfold carryOut
  split
  · exact hi
  · split
    · obtain ⟨hc, -, hst, -⟩ := complete_hostSide (issue i s)
      exact ⟨hc.trans hi.1, hst.trans hi.2⟩
    · exact hi

theorem sequencerStep_cfg_stage (s : State) :
    (sequencerStep s).cfg = s.cfg ∧ (sequencerStep s).stage = s.stage := by
  rcases sequencerStep_cases s with ⟨-, h⟩ | ⟨c, u, -, hu, h⟩ | ⟨u, ms, hu, h⟩ <;> rw [h]
  · exact ⟨finish_cfg s, finish_stage s⟩
  · exact ⟨(abort_cfg c u).trans hu.cfg, (abort_stage c u).trans hu.stage⟩
  · exact ⟨hu.cfg, hu.stage⟩

theorem perform_cfg_stage (f : Frame) (s s' : State) :
    (perform (framePlan f s) s').cfg = s'.cfg ∧ (perform (framePlan f s) s').stage = s'.stage := by
  obtain ⟨u, hu, -, h | ⟨c, -, h⟩⟩ := perform_frame f s s' <;> rw [h]
  · exact ⟨hu.seqOnly.cfg, hu.seqOnly.stage⟩
  · exact ⟨(abort_cfg c u).trans hu.seqOnly.cfg, (abort_stage c u).trans hu.seqOnly.stage⟩

/-- A host write that is answered stores a run of cells in STAGE, or leaves it (R43, R47). -/
theorem hostWrite_stage {w : Width} {a : HostAddr} {v : Word} {s t : State} (h : hostWrite w a v s = .next t) :
    t.stage = s.stage ∨ ∃ cells, t.stage = s.stage.setAll none s.cfg.slotCap cells := by
  unfold hostWrite at h
  split at h
  swap
  · cases h
  split at h
  · cases h; exact .inl (by rw [writeRegister_frame])
  · cases h; exact .inl rfl
  · split at h <;> cases h; exact .inr ⟨_, rfl⟩
  · cases h; exact .inl rfl
  · cases h; exact .inl rfl

/-- A CMD write, alone or with its whole operation, changes neither the parameters nor STAGE (R162). -/
theorem cmdWrite_cfg_stage {w : Word} {s t : State} (h : cmdWrite w s = .next t) :
    t.cfg = s.cfg ∧ t.stage = s.stage := by
  cases hd : decodeHostOp w with
  | error e => rw [cmdWrite_illegal hd] at h; cases h; exact issueIllegal_cfg_stage s
  | ok i =>
    cases hw : s.hostWaits with
    | true =>
      rw [cmdWrite_waits hd hw, exec_hostOp (decodeHostOp_cases hd)] at h
      cases h; exact carryOut_cfg_stage i s
    | false => rw [cmdWrite_goesOn hd hw] at h; cases h; exact issue_cfg_stage i s

/-- The host's step keeps the parameters, and stores a run of cells in STAGE or leaves it. -/
theorem hostStep_cfg_stage {s t : State} (h : hostStep s = .next t) :
    t.cfg = s.cfg ∧ (t.stage = s.stage ∨ ∃ cells, t.stage = s.stage.setAll none s.cfg.slotCap cells) := by
  unfold hostStep at h
  split at h
  · cases h; exact ⟨rfl, .inl rfl⟩
  · cases h; exact ⟨rfl, .inl rfl⟩
  · unfold hostAccess at h
    split at h
    · obtain ⟨hc, hst⟩ := cmdWrite_cfg_stage h
      exact ⟨hc, .inl hst⟩
    · split at h
      · rw [hostRead_frame h]; exact ⟨rfl, .inl rfl⟩
      · have hst := hostWrite_stage h
        exact ⟨by rw [hostWrite_frame h], hst⟩

/-- The sequencer's step while the host waits changes neither the parameters nor STAGE. -/
theorem quietStep_cfg_stage {s t : State} (h : quietStep s = .next t) : t.cfg = s.cfg ∧ t.stage = s.stage := by
  have hs := sequencerStep_cfg_stage s
  cases ht : s.todo with
  | nil => rw [sequencerStep_nil ht] at hs; unfold quietStep at h; rw [ht] at h; cases h; exact hs
  | cons m rest =>
    cases m with
    | prim p => rw [sequencerStep_prim ht] at hs; unfold quietStep at h; rw [ht] at h; cases h; exact hs
    | frame f => rw [quietStep_frame ht] at h; cases h; exact perform_cfg_stage f s { s with todo := rest }

/-- A step keeps the parameters, and stores a run of cells in STAGE or leaves it (R11, R37, R39). -/
theorem step_cfg_stage {s t : State} (h : step s = .next t) :
    t.cfg = s.cfg ∧ (t.stage = s.stage ∨ ∃ cells, t.stage = s.stage.setAll none s.cfg.slotCap cells) := by
  obtain ⟨hc, -⟩ := step_cases h
  cases hr : s.run with
  | false => rw [step_idle hc hr] at h; exact hostStep_cfg_stage h
  | true =>
    cases hw : s.hostWaits with
    | true =>
      rw [step_quiet hc hr hw] at h
      exact (quietStep_cfg_stage h).imp id .inl
    | false =>
      cases hf : s.hostFirst with
      | true =>
        rw [step_hostFirst hc hr hw hf] at h
        exact hostStep_cfg_stage (s := { s with schedIn := s.schedIn.rest }) h
      | false =>
        rw [step_sequencerFirst hc hr hw hf] at h; cases h
        exact (sequencerStep_cfg_stage { s with schedIn := s.schedIn.rest }).imp id .inl

/-! ### The parts of the invariant -/

/-- The part of the invariant that speaks neither of the running operation nor of the pseudocode that is left: the
parameters (R14), the memories' form (R37), the trace's frames (R79) and the session (R33, R103). -/
structure State.Base (s : State) : Prop where
  params : s.cfg.wf = true
  stageWf : s.stage.wf none = true
  stageBelow : s.stage.below s.cfg.slotCap = true
  slots : s.slotsOk
  framed : s.framedOk
  nfSession : s.cfg.variant = .nf → s.sessMode ≠ .gray
  session : s.fmt = s.sessMode.fmt

theorem State.Inv.base {s : State} (h : s.Inv) : s.Base :=
  ⟨h.params, h.stageWf, h.stageBelow, ⟨h.newWf, h.newBelow, h.oldWf, h.oldBelow⟩, h.frames, h.nfSession, h.session⟩

/-- The base is kept where only what `seqOnly` names changes, if NEW, OLD and the trace keep their form. -/
theorem State.Base.seqOnly {s u : State} (h : s.Base) (hu : Machine.seqOnly s u) (hs : u.slotsOk) (hf : u.framedOk) :
    u.Base where
  params := by rw [hu.cfg]; exact h.params
  stageWf := by rw [hu.stage]; exact h.stageWf
  stageBelow := by rw [hu.stage, hu.cfg]; exact h.stageBelow
  slots := hs
  framed := hf
  nfSession := by rw [hu.cfg, hu.sessMode]; exact h.nfSession
  session := by rw [hu.fmt, hu.sessMode]; exact h.session

/-- The invariant of a state in which an operation runs, from its base. -/
theorem State.Base.running {s : State} (h : s.Base) (hr : s.run = true) (hst : s.state = runningState s.latch.op)
    (he : s.err = .ok) (hl : linesOk s.pins.cs s.pins.rst s.todo = true) : s.Inv where
  params := h.params
  stageWf := h.stageWf
  stageBelow := h.stageBelow
  newWf := h.slots.1
  newBelow := h.slots.2.1
  oldWf := h.slots.2.2.1
  oldBelow := h.slots.2.2.2
  runState := by rw [hr, hst]; cases s.latch.op <;> rfl
  runOp := fun _ => hst
  runErr := fun _ => he
  idleTodo := fun h0 => by rw [hr] at h0; cases h0
  lines := hl
  frames := h.framed
  nfSession := h.nfSession
  session := h.session

/-- The invariant of a state at rest, from its base. -/
theorem State.Base.atRest {s : State} (h : s.Base) (hr : s.run = false) (hst : s.state.isRunning = false)
    (ht : s.todo = []) (hcs : s.pins.cs = false) (hrst : s.pins.rst = true) : s.Inv where
  params := h.params
  stageWf := h.stageWf
  stageBelow := h.stageBelow
  newWf := h.slots.1
  newBelow := h.slots.2.1
  oldWf := h.slots.2.2.1
  oldBelow := h.slots.2.2.2
  runState := hr.trans hst.symm
  runOp := fun h1 => by rw [hr] at h1; cases h1
  runErr := fun h1 => by rw [hr] at h1; cases h1
  idleTodo := fun _ => ht
  lines := by rw [ht, hcs, hrst]; rfl
  frames := h.framed
  nfSession := h.nfSession
  session := h.session

/-! ### The end of an operation -/

/-- An operation ends, or aborts, in a state at rest. -/
theorem toEnd_inv {r : Res} (h : r.state.Base) (hcs : r.state.pins.cs = false) (hrst : r.state.pins.rst = true) :
    r.toEnd.Inv := by
  obtain ⟨st, e, d, l, hr, -, hst⟩ := toEnd_frame r
  have hb : r.toEnd.Base := by
    rw [hr]
    exact ⟨h.params, h.stageWf, h.stageBelow, h.slots, h.framed, h.nfSession, h.session⟩
  rw [hr] at hb ⊢
  exact hb.atRest rfl hst rfl hcs hrst

theorem finish_inv {s : State} (h : s.Base) (hcs : s.pins.cs = false) (hrst : s.pins.rst = true) : (finish s).Inv :=
  toEnd_inv (r := .ok s) h hcs hrst

theorem abort_inv {s : State} (c : ErrCode) (h : s.Base) (hcs : s.pins.cs = false) (hrst : s.pins.rst = true) :
    (abort c s).Inv :=
  toEnd_inv (r := .raised c s) h hcs hrst

/-- A whole operation keeps the invariant. -/
theorem complete_inv {a : State} (h : a.Inv) : (complete a).Inv := by
  obtain ⟨hf, hcs, hrst⟩ := runMicros_lines (s := { a with todo := [] }) h.lines h.base.framed
  have hb : State.Base { a with todo := [] } :=
    ⟨h.params, h.stageWf, h.stageBelow, h.base.slots, h.frames, h.nfSession, h.session⟩
  rw [complete_eq]
  exact toEnd_inv (hb.seqOnly (runMicros_seqOnly _ _) (runMicros_slotsOk hb.slots) hf) hcs hrst

/-! ### The CMD write -/

/-- At rest, CS is deasserted and RST high (R73, R96). -/
theorem State.Inv.restLines {s : State} (h : s.Inv) (hr : s.run = false) : s.pins.cs = false ∧ s.pins.rst = true := by
  have hl := h.lines
  rw [h.idleTodo hr] at hl
  simpa [linesOk] using hl

/-- An acceptance keeps the invariant, if the operation's pseudocode keeps the bus protocol and the session it enters
is one the EPDC has (R33, R103). -/
theorem accept_inv {s : State} (h : s.Inv) (hr : s.run = false) (op : OpCode) (m : Mode) (win l : Bool) {sm : Mode}
    {f : Level} {ms : List Micro} (hms : linesOk false true ms = true) (hn : s.cfg.variant = .nf → sm ≠ .gray)
    (hf : f = sm.fmt) :
    State.Inv { accept op m win s with lutValid := l, sessMode := sm, fmt := f, todo := ms } := by
  obtain ⟨hcs, hrst⟩ := h.restLines hr
  refine State.Base.running ⟨h.params, h.stageWf, h.stageBelow, h.base.slots, h.frames, hn, hf⟩ rfl rfl rfl ?_
  show linesOk s.pins.cs s.pins.rst ms = true
  rw [hcs, hrst]; exact hms

/-- A CMD write keeps the invariant if the state it accepts into has it: a rejection at rest changes ERR only, and
OVERRUN is free (R162). -/
theorem issueCmd_inv {s a : State} {e : ErrCode} (h : s.Inv) (ha : s.run = false → e = .ok → a.Inv) :
    (issueCmd e a s).Inv := by
  cases hr : s.run with
  | true =>
    rw [issueCmd_running hr]
    exact ⟨h.params, h.stageWf, h.stageBelow, h.newWf, h.newBelow, h.oldWf, h.oldBelow, h.runState, h.runOp, h.runErr,
      h.idleTodo, h.lines, h.frames, h.nfSession, h.session⟩
  | false =>
    by_cases he : e = .ok
    · subst he; rw [issueCmd_accepted hr]; exact ha hr rfl
    · obtain ⟨hcs, hrst⟩ := h.restLines hr
      rw [issueCmd_rejected hr he]
      exact State.Base.atRest ⟨h.params, h.stageWf, h.stageBelow, h.base.slots, h.frames, h.nfSession, h.session⟩ hr
        (h.runState.symm.trans hr) (h.idleTodo hr) hcs hrst

/-- INIT and WAKE are accepted in no GRAY mode on NF (R103, R106). -/
theorem checkInitMode_eq_ok {c : Config} {m : Mode} (h : checkInitMode c m = .ok) : c.variant = .nf → m ≠ .gray := by
  intro hv hm
  unfold checkInitMode at h
  rw [if_pos ⟨hv, hm⟩] at h
  cases h

theorem startInitOp_inv {s : State} (h : s.Inv) (op : OpCode) (m : Mode) :
    (issueCmd (checkInitMode s.cfg m) (acceptInit op m s) s).Inv :=
  issueCmd_inv h fun hr he =>
    accept_inv h hr op m false false (linesOk_initProgram s.cfg m true) (checkInitMode_eq_ok he) rfl

/-- An accepted operation that does not change the session. -/
theorem startSessionOp_inv {s : State} (h : s.Inv) (e : ErrCode) (op : OpCode) (m : Mode) (win l : Bool)
    {ms : List Micro} (hms : linesOk false true ms = true) :
    (issueCmd e { accept op m win s with lutValid := l, todo := ms } s).Inv :=
  issueCmd_inv h fun hr _ => accept_inv h hr op m win l hms h.nfSession h.session

/-- The CMD write of every operation keeps the invariant; a panel command is not written to CMD. -/
theorem issue_inv {s : State} (h : s.Inv) (i : Instr) : (issue i s).Inv := by
  cases i with
  | reset => exact startSessionOp_inv h .ok .reset .gray false false (linesOk_resetPulse s.cfg true)
  | init m => exact startInitOp_inv h .init m
  | transfer win =>
    exact startSessionOp_inv h _ .transfer .gray win s.lutValid (linesOk_transferProgram s.cfg s.fmt)
  | refresh m => exact startSessionOp_inv h _ .refresh m false s.lutValid (linesOk_refreshProgram s m)
  | sleep => exact startSessionOp_inv h _ .sleep .gray false s.lutValid (linesOk_runSeq s.cfg .gray s.cfg.sleepSeq)
  | wake => exact startInitOp_inv h .wake s.sessMode
  | _ => exact h

theorem issueIllegal_inv {s : State} (h : s.Inv) : (issueIllegal s).Inv :=
  issueCmd_inv h fun _ he => by cases he

/-- A host operation with all its steps keeps the invariant. -/
theorem carryOut_inv {s : State} (h : s.Inv) (i : Instr) : (carryOut (issue i s) s).Inv := by
  have hi := issue_inv h i
  unfold carryOut
  split
  · exact hi
  · split
    · exact complete_inv hi
    · exact hi

/-! ### The sequencer -/

/-- While an operation runs, the invariant is kept where only what `seqOnly` names and the pseudocode that is left
change, if the memories and the trace keep their form and the bus protocol is kept from there on. -/
theorem State.Inv.seqOnly {s u : State} {ms : List Micro} (h : s.Inv) (hr : s.run = true) (hu : Machine.seqOnly s u)
    (hs : u.slotsOk) (hf : u.framedOk) (hl : linesOk u.pins.cs u.pins.rst ms = true) :
    State.Inv { u with todo := ms } := by
  have hb := h.base.seqOnly hu hs hf
  refine State.Base.running ⟨hb.params, hb.stageWf, hb.stageBelow, hb.slots, hb.framed, hb.nfSession, hb.session⟩
    (hu.run.trans hr) ?_ (hu.err.trans (h.runErr hr)) hl
  show u.state = runningState u.latch.op
  rw [hu.state, hu.latch]; exact h.runOp hr

/-- A primitive that returns leaves the invariant with the pseudocode behind it. -/
theorem runPrim_inv {p : Prim} {rest : List Micro} {s t : State} (h : s.Inv) (hr : s.run = true)
    (ht : s.todo = .prim p :: rest) (hp : runPrim p s = .ok t) : State.Inv { t with todo := rest } := by
  have hl := h.lines
  rw [ht] at hl
  have hlines := runPrims_lines (ps := [p]) (rest := rest) hl h.base.framed
  have hseq := runPrim_seqOnly p s
  have hslots := runPrim_slotsOk (p := p) h.base.slots
  rw [runPrims_cons, hp] at hlines
  rw [hp] at hseq hslots
  exact h.seqOnly hr hseq hslots hlines.1 hlines.2

theorem linesOk_poll {cs rst : Bool} {k : Nat} {rest : List Micro}
    (h : linesOk cs rst (.prim (.poll k) :: rest) = true) :
    cs = false ∧ rst = true ∧ linesOk false true rest = true := by
  cases cs <;> cases rst <;> simp_all [linesOk, Prim.lines]

theorem linesOk_xfer {cs rst : Bool} {src : Source} {lo hi : Nat} {rest : List Micro}
    (h : linesOk cs rst (.prim (.xfer src lo hi) :: rest) = true) : cs = true ∧ rst = true := by
  cases cs <;> cases rst <;> simp_all [linesOk, Prim.lines]

theorem linesOk_raise {cs rst : Bool} {rest : List Micro}
    (h : linesOk cs rst (.prim .raiseTransport :: rest) = true) : cs = false ∧ rst = true := by
  cases cs <;> cases rst <;> simp_all [linesOk, Prim.lines]

/-- One sample of a busy-wait, and what it leads to (R82). -/
theorem pollStep_inv {k : Nat} {rest : List Micro} {s : State} (h : s.Inv) (hr : s.run = true)
    (ht : s.todo = .prim (.poll k) :: rest) : (pollStep k rest s).Inv := by
  have hl := h.lines
  rw [ht] at hl
  obtain ⟨hcs, hrst, hl⟩ := linesOk_poll hl
  have hf : (sampleBusy s).framedOk := sampleBusy_framed h.frames hcs
  have go : ∀ ms, linesOk false true ms = true → State.Inv { sampleBusy s with todo := ms } := fun ms hms =>
    h.seqOnly hr rfl h.base.slots hf (by rw [sampleBusy_pins, hcs, hrst]; exact hms)
  unfold pollStep
  split
  · exact go _ hl
  · split
    · exact abort_inv _ (h.base.seqOnly rfl h.base.slots hf) hcs hrst
    · exact go _ hl

/-- One SPI transfer, and what it leads to (R74, R75, R78). -/
theorem xferStep_inv {src : Source} {lo hi : Nat} {rest : List Micro} {s : State} (h : s.Inv) (hr : s.run = true)
    (ht : s.todo = .prim (.xfer src lo hi) :: rest) : (xferStep src lo hi rest s).Inv := by
  unfold xferStep
  split
  · rename_i hx
    exact runPrim_inv h hr ht (if_pos hx)
  · rename_i hx
    have hl := h.lines
    rw [ht] at hl
    obtain ⟨hcs, hrst⟩ := linesOk_xfer hl
    have hf : (spiXfer (src.slice s lo hi) s).framedOk := by
      unfold State.framedOk
      rw [spiXfer_trace, if_neg hx, framed_append, h.frames, spiXfer_pins, hcs]; rfl
    exact h.seqOnly hr rfl h.base.slots hf (by rw [spiXfer_pins, hcs, hrst]; rfl)

/-- One primitive of the running operation keeps the invariant. -/
theorem primStep_inv {p : Prim} {rest : List Micro} {s : State} (h : s.Inv) (hr : s.run = true)
    (ht : s.todo = .prim p :: rest) : (primStep p rest s).Inv := by
  cases p with
  | poll k => exact pollStep_inv h hr ht
  | xfer src lo hi => exact xferStep_inv h hr ht
  | raiseTransport =>
    have hl := h.lines
    rw [ht] at hl
    obtain ⟨hcs, hrst⟩ := linesOk_raise hl
    exact abort_inv _ h.base hcs hrst
  | _ => exact runPrim_inv h hr ht rfl

/-- One step of the sequencer keeps the invariant (R35). -/
theorem sequencerStep_inv {s : State} (h : s.Inv) (hr : s.run = true) : (sequencerStep s).Inv := by
  have hl := h.lines
  cases ht : s.todo with
  | nil =>
    rw [ht] at hl
    have hp : s.pins.cs = false ∧ s.pins.rst = true := by simpa [linesOk] using hl
    rw [sequencerStep_nil ht]; exact finish_inv h.base hp.1 hp.2
  | cons m rest =>
    cases m with
    | prim p => rw [sequencerStep_prim ht]; exact primStep_inv h hr ht
    | frame f =>
      rw [ht] at hl
      rw [sequencerStep_frame ht]
      exact h.seqOnly hr rfl h.base.slots h.frames (linesOk_expand hl s)

/-- A whole panel command keeps the invariant. -/
theorem perform_inv {f : Frame} {rest : List Micro} {s : State} (h : s.Inv) (hr : s.run = true)
    (ht : s.todo = .frame f :: rest) : (perform (framePlan f s) { s with todo := rest }).Inv := by
  have hl := h.lines
  rw [ht] at hl
  have hb : State.Base { s with todo := rest } :=
    ⟨h.params, h.stageWf, h.stageBelow, h.base.slots, h.frames, h.nfSession, h.session⟩
  have hlines := runPrims_lines (ps := framePlan f s) (s := { s with todo := rest }) (linesOk_expand hl s) hb.framed
  have hseq := runPrims_seqOnly (framePlan f s) { s with todo := rest }
  have hu := hb.seqOnly hseq (runPrims_slotsOk hb.slots) hlines.1
  unfold perform
  cases hrun : runPrims (framePlan f s) { s with todo := rest } with
  | raised c u =>
    rw [hrun] at hlines hu
    exact abort_inv c hu hlines.2.1 hlines.2.2
  | ok u =>
    rw [hrun] at hlines hseq hu
    rw [Res.state_ok] at hseq hu
    refine hu.running (hseq.run.trans hr) ?_ (hseq.err.trans (h.runErr hr)) ?_
    · rw [hseq.state, hseq.latch]; exact h.runOp hr
    · rw [hseq.todo]; exact hlines.2

/-! ### The step -/

/-- What a host access writes beside STAGE is free, and STAGE keeps its form. -/
theorem State.Inv.hostSide {s : State} (h : s.Inv) (regs : HostRegs) (ov : Bool) (q : List HostStmt) (rs : List Word)
    (d : DrawStream) {st : Memory} (hw : st.wf none = true) (hb : st.below s.cfg.slotCap = true) :
    State.Inv { s with regs := regs, overrun := ov, hostq := q, reads := rs, schedIn := d, stage := st } :=
  ⟨h.params, hw, hb, h.newWf, h.newBelow, h.oldWf, h.oldBelow, h.runState, h.runOp, h.runErr, h.idleTodo, h.lines,
    h.frames, h.nfSession, h.session⟩

/-- STAGE keeps its form over a step (R37). -/
theorem step_stageForm {s t : State} (h : s.Inv) (hs : step s = .next t) :
    t.stage.wf none = true ∧ t.stage.below s.cfg.slotCap = true := by
  obtain ⟨-, hst | ⟨cells, hst⟩⟩ := step_cfg_stage hs <;> rw [hst]
  · exact ⟨h.stageWf, h.stageBelow⟩
  · exact writeStage_form cells h.stageWf h.stageBelow

/-- A step keeps the invariant: a case for each thing `step_cases` says it can be. -/
theorem step_inv {s t : State} (h : s.Inv) (hs : step s = .next t) : t.Inv := by
  obtain ⟨-, q, d, hc⟩ := step_cases hs
  have h' : State.Inv { s with hostq := q, schedIn := d } :=
    h.hostSide s.regs s.overrun q s.reads d h.stageWf h.stageBelow
  cases hc with
  | access ht =>
    obtain ⟨hw, hb⟩ := step_stageForm h hs
    rw [ht]; exact h'.hostSide t.regs t.overrun q t.reads d hw hb
  | issued i ht => rw [ht]; exact issue_inv h' i
  | illegal ht => rw [ht]; exact issueIllegal_inv h'
  | whole i hi ht => rw [ht]; exact carryOut_inv h' i
  | sequencer hr ht => rw [ht]; exact sequencerStep_inv h' hr
  | command hr hq f rest htodo ht => rw [ht]; exact perform_inv h hr htodo

/-! ### Lengths of rectangles (R12, R112) -/

/-- A positive width takes at least one byte a row. -/
theorem ceilDiv_pos {a b : Nat} (ha : 1 ≤ a) (hb : 1 ≤ b) : 1 ≤ ceilDiv a b :=
  (lt_ceilDiv_iff hb).2 (by omega)

/-- A panel has at most 2048 columns and rows (R14). -/
theorem wf_size {c : Config} (h : c.wf = true) : c.width ≤ 2048 ∧ c.height ≤ 2048 := by
  simp only [Config.wf, Bool.and_eq_true, decide_eq_true_eq] at h
  exact ⟨by tauto, by tauto⟩

/-- SLOT_CAP is at most 512 bytes a row on 2048 rows (R12). -/
theorem slotCap_le {c : Config} (h : c.wf = true) : c.slotCap ≤ 2 ^ 20 := by
  obtain ⟨hw, hh⟩ := wf_size h
  have hrow : c.bpr2 ≤ 512 := by unfold Config.bpr2 ceilDiv; omega
  calc c.slotCap = c.bpr2 * c.height := rfl
    _ ≤ 512 * 2048 := Nat.mul_le_mul hrow hh
    _ = 2 ^ 20 := by norm_num

/-- A legal window's buffer has at least one byte (R111, R112). -/
theorem expectedLen_pos {c : Config} {r : Rect} (h : windowLegal c r = true) (fmt : Level) : 1 ≤ expectedLen fmt r := by
  have hr : 1 ≤ r.ww ∧ 1 ≤ r.wh := by
    simp only [windowLegal, Bool.and_eq_true, decide_eq_true_eq] at h
    obtain ⟨⟨⟨⟨⟨⟨-, hww⟩, hwh⟩, -⟩, -⟩, -⟩, -⟩ := h
    exact ⟨hww, hwh⟩
  have hb : 1 ≤ bufferRow fmt r := ceilDiv_pos hr.1 (by cases fmt <;> decide)
  exact Nat.mul_pos hb hr.2

end Sys2Proof.Machine

open Sys2Proof Sys2Proof.Machine

/-- Settles O9: the host's access, the CMD write, the whole operation, the primitive step and the whole panel command
each keep the invariant. -/
theorem stepKeepsTheInvariant : Obligations.StepKeepsTheInvariant :=
  fun _ _ h hs => step_inv h hs

/-- Settles O11: nothing that the host or the sequencer does writes a parameter. -/
theorem stepKeepsTheParameters : Obligations.StepKeepsTheParameters :=
  fun _ _ hs => (step_cfg_stage hs).1

/-- Settles O39: the full frame's lengths are FRAME1 and FRAME2 by definition, the bounds are those of R111 and R14. -/
theorem expectedLengths : Obligations.ExpectedLengths :=
  fun _ _ h => ⟨rfl, rfl, expectedLen_pos, slotCap_le h⟩

end

section
/-! The state over a step: what the sequencer's steps leave on the host's side (R20, R37, R54), an accepted operation as
its primitive steps (R35, R189), the arrows of `st.state` (R31), DEGRADED (R164, R166), OVERRUN (R27, R162), the accepted
CMD writes (R34), and the registers of the host port (R21 to R29). -/

namespace Sys2Proof.Machine

/-! ### The host's side -/

theorem hostSideSame.refl (s : State) : hostSideSame s s := ⟨rfl, rfl, rfl, rfl, rfl, rfl, rfl⟩

theorem hostSideSame.trans {s t u : State} (h : hostSideSame s t) (h' : hostSideSame t u) : hostSideSame s u := by
  obtain ⟨hcfg, hregs, hstage, hov, hq, hreads, hd⟩ := h
  obtain ⟨hcfg', hregs', hstage', hov', hq', hreads', hd'⟩ := h'
  exact ⟨hcfg'.trans hcfg, hregs'.trans hregs, hstage'.trans hstage, hov'.trans hov, hq'.trans hq,
    hreads'.trans hreads, hd'.trans hd⟩

theorem finish_hostSide (s : State) : hostSideSame s (finish s) := by simp [hostSideSame]

theorem abort_hostSide (c : ErrCode) (s : State) : hostSideSame s (abort c s) := by simp [hostSideSame]

/-- One step of the sequencer writes nothing on the host's side, whether it goes on, ends or aborts (R20, R37). -/
theorem sequencerStep_hostSide (s : State) : hostSideSame s (sequencerStep s) := by
  rcases sequencerStep_cases s with ⟨-, h⟩ | ⟨c, u, -, hu, h⟩ | ⟨u, ms, hu, h⟩ <;> rw [h]
  · exact finish_hostSide s
  · exact hu.hostSide.trans (abort_hostSide c u)
  · exact hu.hostSide

theorem sequencerSteps_hostSide (n : Nat) (s : State) : hostSideSame s (sequencerSteps n s) := by
  induction n generalizing s with
  | zero => exact hostSideSame.refl s
  | succ n ih => exact (sequencerStep_hostSide s).trans (ih (sequencerStep s))

/-- A whole panel command writes nothing on the host's side. -/
theorem perform_hostSide (f : Frame) (s s' : State) : hostSideSame s' (perform (framePlan f s) s') := by
  obtain ⟨u, hu, -, h | ⟨c, -, h⟩⟩ := perform_frame f s s' <;> rw [h]
  · exact hu.seqOnly.hostSide
  · exact hu.seqOnly.hostSide.trans (abort_hostSide c u)

/-- The sequencer's step while the host waits writes nothing on the host's side. -/
theorem quietStep_hostSide {s t : State} (h : quietStep s = .next t) : hostSideSame s t := by
  have hs := sequencerStep_hostSide s
  cases ht : s.todo with
  | nil => rw [sequencerStep_nil ht] at hs; unfold quietStep at h; rw [ht] at h; cases h; exact hs
  | cons m rest =>
    cases m with
    | prim p => rw [sequencerStep_prim ht] at hs; unfold quietStep at h; rw [ht] at h; cases h; exact hs
    | frame f => rw [quietStep_frame ht] at h; cases h; exact perform_hostSide f s { s with todo := rest }

/-- A step is the host's, on the state with the interleaving draw taken, or it leaves the host's side but for that
draw (R50, R54). -/
theorem step_host_or_sequencer {s t : State} (h : step s = .next t) :
    ∃ d, hostStep { s with schedIn := d } = .next t ∨ hostSideSame { s with schedIn := d } t := by
  obtain ⟨hc, -⟩ := step_cases h
  by_cases hr : s.run = true
  swap
  · rw [step_idle hc (by simpa using hr)] at h; exact ⟨s.schedIn, .inl h⟩
  by_cases hw : s.hostWaits = true
  · rw [step_quiet hc hr hw] at h; exact ⟨s.schedIn, .inr (quietStep_hostSide h)⟩
  refine ⟨s.schedIn.rest, ?_⟩
  cases hf : s.hostFirst with
  | true => rw [step_hostFirst hc hr (by simpa using hw) hf] at h; exact .inl h
  | false =>
    rw [step_sequencerFirst hc hr (by simpa using hw) hf] at h
    cases h; exact .inr (sequencerStep_hostSide _)

/-! ### A whole operation is its steps (R35, R189) -/

/-- A poll interval is at least 1 ms (R14). -/
theorem wf_pollMs {c : Config} (h : c.wf = true) : 1 ≤ c.pollMs := by
  simp only [Config.wf, Bool.and_eq_true, decide_eq_true_eq] at h
  tauto

/-- Only a host operation's CMD write does anything; a panel command is not written to CMD. -/
theorem issue_eq_self_or_isHostOp (i : Instr) (s : State) : issue i s = s ∨ isHostOp i := by
  cases i <;> simp [isHostOp, issue]

/-- A CMD write with what follows: the operation to its end if one was started, else nothing more. -/
theorem carryOut_cases (a s : State) : carryOut a s = a ∨ (a.run = true ∧ carryOut a s = complete a) := by
  unfold carryOut
  split
  · exact .inl rfl
  · split
    · rename_i ha; exact .inr ⟨ha, rfl⟩
    · exact .inl rfl

theorem complete_run (a : State) : (complete a).run = false := by
  obtain ⟨st, e, d, l, h, -⟩ := toEnd_frame (runMicros a.todo { a with todo := [] })
  rw [complete_eq, h]

/-- An accepted operation is finitely many primitive steps of the sequencer (R35). -/
theorem complete_steps {a : State} (h : a.cfg.wf = true) : ∃ n, sequencerSteps n a = complete a :=
  runTodo_steps a.todo { a with todo := [] } (wf_pollMs h)

/-! ### The arrows of `st.state` (R31) -/

theorem stateMove_refl (op : OpCode) (a : OpState) : stateMove op a a = true := by simp [stateMove]

theorem stateMove_into {op : OpCode} {a : OpState} (h : startsIn op a = true) :
    stateMove op a (runningState op) = true := by simp [stateMove, h]

theorem stateMove_outOf {op : OpCode} {b : OpState} (h : endsIn op b = true) :
    stateMove op (runningState op) b = true := by simp [stateMove, h]

/-- At rest, the state check of TRANSFER, REFRESH and SLEEP passes in IDLE only (R163). -/
theorem checkState_eq_ok {s : State} (h : checkState s = .ok) (hr : s.state.isRunning = false) : s.state = .idle := by
  unfold checkState at h
  cases hs : s.state <;> simp_all [OpState.isRunning]

theorem checkReady_eq_ok {s : State} (h : checkReady s = .ok) : checkState s = .ok := by
  by_contra hc
  exact hc (by rwa [checkReady, if_pos hc] at h)

theorem checkTransfer_eq_ok {win : Bool} {s : State} (h : checkTransfer win s = .ok) : checkReady s = .ok := by
  by_contra hc
  exact hc (by rwa [checkTransfer, if_pos hc] at h)

theorem checkRefresh_eq_ok {m : Mode} {s : State} (h : checkRefresh m s = .ok) : checkReady s = .ok := by
  by_contra hc
  exact hc (by rwa [checkRefresh, if_pos hc] at h)

/-- A CMD write moves into the running state of the operation it latches, from a state that accepts it, or nowhere. -/
theorem issueCmd_stateMove {e : ErrCode} {a s : State} (ha : a.state = runningState a.latch.op)
    (hs : s.run = false → e = .ok → startsIn a.latch.op s.state = true) :
    stateMove (issueCmd e a s).latch.op s.state (issueCmd e a s).state = true := by
  cases hr : s.run with
  | true => rw [issueCmd_running hr]; exact stateMove_refl _ _
  | false =>
    by_cases he : e = .ok
    · subst he; rw [issueCmd_accepted hr, ha]; exact stateMove_into (hs hr rfl)
    · rw [issueCmd_rejected hr he]; exact stateMove_refl _ _

/-- An illegal CMD write changes OVERRUN or ERR only (R61, R162). -/
theorem issueIllegal_cases (s : State) :
    (s.run = true ∧ issueIllegal s = overrunCmd s) ∨ (s.run = false ∧ issueIllegal s = reject .badOp s) := by
  cases hr : s.run with
  | true => exact .inl ⟨rfl, issueCmd_running hr⟩
  | false => exact .inr ⟨rfl, issueCmd_rejected hr (by decide)⟩

theorem issueIllegal_state (s : State) : (issueIllegal s).state = s.state := by
  rcases issueIllegal_cases s with ⟨-, h⟩ | ⟨-, h⟩ <;> rw [h] <;> rfl

/-- The CMD write of every operation, by its check (R163): RESET, INIT and WAKE start from any rest state, the others
from IDLE. -/
theorem issue_stateMove {s : State} (h : s.Inv) (i : Instr) :
    stateMove (issue i s).latch.op s.state (issue i s).state = true := by
  have rest : s.run = false → s.state.isRunning = false := fun hr => h.runState.symm.trans hr
  have startsAtRest : s.run = false → (!s.state.isRunning) = true := fun hr => by rw [rest hr]; rfl
  have startsIdle : s.run = false → checkState s = .ok → (s.state == .idle) = true := fun hr hc =>
    beq_iff_eq.2 (checkState_eq_ok hc (rest hr))
  cases i with
  | reset => exact issueCmd_stateMove rfl fun hr _ => startsAtRest hr
  | init m => exact issueCmd_stateMove rfl fun hr _ => startsAtRest hr
  | wake => exact issueCmd_stateMove rfl fun hr _ => startsAtRest hr
  | transfer win =>
    exact issueCmd_stateMove rfl fun hr he => startsIdle hr (checkReady_eq_ok (checkTransfer_eq_ok he))
  | refresh m => exact issueCmd_stateMove rfl fun hr he => startsIdle hr (checkReady_eq_ok (checkRefresh_eq_ok he))
  | sleep => exact issueCmd_stateMove rfl startsIdle
  | _ => exact stateMove_refl _ _

/-- The end of the running operation moves out of its running state (R31). -/
theorem toEnd_stateMove {s : State} {r : Res} (hs : s.state = runningState s.latch.op) (hr : r.state.latch = s.latch) :
    stateMove r.toEnd.latch.op s.state r.toEnd.state = true := by
  obtain ⟨st, e, d, l, h, hend, -⟩ := toEnd_frame r
  rw [h, hs]
  show stateMove r.state.latch.op _ st = true
  rw [hr] at hend ⊢
  exact stateMove_outOf hend

theorem complete_latch (a : State) : (complete a).latch = a.latch := by
  obtain ⟨st, e, d, l, h, -⟩ := toEnd_frame (runMicros a.todo { a with todo := [] })
  rw [complete_eq, h]
  exact (runMicros_seqOnly a.todo { a with todo := [] }).latch

theorem complete_stateMove {a : State} (h : a.state = runningState a.latch.op) :
    stateMove (complete a).latch.op a.state (complete a).state = true := by
  rw [complete_eq]
  exact toEnd_stateMove h (runMicros_seqOnly a.todo { a with todo := [] }).latch

/-- A host operation moves into its running state and out of it, or nowhere. -/
theorem carryOut_stateMove {s : State} (h : s.Inv) (i : Instr) :
    ∃ m, stateMove (carryOut (issue i s) s).latch.op s.state m = true
      ∧ stateMove (carryOut (issue i s) s).latch.op m (carryOut (issue i s) s).state = true := by
  have hi := issue_stateMove h i
  refine ⟨(issue i s).state, ?_⟩
  rcases carryOut_cases (issue i s) s with hc | ⟨hr, hc⟩ <;> rw [hc]
  · exact ⟨hi, stateMove_refl _ _⟩
  · exact ⟨by rw [complete_latch]; exact hi, complete_stateMove ((issue_inv h i).runOp hr)⟩

theorem sequencerStep_stateMove {s : State} (hs : s.state = runningState s.latch.op) :
    stateMove (sequencerStep s).latch.op s.state (sequencerStep s).state = true := by
  rcases sequencerStep_cases s with ⟨-, h⟩ | ⟨c, u, -, hu, h⟩ | ⟨u, ms, hu, h⟩ <;> rw [h]
  · exact toEnd_stateMove (r := .ok s) hs rfl
  · exact toEnd_stateMove (r := .raised c u) hs hu.latch
  · show stateMove u.latch.op s.state u.state = true
    rw [hu.state]; exact stateMove_refl _ _

theorem perform_stateMove (f : Frame) (s : State) {s' : State} (hs : s'.state = runningState s'.latch.op) :
    stateMove (perform (framePlan f s) s').latch.op s'.state (perform (framePlan f s) s').state = true := by
  obtain ⟨u, hu, -, h | ⟨c, -, h⟩⟩ := perform_frame f s s' <;> rw [h]
  · rw [hu.seqOnly.state]; exact stateMove_refl _ _
  · exact toEnd_stateMove (r := .raised c u) hs hu.seqOnly.latch

/-- A step takes `st.state` along at most two arrows: a case for each thing `step_cases` says it can be. -/
theorem step_stateMove {s t : State} (h : s.Inv) (hs : step s = .next t) :
    ∃ m, stateMove t.latch.op s.state m = true ∧ stateMove t.latch.op m t.state = true := by
  obtain ⟨-, q, d, hc⟩ := step_cases hs
  have h' : State.Inv { s with hostq := q, schedIn := d } :=
    h.hostSide s.regs s.overrun q s.reads d h.stageWf h.stageBelow
  have one (h1 : stateMove t.latch.op s.state t.state = true) :
      ∃ m, stateMove t.latch.op s.state m = true ∧ stateMove t.latch.op m t.state = true :=
    ⟨t.state, h1, stateMove_refl _ _⟩
  cases hc with
  | access ht => exact one (by rw [ht]; exact stateMove_refl _ _)
  | issued i ht => exact one (by rw [ht]; exact issue_stateMove h' i)
  | illegal ht => exact one (by rw [ht, issueIllegal_state]; exact stateMove_refl _ _)
  | whole i hi ht => rw [ht]; exact carryOut_stateMove h' i
  | sequencer hr ht =>
    exact one (by rw [ht]; exact sequencerStep_stateMove (s := { s with hostq := q, schedIn := d }) (h.runOp hr))
  | command hr hq f rest htodo ht =>
    exact one (by rw [ht]; exact perform_stateMove f s (s' := { s with todo := rest }) (h.runOp hr))

/-! ### DEGRADED (R164, R166) -/

/-- What R166 says of a move from DEGRADED = d to the state t: it falls at the successful end of an INIT or a WAKE, and
rises at the abort of a TRANSFER, a REFRESH or a SLEEP that has started a transfer. -/
def degradedRule (d : Bool) (t : State) : Prop :=
  (d = true → t.degraded = false →
      (t.latch.op = .init ∨ t.latch.op = .wake) ∧ t.state = .idle ∧ t.err = .ok ∧ t.run = false)
    ∧ (d = false → t.degraded = true →
      (t.latch.op = .transfer ∨ t.latch.op = .refresh ∨ t.latch.op = .sleep) ∧ t.state = .idle ∧ t.touched = true
        ∧ t.run = false ∧ (t.err = .busyTimeout ∨ t.err = .transportFailure))

theorem degradedRule_same {d : Bool} {t : State} (h : t.degraded = d) : degradedRule d t :=
  ⟨fun h1 h0 => absurd (h0.symm.trans (h.trans h1)) (by decide),
    fun h0 h1 => absurd (h1.symm.trans (h.trans h0)) (by decide)⟩

theorem finish_degradedRule (s : State) : degradedRule s.degraded (finish s) := by
  cases hop : s.latch.op <;> simp [degradedRule, finish, hop]

theorem abort_degradedRule {c : ErrCode} (hc : c = .busyTimeout ∨ c = .transportFailure) (s : State) :
    degradedRule s.degraded (abort c s) := by
  cases hd : s.degraded <;> cases hop : s.latch.op <;> simp [degradedRule, abort, hop, hd, hc]

theorem complete_degradedRule (a : State) : degradedRule a.degraded (complete a) := by
  obtain ⟨u, hu, ⟨-, h⟩ | ⟨c, hc, -, h⟩⟩ := complete_outcome a <;>
    rw [h, show a.degraded = u.degraded from hu.degraded.symm]
  · exact finish_degradedRule u
  · exact abort_degradedRule hc u

theorem sequencerStep_degradedRule (s : State) : degradedRule s.degraded (sequencerStep s) := by
  rcases sequencerStep_cases s with ⟨-, h⟩ | ⟨c, u, hc, hu, h⟩ | ⟨u, ms, hu, h⟩ <;> rw [h]
  · exact finish_degradedRule s
  · rw [← hu.degraded]; exact abort_degradedRule hc u
  · exact degradedRule_same hu.degraded

theorem perform_degradedRule (f : Frame) (s s' : State) : degradedRule s'.degraded (perform (framePlan f s) s') := by
  obtain ⟨u, hu, -, h | ⟨c, hc, h⟩⟩ := perform_frame f s s' <;> rw [h]
  · exact degradedRule_same hu.seqOnly.degraded
  · rw [← hu.seqOnly.degraded]; exact abort_degradedRule hc u

theorem issue_degraded (i : Instr) (s : State) : (issue i s).degraded = s.degraded := by
  rcases issue_cases i s with h | ⟨-, h⟩ | ⟨-, e, h⟩ | ⟨-, op, m, win, l, sm, f, ms, h⟩ <;> rw [h] <;> rfl

theorem issueIllegal_degraded (s : State) : (issueIllegal s).degraded = s.degraded := by
  rcases issueIllegal_cases s with ⟨-, h⟩ | ⟨-, h⟩ <;> rw [h] <;> rfl

theorem carryOut_degradedRule (i : Instr) (s : State) : degradedRule s.degraded (carryOut (issue i s) s) := by
  rcases carryOut_cases (issue i s) s with hc | ⟨-, hc⟩ <;> rw [hc]
  · exact degradedRule_same (issue_degraded i s)
  · rw [← issue_degraded i s]; exact complete_degradedRule (issue i s)

theorem step_degradedRule {s t : State} (hs : step s = .next t) : degradedRule s.degraded t := by
  obtain ⟨-, q, d, hc⟩ := step_cases hs
  cases hc with
  | access ht => exact degradedRule_same (by rw [ht])
  | issued i ht => rw [ht]; exact degradedRule_same (issue_degraded i _)
  | illegal ht => rw [ht]; exact degradedRule_same (issueIllegal_degraded _)
  | whole i hi ht => rw [ht]; exact carryOut_degradedRule i { s with hostq := q, schedIn := d }
  | sequencer hr ht => rw [ht]; exact sequencerStep_degradedRule { s with hostq := q, schedIn := d }
  | command hr hq f rest htodo ht => rw [ht]; exact perform_degradedRule f s { s with todo := rest }

/-! ### OVERRUN (R27, R162) -/

/-- What R27 and R162 say of OVERRUN from s to t: it rises at a CMD write while an operation runs, and falls at a CLEAR
write with bit 0 set. -/
def overrunRule (s t : State) : Prop :=
  (s.overrun = false → t.overrun = true → s.run = true ∧ ∃ w, s.hostq = .access (.wr .b4 0 w) :: t.hostq)
    ∧ (s.overrun = true → t.overrun = false →
      ∃ w : Word, w.getLsbD 0 = true ∧ s.hostq = .access (.wr .b4 0x18 w) :: t.hostq)

theorem overrunRule_same {s t : State} (h : t.overrun = s.overrun) : overrunRule s t :=
  ⟨fun h0 h1 => absurd (h1.symm.trans (h.trans h0)) (by decide),
    fun h1 h0 => absurd (h0.symm.trans (h.trans h1)) (by decide)⟩

theorem overrunRule_rises {s t : State} {w : Word} (hr : s.run = true) (ht : t.overrun = true)
    (hq : s.hostq = .access (.wr .b4 0 w) :: t.hostq) : overrunRule s t :=
  ⟨fun _ _ => ⟨hr, w, hq⟩, fun _ h0 => absurd (ht.symm.trans h0) (by decide)⟩

theorem overrunRule_falls {s t : State} {w : Word} (hw : w.getLsbD 0 = true) (ht : t.overrun = false)
    (hq : s.hostq = .access (.wr .b4 0x18 w) :: t.hostq) : overrunRule s t :=
  ⟨fun _ h1 => absurd (ht.symm.trans h1) (by decide), fun _ _ => ⟨w, hw, hq⟩⟩

/-- A CMD write alone keeps the host's program, and OVERRUN or raises it while an operation runs (R162). -/
theorem issue_overrun (i : Instr) (s : State) :
    (issue i s).hostq = s.hostq ∧ ((issue i s).overrun = s.overrun ∨ s.run = true ∧ (issue i s).overrun = true) := by
  rcases issue_cases i s with h | ⟨hr, h⟩ | ⟨-, e, h⟩ | ⟨-, op, m, win, l, sm, f, ms, h⟩ <;> rw [h]
  · exact ⟨rfl, .inl rfl⟩
  · exact ⟨rfl, .inr ⟨hr, rfl⟩⟩
  · exact ⟨rfl, .inl rfl⟩
  · exact ⟨rfl, .inl rfl⟩

theorem issueIllegal_overrun (s : State) :
    (issueIllegal s).hostq = s.hostq
      ∧ ((issueIllegal s).overrun = s.overrun ∨ s.run = true ∧ (issueIllegal s).overrun = true) := by
  rcases issueIllegal_cases s with ⟨hr, h⟩ | ⟨-, h⟩ <;> rw [h]
  · exact ⟨rfl, .inr ⟨hr, rfl⟩⟩
  · exact ⟨rfl, .inl rfl⟩

/-- The operation behind its CMD write adds nothing on the host's side. -/
theorem carryOut_hostSide (a s : State) : hostSideSame a (carryOut a s) := by
  rcases carryOut_cases a s with hc | ⟨-, hc⟩ <;> rw [hc]
  · exact hostSideSame.refl a
  · exact complete_hostSide a

theorem cmdWrite_overrun {w : Word} {s t : State} (h : cmdWrite w s = .next t) :
    t.hostq = s.hostq ∧ (t.overrun = s.overrun ∨ s.run = true ∧ t.overrun = true) := by
  cases hd : decodeHostOp w with
  | error e => rw [cmdWrite_illegal hd] at h; cases h; exact issueIllegal_overrun s
  | ok i =>
    have hi := issue_overrun i s
    cases hw : s.hostWaits with
    | false => rw [cmdWrite_goesOn hd hw] at h; cases h; exact hi
    | true =>
      rw [cmdWrite_waits hd hw, exec_hostOp (decodeHostOp_cases hd)] at h
      cases h
      obtain ⟨-, -, -, hov, hq, -⟩ := carryOut_hostSide (issue i s) s
      rw [hov, hq]; exact hi

/-- A register write touches OVERRUN at CLEAR only (R27). -/
theorem writeRegister_overrun (off : Nat) (v : Word) (s : State) :
    (writeRegister off v s).overrun = if off = 0x18 then s.overrun && !v.getLsbD 0 else s.overrun := by
  by_cases h : off = 0x18
  · subst h; rfl
  · simp only [writeRegister, if_neg h]
    repeat' split
    all_goals rfl

theorem regionOf_eq_registers {a : HostAddr} {off : Nat} (h : regionOf a = .registers off) : a.toNat = off := by
  unfold regionOf at h
  split at h
  · cases h; rfl
  · repeat' split at h
    all_goals cases h

/-- A register is written by 4-byte accesses only (R46). -/
theorem accessLegal_registers {w : Width} {a : HostAddr} {off : Nat} (h : accessLegal w a = true)
    (hr : regionOf a = .registers off) : w = .b4 := by
  simp only [accessLegal, hr, Bool.and_eq_true, beq_iff_eq] at h
  exact h.2

/-- Everything a host write that is answered can do: it writes a register, nothing, or STAGE while no operation runs
(R43, R46, R48). -/
theorem hostWrite_cases {w : Width} {a : HostAddr} {v : Word} {s t : State} (h : hostWrite w a v s = .next t) :
    (w = .b4 ∧ t = writeRegister a.toNat v s) ∨ t = s ∨ (s.run = false ∧ ∃ cells, t = writeStage cells s) := by
  unfold hostWrite at h
  split at h
  swap
  · cases h
  rename_i hl
  split at h
  · rename_i off hreg
    cases h
    exact .inl ⟨accessLegal_registers hl hreg, by rw [regionOf_eq_registers hreg]⟩
  · cases h; exact .inr (.inl rfl)
  · split at h <;> cases h
    rename_i hr
    exact .inr (.inr ⟨by simpa using hr, _, rfl⟩)
  · cases h; exact .inr (.inl rfl)
  · cases h; exact .inr (.inl rfl)

/-- A host write keeps OVERRUN, or is a CLEAR write with bit 0 set and clears it (R27). -/
theorem hostWrite_overrun {w : Width} {a : HostAddr} {v : Word} {s t : State} (h : hostWrite w a v s = .next t) :
    t.overrun = s.overrun ∨ (w = .b4 ∧ a = 0x18 ∧ v.getLsbD 0 = true ∧ t.overrun = false) := by
  rcases hostWrite_cases h with ⟨hw, rfl⟩ | rfl | ⟨-, cells, rfl⟩
  · rw [writeRegister_overrun]
    by_cases ha : a.toNat = 0x18
    · cases hv : v.getLsbD 0 with
      | false => exact .inl (by simp)
      | true => exact .inr ⟨hw, BitVec.eq_of_toNat_eq ha, rfl, by simp [ha]⟩
    · exact .inl (if_neg ha)
  · exact .inl rfl
  · exact .inl rfl

/-- A host write changes neither NEW nor OLD, and STAGE only while no operation runs (R37, R48). -/
theorem hostWrite_memories {w : Width} {a : HostAddr} {v : Word} {s t : State} (h : hostWrite w a v s = .next t) :
    t.new = s.new ∧ t.old = s.old ∧ (s.run = true → t.stage = s.stage) := by
  rcases hostWrite_cases h with ⟨-, rfl⟩ | rfl | ⟨hr, cells, rfl⟩
  · rw [writeRegister_frame]; exact ⟨rfl, rfl, fun _ => rfl⟩
  · exact ⟨rfl, rfl, fun _ => rfl⟩
  · exact ⟨rfl, rfl, fun h1 => absurd (h1.symm.trans hr) (by decide)⟩

/-- A CMD write is a 4-byte write to offset 0 (R22). -/
theorem cmdWord?_eq_some {a : Access} {w : Word} (h : a.cmdWord? = some w) : a = .wr .b4 0 w := by
  unfold Access.cmdWord? at h
  split at h
  · split at h
    · rename_i ha; cases h; rw [ha]
    · cases h
  all_goals cases h

theorem hostStep_overrunRule {s t : State} (h : hostStep s = .next t) : overrunRule s t := by
  unfold hostStep at h
  split at h
  · cases h; exact overrunRule_same rfl
  · cases h; exact overrunRule_same rfl
  rename_i a rest hq
  unfold hostAccess at h
  split at h
  · rename_i w hw
    obtain ⟨htq, hov | ⟨hr, hov⟩⟩ := cmdWrite_overrun h
    · exact overrunRule_same hov
    · exact overrunRule_rises (w := w) hr hov (by rw [hq, cmdWord?_eq_some hw, htq])
  · split at h
    · rw [hostRead_frame h]; exact overrunRule_same rfl
    · rename_i w addr v _ _
      have htq : t.hostq = rest := by rw [hostWrite_frame h]
      rcases hostWrite_overrun h with hov | ⟨rfl, rfl, hv, hov⟩
      · exact overrunRule_same hov
      · exact overrunRule_falls hv hov (by rw [hq, htq])

theorem step_overrunRule {s t : State} (hs : step s = .next t) : overrunRule s t := by
  obtain ⟨d, h | ⟨-, -, -, hov, -⟩⟩ := step_host_or_sequencer hs
  · exact hostStep_overrunRule (s := { s with schedIn := d }) h
  · exact overrunRule_same hov

/-! ### Accepted CMD writes (R34, R162) -/

theorem checkTransfer_ok {s : State} {win : Bool} (h : transferAccepted s win) : checkTransfer win s = .ok := by
  obtain ⟨-, hst, hd, hw, hl⟩ := h
  have hready : checkReady s = .ok := by simp [checkReady, checkState, hst, hd]
  unfold checkTransfer
  rw [if_neg (not_not.2 hready), if_neg fun h => h.2 (hw h.1), if_neg (not_not.2 hl)]

theorem checkRefresh_ok {s : State} {m : Mode} (h : refreshAccepted s m) : checkRefresh m s = .ok := by
  obtain ⟨-, hst, hd, hv, hf⟩ := h
  have hready : checkReady s = .ok := by simp [checkReady, checkState, hst, hd]
  unfold checkRefresh checkRefreshMode
  rw [if_neg (not_not.2 hready), if_neg (not_or.2 ⟨hv, not_not.2 hf⟩)]

theorem issue_reset_accepted {s : State} (hr : s.run = false) : issue .reset s = acceptReset s := issueCmd_accepted hr

theorem issue_init_accepted {s : State} {m : Mode} (hr : s.run = false) (h : ¬ (s.cfg.variant = .nf ∧ m = .gray)) :
    issue (.init m) s = acceptInit .init m s := by
  show issueCmd (checkInitMode s.cfg m) _ s = _
  rw [checkInitMode_ok h, issueCmd_accepted hr]

theorem issue_wake_accepted {s : State} (hr : s.run = false) (h : ¬ (s.cfg.variant = .nf ∧ s.sessMode = .gray)) :
    issue .wake s = acceptInit .wake s.sessMode s := by
  show issueCmd (checkInitMode s.cfg s.sessMode) _ s = _
  rw [checkInitMode_ok h, issueCmd_accepted hr]

theorem issue_transfer_accepted {s : State} {win : Bool} (h : transferAccepted s win) :
    issue (.transfer win) s = acceptTransfer win s := by
  show issueCmd (checkTransfer win s) _ s = _
  rw [checkTransfer_ok h, issueCmd_accepted h.1]

theorem issue_refresh_accepted {s : State} {m : Mode} (h : refreshAccepted s m) :
    issue (.refresh m) s = acceptRefresh m s := by
  show issueCmd (checkRefresh m s) _ s = _
  rw [checkRefresh_ok h, issueCmd_accepted h.1]

theorem issue_sleep_accepted {s : State} (hr : s.run = false) (h : s.state = .idle) :
    issue .sleep s = acceptSleep s := by
  have hc : checkState s = .ok := by simp [checkState, h]
  show issueCmd (checkState s) _ s = _
  rw [hc, issueCmd_accepted hr]

/-! ### The register views (R23, R28) -/

/-- A panel's width and height fit in 16 bits (R14). -/
theorem geomWord_fields {c : Config} (h : c.wf = true) :
    ((geomWord c).extractLsb' 0 16).toNat = c.width ∧ ((geomWord c).extractLsb' 16 16).toNat = c.height := by
  obtain ⟨hw, hh⟩ := wf_size h
  unfold geomWord
  rw [BitVec.extractLsb'_append_eq_right, BitVec.extractLsb'_append_eq_left, BitVec.toNat_ofNat, BitVec.toNat_ofNat]
  omega

theorem configWord_fields (c : Config) :
    (configWord c).getLsbD 0 = decide (c.variant = .nf) ∧ (configWord c).getLsbD 1 = c.busyActive
      ∧ (configWord c).extractLsb' 2 30 = 0 := by
  unfold configWord
  cases c.variant <;> cases c.busyActive <;> decide

/-- The one-bit fields of STATUS (R23). -/
theorem statusWord_flags (s : State) :
    (statusWord s).getLsbD 3 = s.run ∧ (statusWord s).getLsbD 4 = s.degraded ∧ (statusWord s).getLsbD 5 = s.lutValid
      ∧ (statusWord s).getLsbD 16 = s.overrun ∧ (statusWord s).getLsbD 17 = s.fmt := by
  unfold statusWord
  refine ⟨?_, ?_, ?_, ?_, ?_⟩ <;> (repeat rw [BitVec.getLsbD_append]) <;> simp

/-- The fields of STATUS that hold a number, and the reserved bits (R23): the fields below each are cut off. -/
theorem statusWord_codes (s : State) :
    (statusWord s).extractLsb' 0 3 = s.state.code ∧ (statusWord s).extractLsb' 6 2 = s.lutMode.code
      ∧ (statusWord s).extractLsb' 8 8 = s.err.code ∧ (statusWord s).extractLsb' 18 2 = s.sessMode.code
      ∧ (statusWord s).extractLsb' 20 12 = 0 := by
  unfold statusWord
  refine ⟨?_, ?_, ?_, ?_, ?_⟩ <;> (repeat rw [BitVec.extractLsb'_append_eq_of_le (by decide)])
  case refine_5 => rfl
  all_goals rw [BitVec.extractLsb'_append_eq_right]

theorem statusWord_resetOf (c : Config) : statusWord (State.resetOf c) = 0x00040000 := by
  simp only [statusWord, State.resetOf]
  decide

end Sys2Proof.Machine

open Sys2Proof Sys2Proof.Machine

/-- Settles O8: the operation behind an accepted CMD write is a run of its pseudocode, which the primitive steps make. -/
theorem wholeOperationIsItsSteps : Obligations.WholeOperationIsItsSteps := by
  intro i s hc hr ha
  have hop : isHostOp i := (issue_eq_self_or_isHostOp i s).resolve_left fun h => by
    rw [h, hr] at ha; cases ha
  obtain ⟨n, hn⟩ := complete_steps (a := issue i s) (by rw [(issue_cfg_stage i s).1]; exact hc)
  exact ⟨n, _, by rw [exec_hostOp hop, carryOut_accepted hr ha], hn, complete_run _⟩

/-- Settles O13: the running state is the latched operation's, and an operation starts and ends where R31 says. -/
theorem stateMovesAlongTheRelation : Obligations.StateMovesAlongTheRelation :=
  fun _ _ h hs => step_stateMove h hs

/-- Settles O14: only the end of an operation writes DEGRADED. -/
theorem degradedFlag : Obligations.DegradedFlag :=
  fun _ _ hs => step_degradedRule hs

/-- Settles O15: the sequencer does not write OVERRUN, and of the host's accesses only those to CMD and CLEAR do. -/
theorem overrunFlag : Obligations.OverrunFlag :=
  fun _ _ hs => step_overrunRule hs

/-- Settles O17, by induction on the number of steps. -/
theorem sequencerLeavesTheHostSide : Obligations.SequencerLeavesTheHostSide :=
  sequencerSteps_hostSide

/-- Settles O10: no operation runs, the memories and the trace are empty, and the session is FULL. -/
theorem resetMeetsTheInvariant : Obligations.ResetMeetsTheInvariant := fun c hc => by
  have hb : (State.resetOf c).Base := ⟨hc, rfl, rfl, ⟨rfl, rfl, rfl, rfl⟩, rfl, fun _ => by rintro ⟨⟩, rfl⟩
  exact hb.atRest rfl rfl rfl rfl rfl

/-- Settles O12: each field by the definition of the reset, STATUS by packing them. -/
theorem resetValues : Obligations.ResetValues := fun _ =>
  ⟨rfl, rfl, rfl, rfl, rfl, rfl, rfl, rfl, rfl, rfl, statusWord_resetOf _, rfl, rfl, rfl, rfl, rfl, rfl, rfl,
    fun _ => rfl, fun _ => rfl, rfl, rfl⟩

/-- Settles O16: a host write reaches STAGE only, and STAGE only while RUN = 0. -/
theorem hostWritesOnlyStage : Obligations.HostWritesOnlyStage :=
  fun _ _ _ _ _ h => hostWrite_memories h

/-- Settles O36: each accepted CMD write is its operation's acceptance. -/
theorem acceptedCmdWrites : Obligations.AcceptedCmdWrites := by
  intro s hr
  refine ⟨?_, fun m h => ?_, fun h => ?_, fun win h => ?_, fun m h => ?_, fun h => ?_⟩
  · rw [issue_reset_accepted hr]; exact ⟨rfl, rfl, rfl, rfl⟩
  · rw [issue_init_accepted hr h]; exact ⟨rfl, rfl, rfl, rfl⟩
  · rw [issue_wake_accepted hr h]; exact ⟨rfl, rfl, rfl, rfl⟩
  · rw [issue_transfer_accepted h]; exact ⟨rfl, rfl, rfl, rfl⟩
  · rw [issue_refresh_accepted h]; exact ⟨rfl, rfl, rfl, rfl⟩
  · rw [issue_sleep_accepted hr h]; exact ⟨rfl, rfl, rfl, rfl⟩

/-- Settles O55: the numbers and the accesses by computation, the fields by cutting STATUS at R23's bits. -/
theorem statusFields : Obligations.StatusFields :=
  ⟨rfl, rfl, rfl, fun s _ =>
    have ⟨hst, hlm, herr, hsm, hrsv⟩ := statusWord_codes s
    have ⟨hrun, hdeg, hlv, hov, hfmt⟩ := statusWord_flags s
    ⟨rfl, rfl, hst, hrun, hdeg, hlv, hlm, herr, hov, hfmt, hsm, hrsv⟩⟩

/-- Settles O56: the two words are functions of the parameters, and a write to their offsets stores nothing. -/
theorem geomAndConfig : Obligations.GeomAndConfig := fun s _ hc =>
  have ⟨hw, hh⟩ := geomWord_fields hc
  have ⟨hv, hb, h0⟩ := configWord_fields s.cfg
  ⟨hw, hh, hv, hb, h0, rfl, rfl⟩

/-- Settles O57: the address map sends each offset to its own register; XFER_LEN keeps the low 21 bits, and CLEAR writes
OVERRUN by its bit 0 only. -/
theorem registerAccesses : Obligations.RegisterAccesses := by
  intro s v
  refine ⟨rfl, rfl, ?_, rfl, ?_, rfl, rfl, rfl, rfl, rfl, rfl, rfl, rfl, rfl, rfl⟩
  · rw [← BitVec.setWidth_eq_extractLsb' (by decide)]; rfl
  · show Host.Outcome.next { s with overrun := s.overrun && !v.getLsbD 0 } = _
    cases v.getLsbD 0 <;> simp

end

section
/-! The host port (R43 to R49): where an address leads, which accesses are legal, what a legal read and a legal write of
each region do, and the bytes of STAGE after a write. -/

namespace Sys2Proof.Machine

/-! ### The address map (R43) -/

theorem regionOf_register {a : HostAddr} (h : a.toNat < 0x100) : regionOf a = .registers a.toNat := if_pos h

theorem regionOf_reserved {a : HostAddr} (h : 0x100 ≤ a.toNat) (h' : a.toNat < 0x100000) : regionOf a = .reserved := by
  unfold regionOf; rw [if_neg (by omega), if_pos h']

theorem regionOf_stage {a : HostAddr} (h : 0x100000 ≤ a.toNat) (h' : a.toNat < 0x200000) :
    regionOf a = .stage (a.toNat - 0x100000) := by
  unfold regionOf; rw [if_neg (by omega), if_neg (by omega), if_pos h']

theorem regionOf_newSlot {a : HostAddr} (h : 0x200000 ≤ a.toNat) (h' : a.toNat < 0x300000) :
    regionOf a = .newSlot (a.toNat - 0x200000) := by
  unfold regionOf; rw [if_neg (by omega), if_neg (by omega), if_neg (by omega), if_pos h']

theorem regionOf_oldSlot {a : HostAddr} (h : 0x300000 ≤ a.toNat) : regionOf a = .oldSlot (a.toNat - 0x300000) := by
  unfold regionOf; rw [if_neg (by omega), if_neg (by omega), if_neg (by omega), if_neg (by omega)]

/-- Every offset of the three apertures has a 22-bit address. -/
theorem toNat_apertureAddr {base off : Nat} (hb : base ≤ 0x300000) (ho : off < 0x100000) :
    (BitVec.ofNat 22 (base + off)).toNat = base + off := by
  rw [BitVec.toNat_ofNat, Nat.mod_eq_of_lt (by omega)]

/-- The aperture of STAGE starts at 0x100000. -/
theorem regionOf_stageAddr {off : Nat} (h : off < 0x100000) :
    regionOf (BitVec.ofNat 22 (0x100000 + off)) = .stage off := by
  have ha := toNat_apertureAddr (base := 0x100000) (by omega) h
  rw [regionOf_stage (by omega) (by omega), ha, Nat.add_sub_cancel_left]

/-- The aperture of NEW starts at 0x200000. -/
theorem regionOf_newSlotAddr {off : Nat} (h : off < 0x100000) :
    regionOf (BitVec.ofNat 22 (0x200000 + off)) = .newSlot off := by
  have ha := toNat_apertureAddr (base := 0x200000) (by omega) h
  rw [regionOf_newSlot (by omega) (by omega), ha, Nat.add_sub_cancel_left]

/-- The aperture of OLD starts at 0x300000. -/
theorem regionOf_oldSlotAddr {off : Nat} (h : off < 0x100000) :
    regionOf (BitVec.ofNat 22 (0x300000 + off)) = .oldSlot off := by
  have ha := toNat_apertureAddr (base := 0x300000) (by omega) h
  rw [regionOf_oldSlot (by omega), ha, Nat.add_sub_cancel_left]

/-! ### Legal accesses (R46) -/

/-- An access is legal iff it is naturally aligned and, in the register space, 4 bytes wide (R46). -/
theorem accessLegal_iff {w : Width} {a : HostAddr} :
    accessLegal w a = true ↔ a.toNat % w.bytes = 0 ∧ (a.toNat < 0x100 → w = .b4) := by
  unfold accessLegal
  rw [Bool.and_eq_true, beq_iff_eq]
  refine and_congr_right fun _ => ?_
  by_cases h : a.toNat < 0x100
  · rw [regionOf_register h]
    simp [h]
  · simp only [regionOf, if_neg h]
    split_ifs <;> simp [h]

/-- Beyond the register space, an access is legal where it is aligned. -/
theorem accessLegal_of_aligned {w : Width} {a : HostAddr} (h : a.toNat % w.bytes = 0) (ha : 0x100 ≤ a.toNat) :
    accessLegal w a = true := accessLegal_iff.2 ⟨h, fun hlt => absurd hlt (by omega)⟩

theorem hostRead_illegal {w : Width} {a : HostAddr} (h : ¬ accessLegal w a = true) (s : State) :
    hostRead w a s = .fault .misalignedAccess := if_neg h

theorem hostWrite_illegal {w : Width} {a : HostAddr} (h : ¬ accessLegal w a = true) (v : Word) (s : State) :
    hostWrite w a v s = .fault .misalignedAccess := if_neg h

theorem hostRead_legal {w : Width} {a : HostAddr} (h : accessLegal w a = true) (s : State) :
    hostRead w a s = .next { s with reads := s.reads ++ [readData s w a] } := if_pos h

/-! ### Writes by region (R43, R45, R47, R48) -/

theorem hostWrite_register {w : Width} {a : HostAddr} {off : Nat} (hl : accessLegal w a = true)
    (hr : regionOf a = .registers off) (v : Word) (s : State) : hostWrite w a v s = .next (writeRegister off v s) := by
  unfold hostWrite; rw [if_pos hl, hr]

/-- Reserved space, NEW and OLD ignore writes (R43). -/
theorem hostWrite_ignored {w : Width} {a : HostAddr} (hl : accessLegal w a = true)
    (hr : regionOf a = .reserved ∨ (∃ off, regionOf a = .newSlot off) ∨ ∃ off, regionOf a = .oldSlot off)
    (v : Word) (s : State) : hostWrite w a v s = .next s := by
  unfold hostWrite
  rw [if_pos hl]
  rcases hr with h | ⟨off, h⟩ | ⟨off, h⟩ <;> rw [h]

theorem hostWrite_stage_running {w : Width} {a : HostAddr} {off : Nat} (hl : accessLegal w a = true)
    (hr : regionOf a = .stage off) (v : Word) {s : State} (hs : s.run = true) :
    hostWrite w a v s = .fault .stageLocked := by
  unfold hostWrite; rw [if_pos hl, hr]; exact if_pos hs

theorem hostWrite_stage_idle {w : Width} {a : HostAddr} {off : Nat} (hl : accessLegal w a = true)
    (hr : regionOf a = .stage off) (v : Word) {s : State} (hs : s.run = false) :
    hostWrite w a v s = .next (writeStage (writeCells off w.bytes v) s) := by
  unfold hostWrite; rw [if_pos hl, hr]; exact if_neg (by rw [hs]; exact Bool.false_ne_true)

/-- The offsets from 0x24 on name no register (R21, R45): a write stores nothing. -/
theorem writeRegister_reserved {off : Nat} (h : 0x24 ≤ off) (v : Word) (s : State) : writeRegister off v s = s := by
  unfold writeRegister
  iterate 5 rw [if_neg (by omega)]

/-- The offsets from 0x24 on name no register (R21, R45): a read gives 0. -/
theorem readRegister_reserved {off : Nat} (h : 0x24 ≤ off) (s : State) : readRegister s off = 0 := by
  unfold readRegister
  iterate 7 rw [if_neg (by omega)]

/-! ### Reads by region (R44, R45, R47) -/

theorem readData_register {a : HostAddr} (h : a.toNat < 0x100) (s : State) (w : Width) :
    readData s w a = readRegister s a.toNat := by
  unfold readData; rw [regionOf_register h]

theorem readData_reserved {a : HostAddr} (h : 0x100 ≤ a.toNat) (h' : a.toNat < 0x100000) (s : State) (w : Width) :
    readData s w a = 0 := by
  unfold readData; rw [regionOf_reserved h h']

theorem readData_stage {off : Nat} (h : off < 0x100000) (s : State) (w : Width) :
    readData s w (BitVec.ofNat 22 (0x100000 + off)) = readAperture s.cfg.slotCap s.stageByte off w.bytes := by
  unfold readData; rw [regionOf_stageAddr h]

theorem readData_newSlot {off : Nat} (h : off < 0x100000) (s : State) (w : Width) :
    readData s w (BitVec.ofNat 22 (0x200000 + off)) = readAperture s.cfg.slotCap s.newByte off w.bytes := by
  unfold readData; rw [regionOf_newSlotAddr h]

theorem readData_oldSlot {off : Nat} (h : off < 0x100000) (s : State) (w : Width) :
    readData s w (BitVec.ofNat 22 (0x300000 + off)) = readAperture s.cfg.slotCap s.oldByte off w.bytes := by
  unfold readData; rw [regionOf_oldSlotAddr h]

/-! ### A write of n bytes to STAGE (R44, R47) -/

/-- The base of the STAGE aperture is a multiple of every width. -/
theorem aligned_stageAddr {w : Width} {off : Nat} (h : off % w.bytes = 0) : (0x100000 + off) % w.bytes = 0 := by
  have hb : 0x100000 % w.bytes = 0 := by cases w <;> rfl
  rw [Nat.add_mod, hb, h, Nat.zero_add, Nat.zero_mod]

theorem mem_writeCells {off n : Nat} {v : Word} {c : Host.Cell} :
    c ∈ writeCells off n v ↔ ∃ i, i < n ∧ (off + i, wordByte v i) = c := by
  simp [writeCells]

/-- A write names each of its offsets once. -/
theorem writeCells_nodup (off n : Nat) (v : Word) : ((writeCells off n v).map (·.1)).Nodup := by
  unfold writeCells
  rw [List.map_map]
  exact List.nodup_range.map fun i j hij => Nat.add_left_cancel hij

/-- Byte i of the word is stored at offset a + i, where STAGE has that offset. -/
theorem stageByte_writeCells_of_lt {s : State} (hwf : s.stage.wf none = true) {off n i : Nat} (v : Word) (hi : i < n)
    (hcap : off + i < s.cfg.slotCap) :
    (writeStage (writeCells off n v) s).stageByte (off + i) = wordByte v i := by
  have hmem : (off + i, wordByte v i) ∈ writeCells off n v := mem_writeCells.2 ⟨i, hi, rfl⟩
  have hlook := Memory.lookup_setAll_mem hwf (writeCells_nodup off n v) hmem hcap
  unfold State.stageByte
  rw [writeStage_stage, hlook, if_neg (by simp), Option.getD_some]

/-- The offsets that the write does not name, and those past STAGE's capacity, keep their bytes. -/
theorem stageByte_writeCells_other (s : State) {off n a : Nat} (v : Word)
    (h : a < off ∨ off + n ≤ a ∨ s.cfg.slotCap ≤ a) :
    (writeStage (writeCells off n v) s).stageByte a = s.stageByte a := by
  unfold State.stageByte
  rw [writeStage_stage]
  by_cases hcap : s.cfg.slotCap ≤ a
  · rw [Memory.lookup_setAll_past _ _ _ hcap]
  · rw [Memory.lookup_setAll_other _ _ _ _ fun c hc => ?_]
    obtain ⟨i, hi, rfl⟩ := mem_writeCells.1 hc
    show off + i ≠ a
    omega

end Sys2Proof.Machine

open Sys2Proof Sys2Proof.Machine

/-- Settles O53: the write stores one cell a byte, each offset once, and drops those past the capacity. -/
theorem stageWriteIsLittleEndian : Obligations.StageWriteIsLittleEndian := by
  intro s w off v hwf hoff halign hrun
  have ha := toNat_apertureAddr (base := 0x100000) (by omega) hoff
  have hl : accessLegal w (BitVec.ofNat 22 (0x100000 + off)) = true :=
    accessLegal_of_aligned (by rw [ha]; exact aligned_stageAddr halign) (by omega)
  exact ⟨_, hostWrite_stage_idle hl (regionOf_stageAddr hoff) v hrun, rfl,
    fun i hi hcap => stageByte_writeCells_of_lt hwf v hi hcap, fun a h => stageByte_writeCells_other s v h⟩

/-- Settles O54: each aperture's read is `readAperture` of its memory, whose bytes are known. -/
theorem apertureReadIsLittleEndian : Obligations.ApertureReadIsLittleEndian := by
  intro s w off i hoff hi
  rw [readData_stage hoff, readData_newSlot hoff, readData_oldSlot hoff]
  exact ⟨readAperture_byte _ _ _ _ _ w.bytes_le hi, readAperture_byte _ _ _ _ _ w.bytes_le hi,
    readAperture_byte _ _ _ _ _ w.bytes_le hi⟩

/-- Settles O7: while no operation runs the step is the host's, and a host that goes on makes its CMD write alone. -/
theorem stepIssuesAlone : Obligations.StepIssuesAlone := by
  intro s w i rest hc hr hq hw hd
  rw [step_idle hc hr, hostStep_cmd hq, cmdWrite_goesOn hd hw]

/-- Settles O50: such an access is not legal. -/
theorem misalignedAccessFaults : Obligations.MisalignedAccessFaults := by
  intro s w a v h
  have hl : ¬ accessLegal w a = true := fun hl => by
    obtain ⟨halign, hwide⟩ := accessLegal_iff.1 hl
    rcases h with h | ⟨hlt, hne⟩
    · exact h halign
    · exact hne (hwide hlt)
  exact ⟨hostRead_illegal hl s, hostWrite_illegal hl v s⟩

/-- Settles O51: an aligned access to an aperture is legal; the lock stops its write to STAGE, nothing its read. -/
theorem stageIsLockedWhileRunning : Obligations.StageIsLockedWhileRunning := fun s _ _ v halign =>
  ⟨fun hrun hlo hhi =>
    hostWrite_stage_running (accessLegal_of_aligned halign (by omega)) (regionOf_stage hlo hhi) v hrun,
    fun hlo => ⟨_, hostRead_legal (accessLegal_of_aligned halign (by omega)) s⟩⟩

/-- Settles O52: an answered read is a legal one. -/
theorem readsHaveNoSideEffect : Obligations.ReadsHaveNoSideEffect :=
  fun _ _ _ _ h => hostRead_frame h

/-- Settles O58: a case each for reserved space, for the register space behind its registers, and for NEW and OLD. -/
theorem reservedSpaceIsInert : Obligations.ReservedSpaceIsInert := by
  intro s w a v halign
  refine ⟨?_, fun hslot => ?_⟩
  · rintro (⟨hlo, hhi⟩ | ⟨hlo, hhi, hw⟩)
    · exact ⟨hostWrite_ignored (accessLegal_of_aligned halign hlo) (.inl (regionOf_reserved hlo hhi)) v s,
        readData_reserved hlo hhi s w⟩
    · have hl : accessLegal w a = true := accessLegal_iff.2 ⟨halign, fun _ => hw⟩
      rw [hostWrite_register hl (regionOf_register hhi), readData_register hhi, writeRegister_reserved hlo,
        readRegister_reserved hlo]
      exact ⟨rfl, rfl⟩
  · refine hostWrite_ignored (accessLegal_of_aligned halign (by omega)) (.inr ?_) v s
    by_cases hnew : a.toNat < 0x300000
    · exact .inl ⟨_, regionOf_newSlot hslot hnew⟩
    · exact .inr ⟨_, regionOf_oldSlot (by omega)⟩

/-- Settles O59: at rest the step is the host's `waitdone`; while an operation runs it is the sequencer's, which writes
nothing on the host's side. -/
theorem waitdoneGivesStatus : Obligations.WaitdoneGivesStatus := by
  intro s rest hc hq
  refine ⟨fun hr => ?_, fun t hr hs => ?_⟩
  · rw [step_idle hc hr, hostStep_waitdone hq]
  · have hw : s.hostWaits = true := by unfold State.hostWaits; rw [hq]
    rw [step_quiet hc hr hw] at hs
    obtain ⟨-, -, -, -, hhostq, hreads, -⟩ := quietStep_hostSide hs
    exact ⟨hhostq, hreads⟩

end

section
/-! Decoding and encoding (R59 to R69): the fields of a CMD word, the four readings of a panel byte, and the two inverse
directions. -/

namespace Sys2Proof

/-! ### The fields of a CMD word (R59) -/

@[simp] theorem cmdOp_cmdWord (op : Byte) (win : Bool) (mode : BitVec 2) : cmdOp (cmdWord op win mode) = op :=
  BitVec.extractLsb'_append_eq_right

@[simp] theorem cmdWin_cmdWord (op : Byte) (win : Bool) (mode : BitVec 2) : cmdWin (cmdWord op win mode) = win := by
  unfold cmdWin cmdWord
  rw [BitVec.getLsbD_append, BitVec.getLsbD_append]
  simp

@[simp] theorem cmdMode_cmdWord (op : Byte) (win : Bool) (mode : BitVec 2) : cmdMode (cmdWord op win mode) = mode := by
  unfold cmdMode cmdWord
  rw [BitVec.extractLsb'_append_eq_of_le (by decide), BitVec.extractLsb'_append_eq_of_le (by decide)]
  exact BitVec.extractLsb'_append_eq_right

@[simp] theorem cmdRsv_cmdWord (op : Byte) (win : Bool) (mode : BitVec 2) : cmdRsv (cmdWord op win mode) = 0 := by
  unfold cmdRsv cmdWord
  rw [BitVec.extractLsb'_append_eq_of_le (by decide), BitVec.extractLsb'_append_eq_of_le (by decide)]
  exact BitVec.extractLsb'_append_eq_left

/-- WIN, as a field of one bit. -/
theorem ofBool_cmdWin (w : Word) : BitVec.ofBool (cmdWin w) = w.extractLsb' 8 1 := by
  ext k hk
  obtain rfl : k = 0 := by omega
  simp [cmdWin]

/-- MODE and WIN are bits [10:8] of the word. -/
theorem cmdMode_append_cmdWin (w : Word) : cmdMode w ++ BitVec.ofBool (cmdWin w) = w.extractLsb' 8 3 := by
  rw [ofBool_cmdWin]
  exact BitVec.extractLsb'_append_extractLsb'_eq_extractLsb' rfl

/-- A CMD word with clear reserved bits is made of its other fields. -/
theorem cmdWord_fields {w : Word} (h : cmdRsv w = 0) : cmdWord (cmdOp w) (cmdWin w) (cmdMode w) = w := by
  unfold cmdWord
  rw [← h, ofBool_cmdWin]
  unfold cmdRsv cmdMode cmdOp
  rw [BitVec.extractLsb'_append_extractLsb'_eq_extractLsb' (by rfl),
    BitVec.extractLsb'_append_extractLsb'_eq_extractLsb' (by rfl),
    BitVec.extractLsb'_append_extractLsb'_eq_extractLsb' (by rfl)]
  exact BitVec.extractLsb'_eq_self

theorem cmdPlain_iff_fields {w : Word} : cmdPlain w = true ↔ cmdWin w = false ∧ cmdMode w = 0 := by simp [cmdPlain]

/-- A plain word has bits [10:8] clear (R61). -/
theorem cmdPlain_iff_bits {w : Word} : cmdPlain w = true ↔ w.extractLsb' 8 3 = 0 := by
  have hsplit : ∀ (m : BitVec 2) (b : Bool), m ++ BitVec.ofBool b = 0 ↔ b = false ∧ m = 0 := by decide
  rw [cmdPlain_iff_fields, ← cmdMode_append_cmdWin, hsplit]

@[simp] theorem Mode.ofCode_code (m : Mode) : Mode.ofCode m.code = m := by cases m <;> rfl

@[simp] theorem Mode.code_ofCode (b : BitVec 2) : (Mode.ofCode b).code = b := by revert b; decide

/-! ### Host operations (R60, R61) -/

open Machine (isHostOp)

/-- The code of a host operation decodes to it, on every EPDC. -/
theorem decode_encode_hostOp (c : Config) {i : Instr} (h : isHostOp i) : decode c (encode c i) = .ok i := by
  rcases h with rfl | ⟨m, rfl⟩ | ⟨win, rfl⟩ | ⟨m, rfl⟩ | rfl | rfl <;>
    simp [decode, encode, decodeHostOp, cmdPlain]

/-- A CMD word that decodes is the code of its operation. -/
theorem encode_of_decodeHostOp (c : Config) {w : Word} {i : Instr} (h : decodeHostOp w = .ok i) :
    encode c i = .hostWord w := by
  simp only [decodeHostOp, ite_eq_iff, ne_eq, not_not, Except.ok.injEq, reduceCtorEq, and_false, or_false, false_or,
    Bool.not_eq_true, cmdPlain_iff_fields] at h
  obtain ⟨hrsv, hrow⟩ := h
  rw [← cmdWord_fields hrsv]
  casesm* _ ∨ _, _ ∧ _ <;> subst i <;> simp [encode, *]

/-- R61 in terms of the word's fields. -/
theorem cmdWordLegal_iff {w : Word} :
    Machine.cmdWordLegal w ↔ cmdRsv w = 0 ∧
      (((cmdOp w = 0x01 ∨ cmdOp w = 0x05 ∨ cmdOp w = 0x06) ∧ cmdPlain w = true)
        ∨ ((cmdOp w = 0x02 ∨ cmdOp w = 0x04) ∧ cmdWin w = false) ∨ (cmdOp w = 0x03 ∧ cmdMode w = 0)) := by
  unfold Machine.cmdWordLegal
  rw [← cmdPlain_iff_bits]
  rfl

/-- The code of a host operation is a legal word. -/
theorem cmdWordLegal_of_encode {c : Config} {i : Instr} {w : Word} (hi : isHostOp i) (h : encode c i = .hostWord w) :
    Machine.cmdWordLegal w := by
  rw [cmdWordLegal_iff]
  rcases hi with rfl | ⟨m, rfl⟩ | ⟨win, rfl⟩ | ⟨m, rfl⟩ | rfl | rfl <;> cases h <;> simp [cmdPlain]

/-- Each legal combination of OP, WIN and MODE has its operation. -/
theorem exists_decodeHostOp_of_legal {w : Word} (h : Machine.cmdWordLegal w) : ∃ i, decodeHostOp w = .ok i := by
  obtain ⟨hrsv, hrow⟩ := cmdWordLegal_iff.1 h
  rcases hrow with ⟨hop | hop | hop, hplain⟩ | ⟨hop | hop, hwin⟩ | ⟨hop, hmode⟩
  · exact ⟨.reset, by simp [decodeHostOp, hrsv, hop, hplain]⟩
  · exact ⟨.sleep, by simp [decodeHostOp, hrsv, hop, hplain]⟩
  · exact ⟨.wake, by simp [decodeHostOp, hrsv, hop, hplain]⟩
  · exact ⟨.init (Mode.ofCode (cmdMode w)), by simp [decodeHostOp, hrsv, hop, hwin]⟩
  · exact ⟨.refresh (Mode.ofCode (cmdMode w)), by simp [decodeHostOp, hrsv, hop, hwin]⟩
  · exact ⟨.transfer (cmdWin w), by simp [decodeHostOp, hrsv, hop, hmode]⟩

/-- A CMD word decodes iff it is legal (R61). -/
theorem exists_decodeHostOp_iff {w : Word} : (∃ i, decodeHostOp w = .ok i) ↔ Machine.cmdWordLegal w := by
  refine ⟨fun ⟨i, h⟩ => ?_, exists_decodeHostOp_of_legal⟩
  exact cmdWordLegal_of_encode (Machine.decodeHostOp_cases h) (encode_of_decodeHostOp (Config.standard .fw) h)

/-- The host operations are the instructions of no one variant (R60). -/
theorem isHostOp_iff_variant? {i : Instr} : isHostOp i ↔ i.variant? = none := by
  unfold isHostOp
  cases i <;> simp [Instr.variant?]

/-! ### Panel command frames (R67) -/

/-- A panel command fits the EPDCs of its variant (R67, R68). -/
theorem fits_iff_of_variant? {c : Config} {i : Instr} {v : Variant} (h : i.variant? = some v) :
    i.fits c = true ↔ c.variant = v := by
  unfold Instr.fits
  rw [h, beq_iff_eq]
  exact eq_comm

/-! The variant, and whether a rule or a table emits the byte, choose its reading. -/

theorem decodeFrame_fwRule {c : Config} (hv : c.variant = .fw) (op : Byte) :
    decodeFrame c (ruleFrame op) = decodeFwRule op := by
  simp only [decodeFrame, ruleFrame, hv]

theorem decodeFrame_nfRule {c : Config} (hv : c.variant = .nf) (op : Byte) :
    decodeFrame c (ruleFrame op) = decodeNfRule c op := by
  simp only [decodeFrame, ruleFrame, hv]

theorem decodeFrame_fwTable {c : Config} (hv : c.variant = .fw) (op : Byte) {data : List Byte}
    (hd : dataOk data = true) (wait : Bool) :
    decodeFrame c (tableFrame op data wait) = decodeFwTable op ⟨data, wait⟩ := by
  simp only [decodeFrame, tableFrame, hv, hd, if_true]

theorem decodeFrame_nfTable {c : Config} (hv : c.variant = .nf) (op : Byte) {data : List Byte}
    (hd : dataOk data = true) (wait : Bool) :
    decodeFrame c (tableFrame op data wait) = decodeNfTable op ⟨data, wait⟩ := by
  simp only [decodeFrame, tableFrame, hv, hd, if_true]

/-- The code of an FW panel command decodes to it on an FW EPDC: each row by its reading. -/
theorem decode_encode_fw {c : Config} (hv : c.variant = .fw) {i : Instr} (hi : i.variant? = some .fw)
    (hw : i.wf = true) : decode c (encode c i) = .ok i := by
  cases i <;> simp only [Instr.variant?, reduceCtorEq, Option.some.injEq] at hi
  case fwGateSetting | fwGateVoltage | fwSourceVoltage | fwBooster | fwDeepSleep | fwDataEntryMode | fwSensorEnable
      | fwVcom | fwDisplayOption | fwBorder =>
    exact decodeFrame_fwTable hv _ hw _
  all_goals exact decodeFrame_fwRule hv _

/-- The code of an NF panel command decodes to it on an NF EPDC: each row by its reading. -/
theorem decode_encode_nf {c : Config} (hc : c.wf = true) (hv : c.variant = .nf) {i : Instr}
    (hi : i.variant? = some .nf) (hw : i.wf = true) : decode c (encode c i) = .ok i := by
  obtain ⟨hlut0, hlut1, hlut2, hlut3, hlut4⟩ := Machine.decodeFrame_regLut hc hv
  cases i <;> simp only [Instr.variant?, reduceCtorEq, Option.some.injEq] at hi
  case nfPowerOff | nfPowerOn | nfDeepSleep => exact decodeFrame_nfTable hv _ hw _
  case nfTransmission1 | nfLegacyRefresh | nfTransmission2 => exact decodeFrame_nfRule hv _
  case nfRegLut0 => exact hlut0
  case nfRegLut1 => exact hlut1
  case nfRegLut2 => exact hlut2
  case nfRegLut3 => exact hlut3
  case nfRegLut4 => exact hlut4

/-! Each reading is a cascade of tests of the byte: as a disjunction it has one case a row, and the row's code is the
frame read. -/

theorem encode_of_decodeFwTable {c : Config} (hv : c.variant = .fw) {op : Byte} {data : List Byte} {wait : Bool}
    (hd : dataOk data = true) {i : Instr} (h : decodeFwTable op ⟨data, wait⟩ = .ok i) :
    encode c i = .frame (tableFrame op data wait) ∧ i.wf = true ∧ i.fits c = true := by
  simp only [decodeFwTable, ite_eq_iff, Except.ok.injEq, reduceCtorEq, and_false, or_false, false_or,
    Bool.not_eq_true] at h
  casesm* _ ∨ _, _ ∧ _ <;> subst_vars <;> exact ⟨rfl, hd, (fits_iff_of_variant? rfl).2 hv⟩

theorem encode_of_decodeNfTable {c : Config} (hv : c.variant = .nf) {op : Byte} {data : List Byte} {wait : Bool}
    (hd : dataOk data = true) {i : Instr} (h : decodeNfTable op ⟨data, wait⟩ = .ok i) :
    encode c i = .frame (tableFrame op data wait) ∧ i.wf = true ∧ i.fits c = true := by
  simp only [decodeNfTable, ite_eq_iff, Except.ok.injEq, reduceCtorEq, and_false, or_false, false_or,
    Bool.not_eq_true] at h
  casesm* _ ∨ _, _ ∧ _ <;> subst_vars <;> exact ⟨rfl, hd, (fits_iff_of_variant? rfl).2 hv⟩

theorem encode_of_decodeFwRule {c : Config} (hv : c.variant = .fw) {op : Byte} {i : Instr}
    (h : decodeFwRule op = .ok i) : encode c i = .frame (ruleFrame op) ∧ i.wf = true ∧ i.fits c = true := by
  simp only [decodeFwRule, ite_eq_iff, Except.ok.injEq, reduceCtorEq, and_false, or_false] at h
  casesm* _ ∨ _, _ ∧ _ <;> subst_vars <;> exact ⟨rfl, rfl, (fits_iff_of_variant? rfl).2 hv⟩

theorem encode_of_decodeNfRule {c : Config} (hv : c.variant = .nf) {op : Byte} {i : Instr}
    (h : decodeNfRule c op = .ok i) : encode c i = .frame (ruleFrame op) ∧ i.wf = true ∧ i.fits c = true := by
  simp only [decodeNfRule, ite_eq_iff, Except.ok.injEq, reduceCtorEq, and_false, or_false] at h
  casesm* _ ∨ _, _ ∧ _ <;> subst_vars <;> exact ⟨rfl, rfl, (fits_iff_of_variant? rfl).2 hv⟩

/-- Data of more than 255 bytes decode to nothing (R69). -/
theorem decodeFrame_payloadTooLong {c : Config} {op : Byte} {data : List Byte} (hd : ¬ dataOk data = true)
    (wait : Bool) : decodeFrame c (tableFrame op data wait) = .error .payloadTooLong := if_neg hd

/-- A frame that decodes is the code of its command: each of the four readings inverts its rows. -/
theorem encode_of_decodeFrame {c : Config} {f : Frame} {i : Instr} (h : decodeFrame c f = .ok i) :
    encode c i = .frame f ∧ i.wf = true ∧ i.fits c = true := by
  obtain ⟨op, _ | ⟨data, wait⟩⟩ := f
  · cases hv : c.variant with
    | fw => exact encode_of_decodeFwRule hv ((decodeFrame_fwRule hv op).symm.trans h)
    | nf => exact encode_of_decodeNfRule hv ((decodeFrame_nfRule hv op).symm.trans h)
  · by_cases hd : dataOk data = true
    · cases hv : c.variant with
      | fw => exact encode_of_decodeFwTable hv hd ((decodeFrame_fwTable hv op hd wait).symm.trans h)
      | nf => exact encode_of_decodeNfTable hv hd ((decodeFrame_nfTable hv op hd wait).symm.trans h)
    · cases (decodeFrame_payloadTooLong hd wait).symm.trans h

/-- A host operation is well formed, and every EPDC has it (R60). -/
theorem wf_fits_of_isHostOp {i : Instr} (h : isHostOp i) (c : Config) : i.wf = true ∧ i.fits c = true := by
  rcases h with rfl | ⟨m, rfl⟩ | ⟨win, rfl⟩ | ⟨m, rfl⟩ | rfl | rfl <;> exact ⟨rfl, rfl⟩

end Sys2Proof

namespace Sys2Proof.Machine

/-! ### The steps that fetch a code (R61, R67, R68) -/

/-- An illegal CMD write while no operation runs changes ERR only (R61, R162). -/
theorem issueIllegal_idle {s : State} (h : s.run = false) : issueIllegal s = { s with err := .badOp } :=
  issueCmd_rejected h (by decide)

/-- At a frame that decodes, the sequencer's step while the host waits is the meaning of the command. -/
theorem quietStep_command {s : State} {f : Frame} {i : Instr} {rest : List Micro} (ht : s.todo = .frame f :: rest)
    (hd : decodeFrame s.cfg f = .ok i) : quietStep s = exec i { s with todo := rest } := by
  unfold quietStep
  rw [ht]
  show runFrame f { s with todo := rest } = _
  unfold runFrame
  rw [show decodeFrame (State.cfg { s with todo := rest }) f = .ok i from hd]

end Sys2Proof.Machine

open Sys2Proof Sys2Proof.Machine

/-- Settles O1: a host operation's fields come back from its word; a panel command's byte has one reading on its
variant, and R14 keeps the register-LUT opcodes apart from each other and from the fixed NF bytes. -/
theorem decodeOfEncode : Obligations.DecodeOfEncode := by
  intro c i hc hw hfit
  cases hi : i.variant? with
  | none => exact decode_encode_hostOp c (isHostOp_iff_variant?.2 hi)
  | some v =>
    have hv := (fits_iff_of_variant? hi).1 hfit
    cases v with
    | fw => exact decode_encode_fw hv hi hw
    | nf => exact decode_encode_nf hc hv hi hw

/-- Settles O2: the word's fields, or the frame's byte and arguments, are those of the code. -/
theorem encodeOfDecode : Obligations.EncodeOfDecode := by
  intro c code i h
  cases code with
  | hostWord w => exact ⟨encode_of_decodeHostOp c h, wf_fits_of_isHostOp (decodeHostOp_cases h) c⟩
  | frame f => exact encode_of_decodeFrame h

/-- Settles O3: legality is R61 read field by field; the illegal write is a rejection at issue. -/
theorem cmdWordLegality : Obligations.CmdWordLegality := by
  refine ⟨fun _ => exists_decodeHostOp_iff, fun s w rest hc hr hl hq => ?_⟩
  cases hd : decodeHostOp w with
  | ok i => exact absurd (exists_decodeHostOp_iff.1 ⟨i, hd⟩) hl
  | error e =>
    rw [step_idle hc hr, hostStep_cmd hq, cmdWrite_illegal hd, issueIllegal_idle (s := { s with hostq := rest }) hr]

/-- Settles O45: a table's frame has the plan of a command whatever its byte, and the plan is sent. -/
theorem unlistedTableByteIsSent : Obligations.UnlistedTableByteIsSent := by
  intro s op data wait rest e hc hr hw ht _ hx hi
  obtain ⟨t, hrun, hsent, -, -⟩ := commandPlan_sent (s := { s with todo := rest }) op (.lit data) data wait
    (fun _ _ => rfl) rfl hx hi
  refine ⟨t, ?_, hsent.frame, hsent.trace⟩
  rw [step_quiet hc hr hw, quietStep_frame ht, framePlan_table]
  exact congrArg (fun r => Host.Outcome.next r.orAbort) hrun

/-- Settles O4: each word's fields, and the four readings of each byte in their order, are evaluated. -/
theorem specWordsDecode : Obligations.SpecWordsDecode := ⟨rfl, rfl, rfl, rfl, rfl, rfl⟩

/-- Settles O5: while no operation runs the step is the host's, and a host that then waits has the operation run. -/
theorem stepRunsHostOperation : Obligations.StepRunsHostOperation := by
  intro s w i rest hc hr hq hw hd
  rw [step_idle hc hr, hostStep_cmd hq, cmdWrite_waits hd hw]

/-- Settles O6: while an operation runs and the host waits, the step is the sequencer's, which fetches the frame. -/
theorem stepRunsPanelCommand : Obligations.StepRunsPanelCommand := by
  intro s f i rest hc hr hw ht hd
  rw [step_quiet hc hr hw, quietStep_command ht hd]

end


section
/-! The transport of panel commands (R74 to R78): the chunks of a data frame, the first transfer that fails, what a
panel command's plan sends, and where an error leaves the operation (R164). -/

namespace Sys2Proof.Machine

/-! ### Chunks (R76) -/

theorem getElem?_chunks {c n k : Nat} (h : k < ceilDiv n c) :
    (chunks c n)[k]? = some (k * c, min ((k + 1) * c) n) := by
  simp [chunks, h]

/-- Chunk k between the chunks before it and those behind it. -/
theorem chunks_eq_take_cons_drop {c n k : Nat} (h : k < ceilDiv n c) :
    chunks c n = (chunks c n).take k ++ (k * c, min ((k + 1) * c) n) :: (chunks c n).drop (k + 1) := by
  obtain ⟨hk, hget⟩ := List.getElem?_eq_some_iff.1 (getElem?_chunks h)
  rw [← hget, ← List.drop_eq_getElem_cons hk, List.take_append_drop]

/-- The bytes of a chunk, cut off at the payload's end, are at most P_MAX_CHUNK bytes from the chunk's start on. -/
theorem take_chunk (c k : Nat) (bytes : List Byte) :
    (bytes.drop (k * c)).take (min ((k + 1) * c) bytes.length - k * c) = (bytes.drop (k * c)).take c := by
  rw [List.take_eq_take_iff, List.length_drop, Nat.succ_mul]
  omega

/-- The first k chunks carry the first k × P_MAX_CHUNK bytes. -/
theorem flatten_range_chunks (c : Nat) (bytes : List Byte) (k : Nat) :
    ((List.range k).map fun i => (bytes.drop (i * c)).take c).flatten = bytes.take (k * c) := by
  induction k with
  | zero => simp
  | succ k ih =>
    rw [List.range_succ, List.map_append, List.flatten_append, ih, Nat.succ_mul, List.take_add]
    simp

/-- The chunks carry the payload. -/
theorem flatten_chunks {c : Nat} (hc : 1 ≤ c) (bytes : List Byte) :
    ((chunks c bytes.length).map fun p => (bytes.drop p.1).take (p.2 - p.1)).flatten = bytes := by
  have hall : bytes.length ≤ ceilDiv bytes.length c * c :=
    Nat.le_of_not_lt fun h => absurd ((lt_ceilDiv_iff hc).2 h) (lt_irrefl _)
  calc _ = ((List.range (ceilDiv bytes.length c)).map fun i => (bytes.drop (i * c)).take c).flatten := by
          simp only [chunks, List.map_map, Function.comp_def, take_chunk]
    _ = bytes.take (ceilDiv bytes.length c * c) := flatten_range_chunks c bytes _
    _ = bytes := List.take_of_length_le hall

/-! ### Failed transfers (R74, R75, R78) -/

/-- A failed transfer deasserts CS and raises TRANSPORT_FAILURE. -/
theorem runPrim_xfer_fails {s : State} (h : s.xferOk = false) (src : Source) (lo hi : Nat) :
    runPrim (.xfer src lo hi) s = .raised .transportFailure (setCs false (spiXfer (src.slice s lo hi) s)) := by
  simp [runPrim, h]

/-- A command frame whose byte fails ends there (R74). -/
theorem commandFrame_fails {s : State} (op : Byte) (h : s.xferOk = false) :
    runPrims (commandFrame s.cfg op) s
      = .raised .transportFailure (setCs false (spiXfer [op] (setCs true (setDc false s)))) := by
  have hx : (setCs true (setDc false s)).xferOk = false := h
  simp [commandFrame, runPrims, runPrim, hx, Source.slice, Source.bytes]

/-- Chunks of which the first to fail is `p`, behind the chunks `sent`: no later one is sent (R75, R78). -/
theorem xferPrims_fail (src : Source) (bytes : List Byte) (sent rest : List (Nat × Nat)) (p : Nat × Nat) {s : State}
    (hb : ∀ t : State, busOnly s t → src.bytes t = bytes) (hs : s.xfersOk sent.length)
    (hf : s.xferOkAt sent.length = false) :
    ∃ t, runPrims ((sent ++ p :: rest).map fun q => Prim.xfer src q.1 q.2) s = .raised .transportFailure t
      ∧ busOnly s t ∧ t.touched = true ∧ t.pins = { s.pins with cs := false }
      ∧ t.trace = s.trace ++ sent.map (fun q => Event.xfer ((bytes.drop q.1).take (q.2 - q.1)))
        ++ [.xferFail ((bytes.drop p.1).take (p.2 - p.1)), .cs false] := by
  obtain ⟨u, hu, hsent, hpins, -⟩ := xferPrims_sent src bytes sent hb hs
  have hx : u.xferOk = false := by
    rw [← State.xferOkAt_zero, State.xferOkAt_add hsent.frame.cfg hsent.xferIn, Nat.add_zero, hf]
  have hbytes : src.slice u p.1 p.2 = (bytes.drop p.1).take (p.2 - p.1) := by
    rw [Source.slice, hb u hsent.frame]
  refine ⟨setCs false (spiXfer (src.slice u p.1 p.2) u), ?_, hsent.frame.trans rfl, rfl, ?_, ?_⟩
  · rw [List.map_append, List.map_cons, runPrims_append, hu, Res.bind_ok, runPrims_cons, runPrim_xfer_fails hx,
      Res.bind_raised]
  · rw [setCs_pins, spiXfer_pins, hpins]
  · simp [hx, hbytes, hsent.trace]

/-- A data frame of which transfer k is the first to fail (R75, R76, R78). -/
theorem dataFrame_fails {s : State} (src : Source) {k : Nat}
    (hk : k < ceilDiv (src.bytes s).length s.cfg.maxChunk) (hs : s.xfersOk k) (hf : s.xferOkAt k = false)
    (hne : src.bytes s ≠ []) :
    ∃ t, runPrims (dataFrame s.cfg src) s = .raised .transportFailure t ∧ busOnly s t ∧ t.touched = true
      ∧ t.pins = ⟨s.pins.rst, true, false⟩
      ∧ t.trace = s.trace ++ [.pin .dc true, .cs true] ++ (xferEvents s.cfg (src.bytes s)).take k
          ++ [.xferFail (((src.bytes s).drop (k * s.cfg.maxChunk)).take s.cfg.maxChunk), .cs false] := by
  set bytes := src.bytes s
  have htake : ((chunks s.cfg.maxChunk bytes.length).take k).length = k :=
    List.length_take_of_le (by rw [length_chunks]; exact hk.le)
  have hopen : busOnly s (setCs true (setDc true s)) := rfl
  obtain ⟨t, ht, hbus, htouched, hpins, htrace⟩ := xferPrims_fail src bytes
    ((chunks s.cfg.maxChunk bytes.length).take k) ((chunks s.cfg.maxChunk bytes.length).drop (k + 1))
    (k * s.cfg.maxChunk, min ((k + 1) * s.cfg.maxChunk) bytes.length) (s := setCs true (setDc true s))
    (fun _ ht => Source.bytes_busOnly (hopen.trans ht) src) (by rwa [htake]) (by rwa [htake])
  refine ⟨t, ?_, hopen.trans hbus, htouched, hpins, ?_⟩
  · have hl : src.length = bytes.length := (Source.length_bytes src s).symm
    rw [← chunks_eq_take_cons_drop hk] at ht
    simp only [dataFrame, hl, List.length_eq_zero_iff, hne, if_false, List.cons_append, runPrims_cons, runPrim,
      Res.bind_ok, runPrims_append, ht, Res.bind_raised]
  · rw [htrace, take_chunk, setCs_trace, setDc_trace, xferEvents, ← List.map_take]
    simp

/-! ### Panel commands as instructions -/

/-- A panel command whose plan is known sends what its source holds. -/
theorem sendsCommand_of_plan {s : State} {i : Instr} {op : Byte} {src : Source} {wait : Bool}
    (hi : panelByte s.cfg i = some op) (hplan : planOf i s = commandPlan s.cfg op src wait) :
    sendsCommand s i op (src.bytes s) wait := by
  intro hx hidle
  obtain ⟨t, ht, hsent, htouched, hpins⟩ := commandPlan_sent op src (src.bytes s) wait
    (fun _ h => Source.bytes_busOnly h src) (Source.length_bytes src s).symm hx hidle
  refine ⟨t, ?_, hsent.frame, hsent.trace, htouched, hpins⟩
  rw [exec_panel hi, hplan, perform, ht, Res.orAbort_ok]

/-- Where an error behind the operation's first transfer leaves the operation's state and DEGRADED (R164). -/
theorem abort_session {s u : State} (code : ErrCode) (h : busOnly s u) (ht : u.touched = true) :
    ((s.latch.op = .init ∨ s.latch.op = .wake) →
        (abort code u).state = .uninit ∧ (abort code u).degraded = s.degraded)
      ∧ ((s.latch.op = .transfer ∨ s.latch.op = .refresh ∨ s.latch.op = .sleep) →
        (abort code u).state = .idle ∧ (abort code u).degraded = true) := by
  rw [← h.seqOnly.latch, ← h.seqOnly.degraded]
  refine ⟨fun hop => ?_, fun hop => ?_⟩
  · rw [abort_init hop]; exact ⟨rfl, rfl⟩
  · rw [abort_frames hop, ht, Bool.or_true]; exact ⟨rfl, rfl⟩

end Sys2Proof.Machine

open Sys2Proof Sys2Proof.Machine

/-- Settles O40: each of the ten is its byte with the entry's data and wait as its plan. -/
theorem fwTableCommandsSend : Obligations.FwTableCommandsSend := by
  refine fun s data wait => ⟨fun p hp => ?_, sendsCommand_of_plan (src := .lit data) rfl rfl⟩
  simp only [List.mem_cons, List.not_mem_nil, or_false] at hp
  rcases hp with rfl | rfl | rfl | rfl | rfl | rfl | rfl | rfl | rfl <;>
    exact sendsCommand_of_plan (src := .lit data) rfl rfl

/-- Settles O43: the plan's primitives are the bus's, so what they leave differs in the bus state only; an error aborts
the operation from there. -/
theorem panelCommandFrame : Obligations.PanelCommandFrame := by
  intro i s op h
  obtain ⟨src, wait, hplan⟩ := planOf_eq h
  obtain ⟨hbus, hcode, -⟩ := runPrims_bus (commandPlan_isBus s.cfg op src wait) s
  have htouched := commandPlan_touched s.cfg op src wait s
  refine ⟨_, _, hbus, exec_panel h, htouched, commandPlan_cs s.cfg op src wait s, ?_⟩
  rw [hplan, perform]
  cases hr : runPrims (commandPlan s.cfg op src wait) s with
  | ok u => exact .inl rfl
  | raised code u =>
    rw [hr] at hbus htouched
    rw [Res.state_raised] at hbus htouched ⊢
    have hend := abort_session code hbus htouched
    obtain ⟨ended, degraded, habort, -, -⟩ := abort_frame code u
    rw [habort] at hend
    exact .inr ⟨code, ended, degraded, hcode code u hr, habort, hend⟩

/-- Settles O44: the command frame ends at the byte that fails, and the error aborts the operation. -/
theorem failedCommandEndsTheOperation : Obligations.FailedCommandEndsTheOperation := by
  intro i s op h hx
  obtain ⟨src, wait, hplan⟩ := planOf_eq h
  set u := setCs false (spiXfer [op] (setCs true (setDc false s))) with hu
  have hrun : runPrims (planOf i s) s = .raised .transportFailure u := by
    rw [hplan, commandPlan, List.append_assoc, runPrims_append, commandFrame_fails op hx, Res.bind_raised]
  have hfail : (setCs true (setDc false s)).xferOk = false := hx
  refine ⟨abort .transportFailure u, ?_, ?_, abort_err _ _, abort_run _ _, abort_todo _ _, abort_pins _ _,
    abort_session .transportFailure (s := s) rfl rfl⟩
  · rw [exec_panel h, perform, hrun, Res.orAbort_raised]
  · simp [hu, hfail]

/-- Settles O46: the transfers are those of the chunks, and k chunks carry the first k × P_MAX_CHUNK bytes. -/
theorem dataFrameChunks : Obligations.DataFrameChunks := by
  refine ⟨fun s src hne hx => ?_, fun c bytes hc => ⟨length_chunks _ _, fun k hk => ?_, flatten_chunks hc bytes⟩⟩
  · obtain ⟨t, ht, hsent, -, -⟩ := dataFrame_sent src (src.bytes s) (fun _ h => Source.bytes_busOnly h src)
      (Source.length_bytes src s).symm (by rwa [if_neg (mt List.length_eq_zero_iff.1 hne)])
    refine ⟨t, ht, ?_⟩
    rw [hsent.trace, dEvents, if_neg hne, xferEvents]
    simp
  · rw [List.getD_eq_getElem?_getD, getElem?_chunks hk, Option.getD_some]

/-- Settles O47: the chunks before the failed one are sent, and the failed transfer ends the frame. -/
theorem failedChunkEndsTheFrame : Obligations.FailedChunkEndsTheFrame :=
  fun _ src _ hne hk hs hf => dataFrame_fails src hk hs hf hne

end

section
/-! The end of a busy-wait (R82, R83): the bound on its poll delays, a wait that finds an idle sample among its first
K + 1, and one that does not. -/

namespace Sys2Proof.Machine

/-- `K × P_POLL_MS` passes T by less than one poll delay. -/
theorem ceilDiv_mul_lt {a b : Nat} (hb : 1 ≤ b) : ceilDiv a b * b < a + b :=
  (Nat.div_mul_le_self (a + b - 1) b).trans_lt (by omega)

/-- Before each of its K poll delays a wait's elapsed polls are short of T. -/
theorem elapsed_lt_timeout {s : State} {j : Nat} (hp : 1 ≤ s.cfg.pollMs) (hj : j ≤ s.maxPolls) :
    ∀ i, i < j → (0 + i) * s.cfg.pollMs < s.latch.timeout.toNat :=
  fun i hi => (lt_ceilDiv_iff hp).1 (by rw [Nat.zero_add]; exact hi.trans_le hj)

theorem runPrim_poll_returns {s : State} {j : Nat} (hp : 1 ≤ s.cfg.pollMs) (hj : j ≤ s.maxPolls)
    (hb : ∀ i, i < j → s.busyAt i = s.cfg.busyActive) (hi : s.busyAt j ≠ s.cfg.busyActive) :
    ∃ t, runPrim (.poll 0) s = .ok t ∧ Sent s t 0 (j + 1) (wEvents s.cfg j) ∧ t.pins = s.pins
      ∧ t.touched = s.touched :=
  waitIdle_returns _ j hj (elapsed_lt_timeout hp hj) hb hi

theorem runPrim_poll_times_out {s : State} (hp : 1 ≤ s.cfg.pollMs)
    (hb : ∀ i, i ≤ s.maxPolls → s.busyAt i = s.cfg.busyActive) :
    ∃ t, runPrim (.poll 0) s = .raised .busyTimeout t
      ∧ Sent s t 0 (s.maxPolls + 1) (timeoutEvents s.cfg s.maxPolls) ∧ t.pins = s.pins ∧ t.touched = s.touched :=
  waitIdle_times_out _ s.maxPolls le_rfl (elapsed_lt_timeout hp le_rfl)
    (by rw [Nat.zero_add]; exact ceil_ge hp) hb

/-- Samples not all busy up to the n-th have a first idle one among them. -/
theorem State.exists_first_idle {s : State} {n : Nat} (h : ¬ ∀ i, i ≤ n → s.busyAt i = s.cfg.busyActive) :
    ∃ j, j ≤ n ∧ (∀ i, i < j → s.busyAt i = s.cfg.busyActive) ∧ s.busyAt j ≠ s.cfg.busyActive := by
  push Not at h
  obtain ⟨hle, hidle⟩ := Nat.find_spec h
  refine ⟨Nat.find h, hle, fun i hi => ?_, hidle⟩
  by_contra hne
  exact Nat.find_min h hi ⟨hi.le.trans hle, hne⟩

end Sys2Proof.Machine

open Sys2Proof Sys2Proof.Machine

/-- Settles O48: the first K + 1 samples are all busy and the wait times out, or it returns at the first idle one. -/
theorem waitIdleEnds : Obligations.WaitIdleEnds := by
  intro s hp
  refine ⟨ceilDiv_mul_lt hp, ?_⟩
  by_cases hbusy : ∀ i, i ≤ s.maxPolls → s.busyAt i = s.cfg.busyActive
  · obtain ⟨t, hrun, hsent, -, -⟩ := runPrim_poll_times_out hp hbusy
    exact .inr ⟨t, hbusy, hrun, hsent.frame, hsent.trace⟩
  · obtain ⟨j, hj, hfirst, hidle⟩ := State.exists_first_idle hbusy
    obtain ⟨t, hrun, hsent, -, -⟩ := runPrim_poll_returns hp hj hfirst hidle
    exact .inl ⟨j, t, hj, hfirst, hidle, hrun, hsent.frame, hsent.trace⟩

end

section
/-! REFRESH as a whole (R126): the run of its pseudocode, what it keeps however it ends (R164), what a success and a
failure leave, and the second REFRESH behind a successful one (R128). -/

namespace Sys2Proof.Machine

/-! ### The run of a REFRESH -/

/-- The run of an accepted REFRESH's pseudocode, short of the operation's end. -/
def refreshRun (m : Mode) (s : State) : Res := runMicros (refreshProgram s m) { acceptRefresh m s with todo := [] }

theorem exec_refresh_accepted {s : State} {m : Mode} (h : refreshAccepted s m) :
    exec (.refresh m) s = .next (refreshRun m s).toEnd := by
  rw [exec_refreshOp h, complete_eq]; rfl

theorem refreshRun_seqOnly (m : Mode) (s : State) :
    seqOnly { acceptRefresh m s with todo := [] } (refreshRun m s).state := runMicros_seqOnly _ _

theorem refreshRun_new (m : Mode) (s : State) : (refreshRun m s).state.new = s.new :=
  runMicros_new (fun h => by rcases mem_refreshProgram h with h | h | h <;> cases h) _

theorem refreshRun_rst (m : Mode) (s : State) : (refreshRun m s).state.pins.rst = s.pins.rst :=
  runMicros_rst (fun v h => by rcases mem_refreshProgram h with h | h | h <;> cases h) _

theorem refreshRun_touched (m : Mode) (s : State) : (refreshRun m s).state.touched = true :=
  refreshProgram_touches _ _ _

/-- With every transfer successful and every wait idle at once the run returns, its events in the trace (R126). -/
theorem refreshRun_sends {m : Mode} {s : State} (hc : s.cfg.wf = true) (hx : s.xfersOk (countXfers (refreshEvents s m)))
    (hi : s.idleNext (countSamples (refreshEvents s m))) :
    ∃ u, refreshRun m s = .ok u ∧ u.trace = s.trace ++ refreshEvents s m := by
  have hsends := Sends.refreshProgram (s := { acceptRefresh m s with todo := [] }) (s0 := s) hc rfl rfl rfl rfl
  rw [List.append_nil] at hsends
  obtain ⟨u, hu, hran⟩ := hsends hx hi
  exact ⟨u, hu, hran.trace⟩

/-! ### The end of a REFRESH -/

/-- What holds from s to t when a REFRESH has run from s and ended in t, with success or failure (R126, R164). -/
structure RefreshEnded (s t : State) : Prop where
  new : t.new = s.new
  state : t.state = .idle
  run : t.run = false
  touched : t.touched = true
  fmt : t.fmt = s.fmt
  sessMode : t.sessMode = s.sessMode
  rst : t.pins.rst = s.pins.rst
  host : hostSideSame s t

theorem RefreshEnded.cfg {s t : State} (h : RefreshEnded s t) : t.cfg = s.cfg := h.host.1

theorem refreshRun_ended (m : Mode) (s : State) : RefreshEnded s (refreshRun m s).toEnd := by
  have hseq := refreshRun_seqOnly m s
  obtain ⟨st, e, d, l, hend, hidle, -⟩ := toEnd_frame (refreshRun m s)
  rw [hseq.latch] at hidle
  rw [hend]
  exact ⟨refreshRun_new m s, beq_iff_eq.1 hidle, rfl, refreshRun_touched m s, hseq.fmt, hseq.sessMode,
    refreshRun_rst m s, hseq.hostSide⟩

/-- What holds besides when that REFRESH, in mode m, has succeeded (R94, R126, R127). -/
structure RefreshSucceeded (m : Mode) (s t : State) : Prop where
  err : t.err = .ok
  degraded : t.degraded = s.degraded
  oldByte : ∀ a, a < s.cfg.slotCap → t.oldByte a = s.newByte a
  lutValid : t.lutValid = (s.cfg.hasProfile m || s.lutValid)
  lutMode : t.lutMode = if s.cfg.hasProfile m then m else s.lutMode

theorem refreshRun_ok {m : Mode} {s u : State} (hu : refreshRun m s = .ok u) : RefreshSucceeded m s (finish u) := by
  have hseq := refreshRun_seqOnly m s
  rw [hu] at hseq
  obtain ⟨-, hold, hvalid, hmode⟩ := refreshProgram_done (s := { acceptRefresh m s with todo := [] }) rfl rfl rfl hu
  rw [finish_frames (.inr (hseq.latch ▸ rfl))]
  exact ⟨rfl, hseq.degraded, hold, hvalid, hmode⟩

/-- A REFRESH that raises has sent its first command byte, so its abort sets DEGRADED; `CopyForward` was not reached
(R126, R164). -/
theorem refreshRun_raised {m : Mode} {s u : State} {c : ErrCode} (hu : refreshRun m s = .raised c u) :
    (c = .busyTimeout ∨ c = .transportFailure) ∧ (abort c u).degraded = true ∧ (abort c u).old = s.old := by
  have hseq := refreshRun_seqOnly m s
  have htouched := refreshRun_touched m s
  rw [hu, Res.state_raised] at hseq htouched
  refine ⟨runMicros_code hu, ?_, (abort_old c u).trans (refreshProgram_raised hu).2⟩
  rw [abort_frames (.inr (.inl (hseq.latch ▸ rfl))), htouched, Bool.or_true]

/-- A REFRESH that reports no error has returned. -/
theorem refresh_succeeded {m : Mode} {s t : State} (h : refreshAccepted s m) (ht : exec (.refresh m) s = .next t)
    (herr : t.err = .ok) : RefreshEnded s t ∧ RefreshSucceeded m s t := by
  rw [exec_refresh_accepted h] at ht
  cases ht
  refine ⟨refreshRun_ended m s, ?_⟩
  cases hr : refreshRun m s with
  | ok u => exact refreshRun_ok hr
  | raised c u =>
    rw [hr, Res.toEnd_raised, abort_err] at herr
    rcases (refreshRun_raised hr).1 with rfl | rfl <;> cases herr

/-! ### The LUT tracker at the end of a REFRESH -/

/-- Where `EnsureLut` raises, REFRESH ends with its error (R93, R164). -/
theorem refreshRun_toEnd_of_ensureLut_raised {m : Mode} {s t : State} {c : ErrCode}
    (h : runMicros (ensureLut s m) { acceptRefresh m s with todo := [] } = .raised c t) :
    (refreshRun m s).toEnd = abort c t := by
  unfold refreshRun refreshProgram
  rw [List.append_assoc, List.append_assoc, runMicros_append, h]; rfl

/-- Where `EnsureLut` returns, the tracker stays as it left it, with success or failure (R92, R94). -/
theorem refreshRun_tracker {m : Mode} {s t : State}
    (h : runMicros (ensureLut s m) { acceptRefresh m s with todo := [] } = .ok t) :
    (refreshRun m s).toEnd.lutValid = (s.cfg.hasProfile m || s.lutValid)
      ∧ (refreshRun m s).toEnd.lutMode = if s.cfg.hasProfile m then m else s.lutMode := by
  cases hr : refreshRun m s with
  | ok u => exact ⟨(refreshRun_ok hr).lutValid, (refreshRun_ok hr).lutMode⟩
  | raised c u =>
    rw [Res.toEnd_raised, abort_lutValid, abort_lutMode]
    rcases refreshProgram_tracker (s := { acceptRefresh m s with todo := [] }) (s0 := s) rfl rfl rfl hr with
      ⟨t', hraised, -⟩ | ⟨-, -, htracker⟩
    · rw [h] at hraised; cases hraised
    · exact htracker

/-! ### A second REFRESH (R128) -/

/-- No LUT is sent in a mode whose profile, if there is one, is installed (R94). -/
theorem ensureEvents_of_installed {s : State} {m : Mode}
    (h : s.cfg.hasProfile m = true → s.lutValid = true ∧ s.lutMode = m) : ensureEvents s m = [] :=
  if_neg fun hneeded => hneeded.2 (h hneeded.1)

/-- A 1-bit frame fits in a slot (R12). -/
theorem frame1_le_slotCap (c : Config) : c.frame1 ≤ c.slotCap :=
  Nat.mul_le_mul_right c.height (by unfold Config.bpr1 Config.bpr2 ceilDiv; omega)

theorem readOld_eq_readNew {s : State} {n : Nat} (h : ∀ a, a < n → s.oldByte a = s.newByte a) :
    s.readOld 0 n = s.readNew 0 n :=
  List.map_congr_left fun i hi => by rw [Nat.zero_add]; exact h i (List.mem_range.1 hi)

section
variable {m : Mode} {s t : State} (he : RefreshEnded s t) (hs : RefreshSucceeded m s t)
include he hs

/-- A successful REFRESH leaves a state in which the same REFRESH is accepted. -/
theorem RefreshSucceeded.accepted_again (h : refreshAccepted s m) : refreshAccepted t m := by
  obtain ⟨-, -, hdegraded, hmode, hfmt⟩ := h
  refine ⟨he.run, he.state, hs.degraded.trans hdegraded, ?_, hfmt.trans he.fmt.symm⟩
  rw [he.cfg]; exact hmode

/-- After a successful REFRESH the slots OLD and NEW are equal (R127). -/
theorem RefreshSucceeded.oldByte_eq_newByte {a : Nat} (ha : a < t.cfg.slotCap) : t.oldByte a = t.newByte a := by
  rw [he.cfg] at ha
  rw [hs.oldByte a ha, State.newByte, State.newByte, he.new]

/-- The same REFRESH again sends the old image and the trigger only (R128). -/
theorem RefreshSucceeded.refreshEvents_again : refreshEvents t m = oldEvents t m ++ triggerEvents t.cfg m := by
  have hinstalled : t.cfg.hasProfile m = true → t.lutValid = true ∧ t.lutMode = m := by
    rw [he.cfg, hs.lutValid, hs.lutMode]
    intro hp; simp [hp]
  rw [refreshEvents, ensureEvents_of_installed hinstalled, List.nil_append]

end

end Sys2Proof.Machine

open Sys2Proof Sys2Proof.Machine

/-- Settles O29: the pseudocode sends its events and returns, and its end step leaves what a success leaves. -/
theorem refreshCompletes : Obligations.RefreshCompletes := by
  intro s m hc h hx hi
  obtain ⟨u, hu, htrace⟩ := refreshRun_sends hc hx hi
  have hexec := exec_refresh_accepted h
  have hended := refreshRun_ended m s
  have hok := refreshRun_ok hu
  rw [hu, Res.toEnd_ok] at hexec hended
  obtain ⟨-, -, hdegraded, -, -⟩ := h
  exact ⟨finish u, hexec, (finish_trace u).trans htrace, hok.oldByte, hended.new, hended.state, hended.run, hok.err,
    hok.degraded.trans hdegraded, hended.touched, hok.lutValid, hok.lutMode, hended.fmt, hended.sessMode, hended.rst,
    hended.host⟩

/-- Settles O30: the pseudocode returns or raises, and its `EnsureLut` alone writes the tracker. -/
theorem refreshOutcomes : Obligations.RefreshOutcomes := by
  intro s m _ h
  have hended := refreshRun_ended m s
  refine ⟨(refreshRun m s).toEnd, exec_refresh_accepted h, hended.new, hended.state, hended.run, hended.fmt,
    hended.sessMode, hended.host, ?_, ?_⟩
  · obtain ⟨-, -, hdegraded, -, -⟩ := h
    cases hr : refreshRun m s with
    | ok u =>
      have hok := refreshRun_ok hr
      exact .inl ⟨hok.err, hok.degraded.trans hdegraded, hok.oldByte⟩
    | raised c u =>
      obtain ⟨hcode, hset, hold⟩ := refreshRun_raised hr
      exact .inr ⟨by rw [Res.toEnd_raised, abort_err]; exact hcode, hset, hold⟩
  · rw [issue_refresh_accepted h, ← runMicros_expand]
    cases hr : runMicros (ensureLut s m) { acceptRefresh m s with todo := [] } with
    | ok t => exact refreshRun_tracker hr
    | raised c t =>
      obtain ⟨hvalid, hmode⟩ := ensureLut_raised hr
      rw [refreshRun_toEnd_of_ensureLut_raised hr]
      exact ⟨abort_err c t, (abort_lutValid c t).trans hvalid, (abort_lutMode c t).trans hmode⟩

/-- Settles O31: the first REFRESH leaves the profile installed and OLD equal to NEW, and the second one completes. -/
theorem secondRefreshIsAllZeroDelta : Obligations.SecondRefreshIsAllZeroDelta := by
  intro s t m hc h ht herr hx hi
  obtain ⟨hended, hok⟩ := refresh_succeeded h ht herr
  have hwf : t.cfg.wf = true := by rw [hended.cfg]; exact hc
  obtain ⟨u, hu, htrace, hold, -⟩ := refreshCompletes t m hwf (hok.accepted_again hended h) hx hi
  rw [hok.refreshEvents_again hended] at htrace
  have heq : ∀ a, a < t.cfg.slotCap → t.oldByte a = t.newByte a := fun _ => hok.oldByte_eq_newByte hended
  refine ⟨u, hu, htrace, readOld_eq_readNew fun a ha => heq a (ha.trans_le (frame1_le_slotCap t.cfg)),
    fun a ha => ⟨(hold a ha).trans (heq a ha).symm, ?_⟩⟩
  rw [heq a ha]; exact BitVec.xor_self

end

section
/-! INIT, WAKE and SLEEP as whole operations (R102, R106, R130): the run of their pseudocode, what it keeps however it
ends, and what a success and a failure leave. -/

namespace Sys2Proof.Machine

/-! ### The run of an INIT or a WAKE -/

/-- The run of the pseudocode of an INIT or a WAKE accepted in mode m, short of the operation's end. -/
def initRun (op : OpCode) (m : Mode) (s : State) : Res :=
  runMicros (initProgram s.cfg m) { acceptInit op m s with todo := [] }

theorem complete_acceptInit (op : OpCode) (m : Mode) (s : State) :
    complete (acceptInit op m s) = (initRun op m s).toEnd := complete_eq _

theorem exec_init_accepted {s : State} {m : Mode} (hr : s.run = false) (h : ¬ (s.cfg.variant = .nf ∧ m = .gray)) :
    exec (.init m) s = .next (initRun .init m s).toEnd := by
  rw [exec_hostOp (.inr (.inl ⟨m, rfl⟩)), issue_init_accepted hr h, carryOut_accepted hr rfl, complete_acceptInit]

theorem exec_wake_accepted {s : State} (hr : s.run = false) (h : ¬ (s.cfg.variant = .nf ∧ s.sessMode = .gray)) :
    exec .wake s = .next (initRun .wake s.sessMode s).toEnd := by
  rw [exec_hostOp (by simp [isHostOp]), issue_wake_accepted hr h, carryOut_accepted hr rfl, complete_acceptInit]

/-- An accepted INIT or WAKE runs its pseudocode and ends. -/
theorem exec_initOp_accepted {i : Instr} {s : State} {m : Mode} (hi : i = .init m ∨ (i = .wake ∧ m = s.sessMode))
    (hr : s.run = false) (h : ¬ (s.cfg.variant = .nf ∧ m = .gray)) :
    ∃ op, (op = .init ∨ op = .wake) ∧ exec i s = .next (initRun op m s).toEnd := by
  obtain ⟨op, hop, hexec⟩ := exec_initOp hi hr h
  exact ⟨op, hop, by rw [hexec, complete_acceptInit]⟩

theorem initRun_seqOnly (op : OpCode) (m : Mode) (s : State) :
    seqOnly { acceptInit op m s with todo := [] } (initRun op m s).state := runMicros_seqOnly _ _

/-- What holds from s to t when the pseudocode of an INIT or a WAKE in mode m has run from s and the operation has ended
in t, with success or failure (R96, R102, R104). -/
structure InitEnded (m : Mode) (s t : State) : Prop where
  run : t.run = false
  sessMode : t.sessMode = m
  fmt : t.fmt = m.fmt
  rst : t.pins.rst = true
  new : t.new = s.new
  old : t.old = s.old
  host : hostSideSame s t

theorem initRun_ended (op : OpCode) (m : Mode) (s : State) : InitEnded m s (initRun op m s).toEnd := by
  have hseq := initRun_seqOnly op m s
  obtain ⟨st, e, d, l, hend, -⟩ := toEnd_frame (initRun op m s)
  rw [hend]
  exact ⟨rfl, hseq.sessMode, hseq.fmt, initProgram_rst _ _ _, initProgram_new _ _ _, initProgram_old _ _ _,
    hseq.hostSide⟩

/-- What holds besides when that INIT or WAKE has succeeded (R92, R102). -/
structure InitSucceeded (m : Mode) (s t : State) : Prop where
  err : t.err = .ok
  state : t.state = .idle
  degraded : t.degraded = false
  lutValid : t.lutValid = s.cfg.hasProfile m
  lutMode : t.lutMode = if s.cfg.hasProfile m then m else s.lutMode

theorem initRun_ok {op : OpCode} (hop : op = .init ∨ op = .wake) {m : Mode} {s u : State} (hc : s.cfg.wf = true)
    (hu : initRun op m s = .ok u) : InitSucceeded m s (finish u) := by
  have hseq := initRun_seqOnly op m s
  rw [hu, Res.state_ok] at hseq
  obtain ⟨hvalid, hmode⟩ := initProgram_tracker hc hu
  rw [finish_init (by rw [hseq.latch]; exact hop)]
  exact ⟨rfl, rfl, rfl, hvalid.trans (Bool.or_false _), hmode⟩

/-- What holds besides when it has failed (R104, R164). -/
structure InitFailed (s t : State) : Prop where
  err : t.err = .busyTimeout ∨ t.err = .transportFailure
  state : t.state = .uninit
  degraded : t.degraded = s.degraded
  lutValid : t.lutValid = false

theorem initRun_raised {op : OpCode} (hop : op = .init ∨ op = .wake) {m : Mode} {s u : State} {c : ErrCode}
    (hc : s.cfg.wf = true) (hu : initRun op m s = .raised c u) : InitFailed s (abort c u) := by
  have hseq := initRun_seqOnly op m s
  rw [hu, Res.state_raised] at hseq
  have hvalid : u.lutValid = false := initProgram_raised hc rfl hu
  rw [abort_init (by rw [hseq.latch]; exact hop)]
  exact ⟨runMicros_code hu, rfl, hseq.degraded, hvalid⟩

/-- An INIT or a WAKE that reports no error has returned. -/
theorem initRun_succeeded {op : OpCode} (hop : op = .init ∨ op = .wake) {m : Mode} {s : State} (hc : s.cfg.wf = true)
    (herr : (initRun op m s).toEnd.err = .ok) : InitSucceeded m s (initRun op m s).toEnd := by
  cases hu : initRun op m s with
  | ok u => exact initRun_ok hop hc hu
  | raised c u =>
    rw [hu] at herr
    rcases (initRun_raised hop hc hu).err with h | h <;> cases herr.symm.trans h

/-- With every transfer successful and every wait idle at once the run returns, the pulse and the table in its trace
(R102). -/
theorem initRun_sends {op : OpCode} (hop : op = .init ∨ op = .wake) {m : Mode} {s : State} (hc : s.cfg.wf = true)
    (hx : s.xfersOk (countXfers (tableEvents s.cfg m s.cfg.initSeq)))
    (hi : s.idleNext (countSamples (tableEvents s.cfg m s.cfg.initSeq))) :
    ∃ u, initRun op m s = .ok u ∧ u.trace = s.trace ++ (pulseEvents s.cfg ++ tableEvents s.cfg m s.cfg.initSeq) := by
  rw [← countXfers_pulse] at hx
  rw [← countSamples_pulse] at hi
  obtain ⟨u, hu, hran⟩ := Sends.initProgram m hop hc hx hi
  exact ⟨u, hu, hran.trace⟩

/-! ### The run of a SLEEP -/

/-- The run of an accepted SLEEP's pseudocode, short of the operation's end. -/
def sleepRun (s : State) : Res :=
  runMicros (runSeq s.cfg .gray s.cfg.sleepSeq) { acceptSleep s with todo := [] }

theorem exec_sleep_accepted {s : State} (hr : s.run = false) (h : s.state = .idle) :
    exec .sleep s = .next (sleepRun s).toEnd := by
  rw [exec_hostOp (by simp [isHostOp]), issue_sleep_accepted hr h, carryOut_accepted hr rfl, complete_eq]; rfl

theorem sleepRun_seqOnly (s : State) : seqOnly { acceptSleep s with todo := [] } (sleepRun s).state :=
  runMicros_seqOnly _ _

/-- The only primitives of a sleep table's play are its waits (R131). -/
theorem mem_runSeq_sleep {c : Config} (hc : c.wf = true) {m : Mode} {p : Prim}
    (h : .prim p ∈ runSeq c m c.sleepSeq) : p = .poll 0 :=
  (mem_runSeq h).resolve_right fun hlut => sleepSeq_lut hc hlut.1

/-- What holds from s to t when a SLEEP has run from s and ended in t, with success or failure (R130, R164). -/
structure SleepEnded (s t : State) : Prop where
  run : t.run = false
  new : t.new = s.new
  old : t.old = s.old
  fmt : t.fmt = s.fmt
  sessMode : t.sessMode = s.sessMode
  lutMode : t.lutMode = s.lutMode
  rst : t.pins.rst = s.pins.rst
  host : hostSideSame s t

theorem sleepRun_ended {s : State} (hc : s.cfg.wf = true) : SleepEnded s (sleepRun s).toEnd := by
  have hseq := sleepRun_seqOnly s
  have hlut := noLut_runSeq (c := s.cfg) (m := .gray) (sleepSeq_lut hc)
  obtain ⟨st, e, d, l, hend, -⟩ := toEnd_frame (sleepRun s)
  rw [hend]
  exact ⟨rfl, runMicros_new (fun h => by cases mem_runSeq_sleep hc h) _,
    runMicros_old (fun h => by cases mem_runSeq_sleep hc h) _, hseq.fmt, hseq.sessMode,
    (runMicros_lut hlut.1 hlut.2 _).2, runMicros_rst (noRst_runSeq _ _ _) _, hseq.hostSide⟩

/-- With every transfer successful and every wait idle at once the run returns, the table in its trace (R130). -/
theorem sleepRun_sends {s : State} (hc : s.cfg.wf = true)
    (hx : s.xfersOk (countXfers (tableEvents s.cfg .gray s.cfg.sleepSeq)))
    (hi : s.idleNext (countSamples (tableEvents s.cfg .gray s.cfg.sleepSeq))) :
    ∃ u, sleepRun s = .ok u ∧ u.trace = s.trace ++ tableEvents s.cfg .gray s.cfg.sleepSeq := by
  have hsends := Sends.runSeq (s := { acceptSleep s with todo := [] }) hc (by simp [acceptSleep]) s.cfg.sleepSeq
    (sleepSeq_windowFull hc)
  obtain ⟨u, hu, hran⟩ := hsends hx hi
  exact ⟨u, hu, hran.trace⟩

end Sys2Proof.Machine

open Sys2Proof Sys2Proof.Machine

/-- Settles O19: the pseudocode sends its events and returns, and its end step leaves what a success leaves. -/
theorem initAndWakeComplete : Obligations.InitAndWakeComplete := by
  intro i s m hi hc hr hmode hx hidle
  obtain ⟨op, hop, hexec⟩ := exec_initOp_accepted hi hr hmode
  obtain ⟨u, hu, htrace⟩ := initRun_sends hop hc hx hidle
  have hended := initRun_ended op m s
  have hok := initRun_ok hop hc hu
  rw [hu, Res.toEnd_ok] at hexec hended
  rw [← List.append_assoc] at htrace
  exact ⟨finish u, hexec, (finish_trace u).trans htrace, hok.state, hended.run, hok.err, hok.degraded, hended.sessMode,
    hended.fmt, hok.lutValid, hok.lutMode, hended.rst, hended.new, hended.old, hended.host⟩

/-- Settles O20: the pseudocode returns, or raises with the tracker still cleared. -/
theorem initAndWakeOutcomes : Obligations.InitAndWakeOutcomes := by
  intro i s m hi hc hr hmode
  obtain ⟨op, hop, hexec⟩ := exec_initOp_accepted hi hr hmode
  have hended := initRun_ended op m s
  refine ⟨(initRun op m s).toEnd, hexec, hended.run, hended.sessMode, hended.fmt, hended.new, hended.old,
    hended.host, ?_⟩
  cases hu : initRun op m s with
  | ok u =>
    have hok := initRun_ok hop hc hu
    exact .inl ⟨hok.err, hok.state, hok.degraded⟩
  | raised c u =>
    have hfailed := initRun_raised hop hc hu
    exact .inr ⟨hfailed.err, hfailed.state, hfailed.degraded, hfailed.lutValid⟩

/-- Settles O33: the table goes out, and the end step of SLEEP clears the tracker. -/
theorem sleepCompletes : Obligations.SleepCompletes := by
  intro s hc hr hstate hx hi
  obtain ⟨u, hu, htrace⟩ := sleepRun_sends hc hx hi
  have hexec := exec_sleep_accepted hr hstate
  have hended := sleepRun_ended hc
  have hseq := sleepRun_seqOnly s
  rw [hu, Res.toEnd_ok] at hexec hended
  rw [hu, Res.state_ok] at hseq
  have hfin := finish_sleep (u := u) (by rw [hseq.latch]; rfl)
  refine ⟨finish u, hexec, (finish_trace u).trans htrace, ?_, hended.run, finish_err u, ?_, hended.lutMode, ?_,
    hended.new, hended.old, hended.fmt, hended.sessMode, hended.rst, hended.host⟩ <;> rw [hfin]
  exact hseq.degraded

end

section
/-! Two runs of INIT's pseudocode side by side (R105, R106): what a relation between states needs for the literal
primitives to keep it, and two such relations: being the same but for the operation code, and being alike in all that
INIT reads and sets. -/

namespace Sys2Proof.Machine

/-! ### Relations that literal primitives keep -/

/-- A relation between states that agree on what the bus procedures read, kept by each update of a primitive that reads
no memory. -/
structure KeptByLit (R : State → State → Prop) : Prop where
  cfg : ∀ {s s'}, R s s' → s'.cfg = s.cfg
  timeout : ∀ {s s'}, R s s' → s'.latch.timeout = s.latch.timeout
  busyIn : ∀ {s s'}, R s s' → s'.busyIn = s.busyIn
  xferIn : ∀ {s s'}, R s s' → s'.xferIn = s.xferIn
  setRst : ∀ v {s s'}, R s s' → R (setRst v s) (setRst v s')
  setDc : ∀ v {s s'}, R s s' → R (setDc v s) (setDc v s')
  setCs : ∀ v {s s'}, R s s' → R (setCs v s) (setCs v s')
  delay : ∀ ms {s s'}, R s s' → R (delay ms s) (delay ms s')
  sampleBusy : ∀ {s s'}, R s s' → R (sampleBusy s) (sampleBusy s')
  spiXfer : ∀ bytes {s s'}, R s s' → R (spiXfer bytes s) (spiXfer bytes s')
  clearTracker : ∀ {s s'}, R s s' → R (clearTracker s) (clearTracker s')
  setTracker : ∀ m {s s'}, R s s' → R (setTracker m s) (setTracker m s')

theorem State.busyLevel_congr {s s' : State} (h : s'.busyIn = s.busyIn) : s'.busyLevel = s.busyLevel := by
  rw [State.busyLevel, h, State.busyLevel]

theorem State.xferOk_congr {s s' : State} (hc : s'.cfg = s.cfg) (hx : s'.xferIn = s.xferIn) : s'.xferOk = s.xferOk := by
  rw [State.xferOk, hc, hx, State.xferOk]

section
variable {R : State → State → Prop} (hR : KeptByLit R)
include hR

/-- Two busy-waits that draw the same levels end alike (R82). -/
theorem KeptByLit.waitIdle (T fuel k : Nat) {s s' : State} (h : R s s') :
    RelRes R (waitIdle T fuel k s) (waitIdle T fuel k s') := by
  have hsample := hR.sampleBusy h
  induction fuel generalizing k s s' with
  | zero =>
    rw [waitIdle.eq_def, waitIdle.eq_def]
    dsimp only
    rw [State.busyLevel_congr (hR.busyIn h), hR.cfg h]
    split
    · exact hR.delay _ hsample
    · split <;> exact ⟨rfl, hsample⟩
  | succ fuel ih =>
    rw [waitIdle.eq_def, waitIdle.eq_def]
    dsimp only
    rw [State.busyLevel_congr (hR.busyIn h), hR.cfg h]
    split
    · exact hR.delay _ hsample
    · split
      · exact ⟨rfl, hsample⟩
      · have hnext := hR.delay s.cfg.pollMs hsample
        exact ih (k + 1) hnext (hR.sampleBusy hnext)

theorem KeptByLit.runPrim {p : Prim} (hp : p.isLit) {s s' : State} (h : R s s') :
    RelRes R (runPrim p s) (runPrim p s') := by
  cases p with
  | setRst v => exact hR.setRst v h
  | setDc v => exact hR.setDc v h
  | csAssert => exact hR.setCs true h
  | csDeassert => exact hR.setCs false h
  | xfer src lo hi =>
    obtain ⟨bytes, rfl⟩ := hp
    have hxfer := hR.spiXfer ((bytes.drop lo).take (hi - lo)) h
    unfold Machine.runPrim
    rw [State.xferOk_congr (hR.cfg h) (hR.xferIn h)]
    dsimp only
    split
    · exact hxfer
    · exact ⟨rfl, hR.setCs false hxfer⟩
  | delay ms => exact hR.delay ms h
  | poll k =>
    unfold Machine.runPrim State.maxPolls
    rw [hR.timeout h, hR.cfg h]
    exact hR.waitIdle _ _ _ h
  | lutClear => exact hR.clearTracker h
  | lutSet m => exact hR.setTracker m h
  | merge => exact hp.elim
  | copyForward => exact hp.elim
  | raiseTransport => exact hp.elim

end

/-! ### WAKE beside INIT (R106) -/

/-- The state with WAKE as its latched operation. -/
def asWake (s : State) : State := { s with latch := { s.latch with op := .wake } }

/-- s runs an INIT in mode m of the parameters c, and s' is s with WAKE latched. -/
def WakeBeside (c : Config) (m : Mode) (s s' : State) : Prop :=
  s.cfg = c ∧ s.latch.op = .init ∧ s.latch.mode = m ∧ s' = asWake s

theorem wakeBeside_keptByLit (c : Config) (m : Mode) : KeptByLit (WakeBeside c m) where
  cfg := by rintro s _ ⟨-, -, -, rfl⟩; rfl
  timeout := by rintro s _ ⟨-, -, -, rfl⟩; rfl
  busyIn := by rintro s _ ⟨-, -, -, rfl⟩; rfl
  xferIn := by rintro s _ ⟨-, -, -, rfl⟩; rfl
  setRst := by rintro v s _ ⟨hc, ho, hm, rfl⟩; exact ⟨hc, ho, hm, rfl⟩
  setDc := by rintro v s _ ⟨hc, ho, hm, rfl⟩; exact ⟨hc, ho, hm, rfl⟩
  setCs := by rintro v s _ ⟨hc, ho, hm, rfl⟩; exact ⟨hc, ho, hm, rfl⟩
  delay := by rintro ms s _ ⟨hc, ho, hm, rfl⟩; exact ⟨hc, ho, hm, rfl⟩
  sampleBusy := by rintro s _ ⟨hc, ho, hm, rfl⟩; exact ⟨hc, ho, hm, rfl⟩
  spiXfer := by rintro bytes s _ ⟨hc, ho, hm, rfl⟩; exact ⟨hc, ho, hm, rfl⟩
  clearTracker := by rintro s _ ⟨hc, ho, hm, rfl⟩; exact ⟨hc, ho, hm, rfl⟩
  setTracker := by rintro m' s _ ⟨hc, ho, hm, rfl⟩; exact ⟨hc, ho, hm, rfl⟩

theorem initRun_wakeBeside {m : Mode} {s : State} (hc : s.cfg.wf = true) :
    RelRes (WakeBeside s.cfg m) (initRun .init m s) (initRun .wake m s) := by
  refine initProgram_sim hc m ?_ (fun p hp _ _ => (wakeBeside_keptByLit s.cfg m).runPrim hp) ⟨rfl, rfl, rfl, rfl⟩
  rintro t _ ⟨ht, hop, hm, rfl⟩
  exact ⟨ht, ht, by rw [hop]; decide, by simp [asWake], hm, hm⟩

theorem RelRes.toEnd_asWake {c : Config} {m : Mode} {r r' : Res} (h : RelRes (WakeBeside c m) r r') :
    r'.toEnd = asWake r.toEnd := by
  cases r with
  | ok u =>
    cases r' with
    | raised e' u' => exact h.elim
    | ok u' =>
      obtain ⟨-, hop, -, rfl⟩ := h
      rw [Res.toEnd_ok, Res.toEnd_ok, finish_init (.inl hop), finish_init (.inr rfl)]; rfl
  | raised e u =>
    cases r' with
    | ok u' => exact h.elim
    | raised e' u' =>
      obtain ⟨rfl, -, hop, -, rfl⟩ := h
      rw [Res.toEnd_raised, Res.toEnd_raised, abort_init (.inl hop), abort_init (.inr rfl)]; rfl

/-! ### INIT beside INIT (R105) -/

/-- s and s' run an INIT in mode m of the parameters c, and agree on the timeout, the draws to come, the events since
the traces b and b', and all that INIT has set so far. -/
structure InitBeside (c : Config) (m : Mode) (b b' : List Event) (s s' : State) : Prop where
  cfg : s.cfg = c
  cfg' : s'.cfg = c
  op : s.latch.op = .init
  op' : s'.latch.op = .init
  mode : s.latch.mode = m
  mode' : s'.latch.mode = m
  timeout : s'.latch.timeout = s.latch.timeout
  xferIn : s'.xferIn = s.xferIn
  busyIn : s'.busyIn = s.busyIn
  trace : ∃ evs, s.trace = b ++ evs ∧ s'.trace = b' ++ evs
  touched : s'.touched = s.touched
  seqpc : s'.seqpc = s.seqpc
  lutValid : s'.lutValid = s.lutValid
  lutMode : s.lutValid = true → s'.lutMode = s.lutMode

/-- Two traces that gain the same events still differ in their beginnings only. -/
theorem trace_append_alike {b b' tr tr' : List Event} (h : ∃ evs, tr = b ++ evs ∧ tr' = b' ++ evs) (es : List Event) :
    ∃ evs, tr ++ es = b ++ evs ∧ tr' ++ es = b' ++ evs := by
  obtain ⟨evs, rfl, rfl⟩ := h
  exact ⟨evs ++ es, List.append_assoc .., List.append_assoc ..⟩

theorem initBeside_keptByLit (c : Config) (m : Mode) (b b' : List Event) : KeptByLit (InitBeside c m b b') where
  cfg h := h.cfg'.trans h.cfg.symm
  timeout h := h.timeout
  busyIn h := h.busyIn
  xferIn h := h.xferIn
  setRst v s s' h := { h with trace := trace_append_alike h.trace _, seqpc := congrArg (· + 1) h.seqpc }
  setDc v s s' h := { h with trace := trace_append_alike h.trace _, seqpc := congrArg (· + 1) h.seqpc }
  setCs v s s' h := { h with trace := trace_append_alike h.trace _, seqpc := congrArg (· + 1) h.seqpc }
  delay ms s s' h := { h with trace := trace_append_alike h.trace _, seqpc := congrArg (· + 1) h.seqpc }
  sampleBusy h := by
    refine { h with busyIn := congrArg DrawStream.rest h.busyIn, trace := ?_, seqpc := congrArg (· + 1) h.seqpc }
    rw [sampleBusy_trace, sampleBusy_trace, State.busyLevel_congr h.busyIn]
    exact trace_append_alike h.trace _
  spiXfer bytes s s' h := by
    have hcfg : s'.cfg = s.cfg := h.cfg'.trans h.cfg.symm
    refine { h with xferIn := ?_, trace := ?_, touched := rfl, seqpc := congrArg (· + 1) h.seqpc }
    · rw [spiXfer_xferIn, spiXfer_xferIn, hcfg, h.xferIn]
    · rw [spiXfer_trace, spiXfer_trace, State.xferOk_congr hcfg h.xferIn]
      exact trace_append_alike h.trace _
  clearTracker h := { h with lutValid := rfl, lutMode := fun hv => by cases hv }
  setTracker m' s s' h := { h with lutValid := rfl, lutMode := fun _ => rfl }

theorem initRun_initBeside {m : Mode} {s s' : State} (hc : s.cfg.wf = true) (hcfg : s'.cfg = s.cfg)
    (ht : s'.regs.timeout = s.regs.timeout) (hx : s'.xferIn = s.xferIn) (hb : s'.busyIn = s.busyIn) :
    RelRes (InitBeside s.cfg m s.trace s'.trace) (initRun .init m s) (initRun .init m s') := by
  unfold initRun
  rw [hcfg]
  refine initProgram_sim hc m (fun t t' h => ?_) (fun p hp _ _ => (initBeside_keptByLit _ m _ _).runPrim hp) ?_
  · exact ⟨h.cfg, h.cfg', by rw [h.op]; decide, by rw [h.op']; decide, h.mode, h.mode'⟩
  · exact ⟨rfl, hcfg, rfl, rfl, rfl, rfl, ht, hx, hb, ⟨[], by simp [acceptInit], by simp [acceptInit]⟩, rfl, rfl, rfl,
      fun hv => by cases hv⟩

/-- Two INITs that ran side by side end with the same state and error, and agree as before. -/
theorem RelRes.toEnd_initBeside {c : Config} {m : Mode} {b b' : List Event} {r r' : Res}
    (h : RelRes (InitBeside c m b b') r r') :
    InitBeside c m b b' r.toEnd r'.toEnd ∧ r'.toEnd.state = r.toEnd.state ∧ r'.toEnd.err = r.toEnd.err := by
  cases r with
  | ok u =>
    cases r' with
    | raised e' u' => exact h.elim
    | ok u' =>
      rw [Res.toEnd_ok, Res.toEnd_ok, finish_init (.inl h.op), finish_init (.inl h.op')]
      exact ⟨{ h with }, rfl, rfl⟩
  | raised e u =>
    cases r' with
    | ok u' => exact h.elim
    | raised e' u' =>
      obtain ⟨rfl, h⟩ := h
      rw [Res.toEnd_raised, Res.toEnd_raised, abort_init (.inl h.op), abort_init (.inl h.op')]
      exact ⟨{ h with }, rfl, rfl⟩

end Sys2Proof.Machine

open Sys2Proof Sys2Proof.Machine

/-- Settles O21: the two runs differ in the latched operation code, and neither end tells them apart. -/
theorem wakeIsInit : Obligations.WakeIsInit := by
  intro s hc hr hmode
  refine ⟨_, exec_init_accepted hr hmode, ?_⟩
  rw [exec_wake_accepted hr hmode, (initRun_wakeBeside hc).toEnd_asWake]; rfl

/-- Settles O22: the two runs agree at each primitive on what INIT reads and sets; RST ends high and DEGRADED cleared
whatever they were. -/
theorem initIsIdempotent : Obligations.InitIsIdempotent := by
  intro s s' m hc hcfg hr hr' hmode ht hx hb
  obtain ⟨hbeside, hstate, herr⟩ := (initRun_initBeside (m := m) hc hcfg ht hx hb).toEnd_initBeside
  have hended := initRun_ended .init m s
  have hended' := initRun_ended .init m s'
  have hc' : s'.cfg.wf = true := by rw [hcfg]; exact hc
  obtain ⟨evs, htrace, htrace'⟩ := hbeside.trace
  refine ⟨_, _, evs, exec_init_accepted hr hmode, exec_init_accepted hr' (by rw [hcfg]; exact hmode), htrace, htrace',
    hstate, herr, hended'.fmt.trans hended.fmt.symm, hended'.sessMode.trans hended.sessMode.symm, hbeside.lutValid,
    hbeside.lutMode, hended'.rst.trans hended.rst.symm, hbeside.touched, hbeside.seqpc, fun hok => ?_⟩
  rw [(initRun_succeeded (.inl rfl) hc' (herr.trans hok)).degraded, (initRun_succeeded (.inl rfl) hc hok).degraded]

end

section
/-! RESET from a rest state (R96, R97), and the operations rejected at issue (R162, R163): each issue check's code, in
the checks' order, and the state a rejected operation leaves. -/

namespace Sys2Proof.Machine

/-! ### RESET -/

/-- An accepted RESET is the pulse and its end: it draws nothing and never raises. -/
theorem exec_reset_accepted {s : State} (hr : s.run = false) :
    exec .reset s = .next (finish (delay s.cfg.resetHoldMs (setRst true
      (delay s.cfg.resetHoldMs (setRst false { acceptReset s with todo := [] }))))) := by
  have hcomplete : complete (acceptReset s)
      = (runPrims (resetPulse s.cfg) { acceptReset s with todo := [] }).toEnd := by
    rw [complete_eq, ← runMicros_prims]; rfl
  rw [exec_hostOp (.inl rfl), issue_reset_accepted hr, carryOut_accepted hr rfl, hcomplete]; rfl

theorem finish_reset {u : State} (h : u.latch.op = .reset) :
    finish u = { u with state := .uninit, err := .ok, run := false, todo := [] } := by
  unfold finish; rw [h]

/-! ### The checks (R163) -/

theorem checkState_sleeping {s : State} (h : s.state = .sleeping) : checkState s = .driverAsleep := if_pos h

theorem checkState_uninit {s : State} (h : s.state = .uninit) : checkState s = .notInitialized := by
  simp [checkState, h]

theorem checkState_idle {s : State} (h : s.state = .idle) : checkState s = .ok := by simp [checkState, h]

theorem checkReady_of_state {s : State} (h : checkState s ≠ .ok) : checkReady s = checkState s := if_pos h

theorem checkReady_idle {s : State} (h : s.state = .idle) :
    checkReady s = if s.degraded then .degraded else .ok := if_neg (not_not.2 (checkState_idle h))

theorem checkReady_ready {s : State} (h : s.state = .idle) (hd : s.degraded = false) : checkReady s = .ok := by
  rw [checkReady_idle h, hd]; rfl

theorem checkTransfer_notReady {s : State} (win : Bool) (h : checkReady s ≠ .ok) : checkTransfer win s = checkReady s :=
  if_pos h

theorem checkRefresh_notReady {s : State} (m : Mode) (h : checkReady s ≠ .ok) : checkRefresh m s = checkReady s :=
  if_pos h

theorem checkRefresh_ready {s : State} (m : Mode) (h : checkReady s = .ok) : checkRefresh m s = checkRefreshMode s m :=
  if_neg (not_not.2 h)

theorem checkTransfer_badWindow {s : State} (h : checkReady s = .ok)
    (hw : windowLegal s.cfg (windowRect s.regs.winOrg s.regs.winSize) = false) : checkTransfer true s = .badWindow := by
  simp [checkTransfer, h, hw]

theorem checkTransfer_badLength {s : State} {win : Bool} (h : checkReady s = .ok)
    (hw : win = true → windowLegal s.cfg (windowRect s.regs.winOrg s.regs.winSize) = true)
    (hl : s.regs.xferLen.toNat ≠ expectedLen s.fmt (transferRect s.cfg win s.regs.winOrg s.regs.winSize)) :
    checkTransfer win s = .invalidBufferSize := by
  unfold checkTransfer
  rw [if_neg (not_not.2 h), if_neg fun hbad => hbad.2 (hw hbad.1), if_pos hl]

/-! ### Rejected operations (R162) -/

/-- A host operation whose issue check fails changes nothing but ERR. -/
theorem exec_rejected {i : Instr} {e : ErrCode} {a s : State} (hi : isHostOp i) (hissue : issue i s = issueCmd e a s)
    (hr : s.run = false) (he : e ≠ .ok) : exec i s = .next { s with err := e } := by
  rw [exec_hostOp hi, hissue, issueCmd_rejected hr he, carryOut_rejected (a := reject e s) hr]; rfl

theorem exec_init_rejected {s : State} {m : Mode} {e : ErrCode} (hr : s.run = false) (h : checkInitMode s.cfg m = e)
    (he : e ≠ .ok) : exec (.init m) s = .next { s with err := e } := by
  subst h; exact exec_rejected (a := acceptInit .init m s) (by simp [isHostOp]) rfl hr he

theorem exec_transfer_rejected {s : State} {win : Bool} {e : ErrCode} (hr : s.run = false)
    (h : checkTransfer win s = e) (he : e ≠ .ok) : exec (.transfer win) s = .next { s with err := e } := by
  subst h; exact exec_rejected (a := acceptTransfer win s) (by simp [isHostOp]) rfl hr he

theorem exec_refresh_rejected {s : State} {m : Mode} {e : ErrCode} (hr : s.run = false)
    (h : checkRefresh m s = e) (he : e ≠ .ok) : exec (.refresh m) s = .next { s with err := e } := by
  subst h; exact exec_rejected (a := acceptRefresh m s) (by simp [isHostOp]) rfl hr he

theorem exec_sleep_rejected {s : State} {e : ErrCode} (hr : s.run = false)
    (h : checkState s = e) (he : e ≠ .ok) : exec .sleep s = .next { s with err := e } := by
  subst h; exact exec_rejected (a := acceptSleep s) (by simp [isHostOp]) rfl hr he

theorem exec_wake_rejected {s : State} {e : ErrCode} (hr : s.run = false)
    (h : checkInitMode s.cfg s.sessMode = e) (he : e ≠ .ok) : exec .wake s = .next { s with err := e } := by
  subst h; exact exec_rejected (a := acceptInit .wake s.sessMode s) (by simp [isHostOp]) rfl hr he

/-- TRANSFER and REFRESH of a state that is not ready answer why, whatever their operands. -/
theorem exec_notReady {s : State} {e : ErrCode} (m : Mode) (win : Bool) (hr : s.run = false) (h : checkReady s = e)
    (he : e ≠ .ok) : ∀ i ∈ [Instr.transfer win, .refresh m], exec i s = .next { s with err := e } := by
  have hready : checkReady s ≠ .ok := by rw [h]; exact he
  intro i hi
  rcases List.mem_pair.1 hi with rfl | rfl
  · exact exec_transfer_rejected hr ((checkTransfer_notReady win hready).trans h) he
  · exact exec_refresh_rejected hr ((checkRefresh_notReady m hready).trans h) he

/-- TRANSFER, REFRESH and SLEEP outside IDLE answer the state's code. -/
theorem exec_wrongState {s : State} {e : ErrCode} (m : Mode) (win : Bool) (hr : s.run = false) (h : checkState s = e)
    (he : e ≠ .ok) : ∀ i ∈ [Instr.transfer win, .refresh m, .sleep], exec i s = .next { s with err := e } := by
  have hstate : checkState s ≠ .ok := by rw [h]; exact he
  show ∀ i ∈ [Instr.transfer win, .refresh m] ++ [.sleep], _
  exact List.forall_mem_append.2 ⟨exec_notReady m win hr ((checkReady_of_state hstate).trans h) he,
    List.forall_mem_singleton.2 (exec_sleep_rejected hr h he)⟩

end Sys2Proof.Machine

open Sys2Proof Sys2Proof.Machine

/-- Settles O18: four primitives, then the end step. -/
theorem resetOperation : Obligations.ResetOperation := by
  refine ⟨rfl, fun s hr htodo => ?_⟩
  rw [exec_reset_accepted hr, finish_reset rfl]
  cases s
  cases hr
  cases htodo
  simp [acceptReset, accept, setRst, delay, pulseEvents]

/-- Settles O37: each check's code, and a rejected operation writes it to ERR. -/
theorem issueRejections : Obligations.IssueRejections := by
  intro s m win hr
  refine ⟨fun h => exec_wrongState m win hr (checkState_sleeping h) nofun,
    fun h => exec_wrongState m win hr (checkState_uninit h) nofun,
    fun h hd => exec_notReady m win hr (by rw [checkReady_idle h, hd]; rfl) nofun,
    fun hv => exec_init_rejected hr (if_pos ⟨hv, rfl⟩) nofun,
    fun hv hm => exec_wake_rejected hr (if_pos ⟨hv, hm⟩) nofun,
    fun h hd hbad => exec_refresh_rejected hr ?_ nofun,
    fun h hd hw => exec_transfer_rejected hr (checkTransfer_badWindow (checkReady_ready h hd) hw) nofun,
    fun h hd hw hl => exec_transfer_rejected hr (checkTransfer_badLength (checkReady_ready h hd) hw hl) nofun⟩
  exact (checkRefresh_ready m (checkReady_ready h hd)).trans (if_pos hbad)

end

section
/-! The geometry of a TRANSFER (R110 to R119): the legal windows, where the merge writes, and the bytes that Region1 and
the planes send. -/

namespace Sys2Proof.Machine

/-! ### Legal windows (R111) -/

/-- The halves of the two window registers are the window's fields (R62). -/
theorem windowRect_fields (x0 y0 ww wh : BitVec 16) :
    windowRect (y0 ++ x0) (wh ++ ww) = ⟨x0.toNat, y0.toNat, ww.toNat, wh.toNat⟩ := by
  have hlow : ∀ high low : BitVec 16, (high ++ low).extractLsb' 0 16 = low :=
    fun _ _ => BitVec.extractLsb'_append_eq_right
  have hhigh : ∀ high low : BitVec 16, (high ++ low).extractLsb' 16 16 = high :=
    fun _ _ => BitVec.extractLsb'_append_eq_left
  unfold windowRect
  rw [hlow, hlow, hhigh, hhigh]

theorem windowLegal_iff {c : Config} {r : Rect} :
    windowLegal c r = true ↔ c.variant = .fw ∧ 1 ≤ r.ww ∧ 1 ≤ r.wh ∧ r.x0 + r.ww ≤ c.width
      ∧ r.y0 + r.wh ≤ c.height ∧ r.x0 % 8 = 0 ∧ (r.ww % 8 = 0 ∨ r.x0 + r.ww = c.width) := by
  simp [windowLegal, and_assoc]

/-- A windowed TRANSFER with a legal window passes the window's check. -/
theorem checkTransfer_ne_badWindow {s : State} (h : checkReady s = .ok)
    (hw : windowLegal s.cfg (windowRect s.regs.winOrg s.regs.winSize) = true) :
    checkTransfer true s ≠ .badWindow := by
  unfold checkTransfer
  rw [if_neg (not_not.2 h), if_neg fun hbad => hbad.2 hw]
  split <;> nofun

/-! ### Where the merge writes (R114) -/

/-- The offset in NEW of byte `col` of row `row` of a rectangle (R114). -/
def mergeAddr (c : Config) (fmt : Level) (r : Rect) (row col : Nat) : Nat :=
  (r.y0 + row) * slotRow c fmt + r.x0 / pixelsPerByte fmt + col

theorem mem_mergeCells {s : State} {r : Rect} {cell : Host.Cell} :
    cell ∈ mergeCells s r ↔ ∃ row, row < r.wh ∧ ∃ col, col < bufferRow s.fmt r
      ∧ (mergeAddr s.cfg s.fmt r row col, s.stageByte (row * bufferRow s.fmt r + col)) = cell := by
  simp [mergeCells, mergeAddr]

theorem slotRow_eq_ceilDiv (c : Config) (fmt : Level) : slotRow c fmt = ceilDiv c.width (pixelsPerByte fmt) := by
  cases fmt <;> rfl

theorem slotRow_le_bpr2 (c : Config) (fmt : Level) : slotRow c fmt ≤ c.bpr2 := by
  cases fmt with
  | false => show ceilDiv c.width 8 ≤ ceilDiv c.width 4; unfold ceilDiv; omega
  | true => exact le_rfl

section
variable {c : Config} {r : Rect} (h : windowLegal { c with variant := .fw } r = true)
include h

/-- A row of a legal window ends within its row of the slot. -/
theorem bufferRow_fits (fmt : Level) : r.x0 / pixelsPerByte fmt + bufferRow fmt r ≤ slotRow c fmt := by
  obtain ⟨-, -, -, hwidth : r.x0 + r.ww ≤ c.width, -, halign, -⟩ := windowLegal_iff.1 h
  rw [slotRow_eq_ceilDiv]
  cases fmt with
  | false => show r.x0 / 8 + (r.ww + 8 - 1) / 8 ≤ (c.width + 8 - 1) / 8; omega
  | true => show r.x0 / 4 + (r.ww + 4 - 1) / 4 ≤ (c.width + 4 - 1) / 4; omega

theorem mergeAddr_col_lt {fmt : Level} {col : Nat} (hcol : col < bufferRow fmt r) :
    r.x0 / pixelsPerByte fmt + col < slotRow c fmt := by
  have := bufferRow_fits h fmt
  omega

theorem mergeAddr_lt_nextRow {fmt : Level} {row col : Nat} (hcol : col < bufferRow fmt r) :
    mergeAddr c fmt r row col < (r.y0 + row + 1) * slotRow c fmt := by
  have := mergeAddr_col_lt h hcol
  rw [mergeAddr, Nat.succ_mul]
  omega

theorem mergeAddr_lt_slotCap {fmt : Level} {row col : Nat} (hrow : row < r.wh) (hcol : col < bufferRow fmt r) :
    mergeAddr c fmt r row col < c.slotCap := by
  obtain ⟨-, -, -, -, hheight : r.y0 + r.wh ≤ c.height, -, -⟩ := windowLegal_iff.1 h
  calc mergeAddr c fmt r row col < (r.y0 + row + 1) * slotRow c fmt := mergeAddr_lt_nextRow h hcol
    _ ≤ c.height * c.bpr2 := Nat.mul_le_mul (by omega) (slotRow_le_bpr2 c fmt)
    _ = c.slotCap := Nat.mul_comm _ _

/-- The offsets rise from row to row. -/
theorem mergeAddr_lt_of_row_lt {fmt : Level} {row row' col : Nat} (hrow : row < row') (hcol : col < bufferRow fmt r)
    (col' : Nat) : mergeAddr c fmt r row col < mergeAddr c fmt r row' col' :=
  calc mergeAddr c fmt r row col < (r.y0 + row + 1) * slotRow c fmt := mergeAddr_lt_nextRow h hcol
    _ ≤ (r.y0 + row') * slotRow c fmt := Nat.mul_le_mul_right _ (by omega)
    _ ≤ mergeAddr c fmt r row' col' := by rw [mergeAddr, Nat.add_assoc]; exact Nat.le_add_right _ _

end

/-- The merge of a legal rectangle names each of its offsets once. -/
theorem mergeCells_nodup {s : State} {r : Rect} (h : windowLegal { s.cfg with variant := .fw } r = true) :
    ((mergeCells s r).map (·.1)).Nodup := by
  have haddrs : (mergeCells s r).map (·.1) = (List.range r.wh).flatMap fun row =>
      (List.range (bufferRow s.fmt r)).map (mergeAddr s.cfg s.fmt r row) := by
    rw [mergeCells, List.map_flatMap]
    simp only [List.map_map]
    rfl
  rw [haddrs, List.nodup_flatMap]
  refine ⟨fun row _ => List.nodup_range.map fun i j hij => Nat.add_left_cancel hij,
    List.pairwise_lt_range.imp fun {row row'} hrow => ?_⟩
  intro a ha ha'
  obtain ⟨col, hcol, rfl⟩ := List.mem_map.1 ha
  obtain ⟨col', -, heq⟩ := List.mem_map.1 ha'
  exact (mergeAddr_lt_of_row_lt h hrow (List.mem_range.1 hcol) col').ne' heq

/-- The merge stores the rectangle's bytes of STAGE. -/
theorem newByte_merge_inside {s : State} {r : Rect} (hwf : s.new.wf (some white) = true)
    (h : windowLegal { s.cfg with variant := .fw } r = true) {row col : Nat} (hrow : row < r.wh)
    (hcol : col < bufferRow s.fmt r) :
    (writeNew (mergeCells s r) s).newByte (mergeAddr s.cfg s.fmt r row col)
      = s.stageByte (row * bufferRow s.fmt r + col) := by
  have hmem := mem_mergeCells.2 ⟨row, hrow, col, hcol, rfl⟩
  have hlook := Memory.lookup_setAll_mem hwf (mergeCells_nodup h) hmem (mergeAddr_lt_slotCap h hrow hcol)
  unfold State.newByte
  rw [writeNew_new, hlook]
  split
  · next hblank => exact Option.some.inj hblank
  · rfl

/-- The merge leaves every byte outside the rectangle. -/
theorem newByte_merge_outside (s : State) {r : Rect} {a : Nat}
    (h : ∀ row col, row < r.wh → col < bufferRow s.fmt r → a ≠ mergeAddr s.cfg s.fmt r row col) :
    (writeNew (mergeCells s r) s).newByte a = s.newByte a := by
  unfold State.newByte
  rw [writeNew_new, Memory.lookup_setAll_other _ _ _ _ fun cell hcell => ?_]
  obtain ⟨row, hrow, col, hcol, rfl⟩ := mem_mergeCells.1 hcell
  exact (h row col hrow hcol).symm

/-! ### Planes (R119) -/

theorem plane_getLsbD (k : Nat) (s : State) (r : Rect) {row col j : Nat} (hrow : row < r.wh) (hcol : col < panelRow r)
    (hj : j < 8) : ((plane k s r).getD (row * panelRow r + col) 0).getLsbD (7 - j) = planeBit k s r row col j := by
  rw [plane_getD k s r hrow hcol, packByte_getLsbD _ hj]

theorem planeBit_inside (k : Nat) (s : State) {r : Rect} (row : Nat) {col j : Nat}
    (h : r.x0 + 8 * col + j < r.x0 + r.ww) :
    planeBit k s r row col j = (s.pixel2 (r.x0 + 8 * col + j) (r.y0 + row)).getLsbD k := if_pos h

theorem planeBit_padding (k : Nat) (s : State) {r : Rect} (row : Nat) {col j : Nat}
    (h : ¬ r.x0 + 8 * col + j < r.x0 + r.ww) : planeBit k s r row col j = true := if_neg h

/-- A 2-bit pixel is its bit 1 before its bit 0. -/
theorem pixel_eq_bits : ∀ v : BitVec 2, BitVec.ofBool (v.getLsbD 1) ++ BitVec.ofBool (v.getLsbD 0) = v := by decide

end Sys2Proof.Machine

open Sys2Proof Sys2Proof.Machine

/-- Settles O25: the merge's cells name each offset of the rectangle once, below SLOT_CAP, and no other. -/
theorem mergeWritesTheRectangle : Obligations.MergeWritesTheRectangle :=
  fun s _ _ hwf h => ⟨fun _ _ hrow hcol => newByte_merge_inside hwf h hrow hcol,
    fun _ hout => newByte_merge_outside s hout⟩

/-- Settles O26: X0 is a multiple of 8, so a row of the window begins at a whole byte and ends within its row. -/
theorem mergeStaysInItsRows : Obligations.MergeStaysInItsRows :=
  fun _ _ _ _ h _ _ hrow hcol => ⟨mergeAddr_col_lt h hcol, mergeAddr_lt_slotCap h hrow hcol⟩

/-- Settles O27: bit 7 − j of a plane's byte is its plane bit there, inside the rectangle and in the padding. -/
theorem planesHoldThePixels : Obligations.PlanesHoldThePixels := by
  intro s r row col j hrow hcol hj
  dsimp only
  rw [plane_getLsbD 1 s r hrow hcol hj, plane_getLsbD 0 s r hrow hcol hj]
  refine ⟨length_plane 1 s r, length_plane 0 s r, ?_⟩
  split
  · next hin => rw [planeBit_inside 1 s row hin, planeBit_inside 0 s row hin, pixel_eq_bits]
  · next hpad => exact ⟨planeBit_padding 1 s row hpad, planeBit_padding 0 s row hpad⟩

/-- Settles O28: Region1 is laid out in rows, and the full frame's rows are those of NEW. -/
theorem regionIsTheRectangle : Obligations.RegionIsTheRectangle :=
  fun s r => ⟨length_region1 s r, fun _ _ hrow hcol => region1_getD s r hrow hcol, region1_fullRect s⟩

/-- Settles O38: the registers' halves are the window's fields, and an idle TRANSFER is checked for its window first. -/
theorem legalWindows : Obligations.LegalWindows := by
  intro s x0 y0 ww wh
  dsimp only
  have hlegal := windowLegal_iff (c := s.cfg) (r := windowRect (y0 ++ x0) (wh ++ ww))
  rw [windowRect_fields] at hlegal ⊢
  refine ⟨hlegal, fun hr hst hd horg hsize => ?_⟩
  have hready := checkReady_ready hst hd
  have hrect : windowRect s.regs.winOrg s.regs.winSize = ⟨x0.toNat, y0.toNat, ww.toNat, wh.toNat⟩ := by
    rw [horg, hsize, windowRect_fields]
  rw [← hlegal, ← hrect]
  refine ⟨fun hbad => exec_transfer_rejected hr ?_ nofun, checkTransfer_ne_badWindow hready⟩
  exact checkTransfer_badWindow hready (Bool.eq_false_of_not_eq_true hbad)

end

section
/-! TRANSFER as a whole (R121): the run of its pseudocode, what it keeps however it ends (R164), and what a success and a
failure leave. -/

namespace Sys2Proof.Machine

/-! ### The events of a TRANSFER -/

/-- TRANSFER's events depend on the parameters, the format and NEW only. -/
theorem transferEvents_congr {s t : State} (hc : t.cfg = s.cfg) (hf : t.fmt = s.fmt) (hn : t.new = s.new) (r : Rect) :
    transferEvents t r = transferEvents s r := by
  unfold transferEvents
  rw [hc, hf, region1_congr hc hn, plane_congr hc hn, plane_congr hc hn]

/-- No command of a RAM write waits (R115, R117). -/
theorem countSamples_writeEvents (c : Config) (op : Byte) (r : Rect) (bytes : List Byte) :
    countSamples (writeEvents c op r bytes) = 0 := by
  unfold writeEvents swEvents
  cases c.variant <;> simp [countSamples_command]

theorem countSamples_transferEvents (s : State) (r : Rect) : countSamples (transferEvents s r) = 0 := by
  unfold transferEvents
  cases s.cfg.variant <;> cases s.fmt <;> simp [countSamples_writeEvents]

theorem idleNext_zero (s : State) : s.idleNext 0 := fun _ h => absurd h (Nat.not_lt_zero _)

/-! ### The run of a TRANSFER -/

/-- NEW after the merge of a TRANSFER with a given WIN operand (R114). -/
def mergedNew (win : Bool) (s : State) : Memory :=
  s.new.setAll (some white) s.cfg.slotCap
    (mergeCells s (transferRect s.cfg win s.regs.winOrg s.regs.winSize))

/-- The events of that TRANSFER: it sends what NEW holds behind its merge (R121). -/
def transferSent (win : Bool) (s : State) : List Event :=
  transferEvents { s with new := mergedNew win s } (transferRect s.cfg win s.regs.winOrg s.regs.winSize)

/-- The run of an accepted TRANSFER's pseudocode, short of the operation's end. -/
def transferRun (win : Bool) (s : State) : Res :=
  runMicros (transferProgram s.cfg s.fmt) { acceptTransfer win s with todo := [] }

/-- The state of an accepted TRANSFER behind its merge. -/
def transferMerged (win : Bool) (s : State) : State := merge { acceptTransfer win s with todo := [] }

theorem transferMerged_new (win : Bool) (s : State) : (transferMerged win s).new = mergedNew win s := rfl

/-- The pseudocode merges first, which never fails, then sends. -/
theorem transferRun_eq (win : Bool) (s : State) :
    transferRun win s = runMicros (transferProgram s.cfg s.fmt).tail (transferMerged win s) := rfl

theorem exec_transfer_accepted {s : State} {win : Bool} (h : transferAccepted s win) :
    exec (.transfer win) s = .next (transferRun win s).toEnd := by
  rw [exec_transferOp h, complete_eq]; rfl

theorem transferRun_seqOnly (win : Bool) (s : State) :
    seqOnly { acceptTransfer win s with todo := [] } (transferRun win s).state := runMicros_seqOnly _ _

theorem transferRun_new (win : Bool) (s : State) : (transferRun win s).state.new = mergedNew win s := by
  have hno : .prim .merge ∉ (transferProgram s.cfg s.fmt).tail := by
    unfold transferProgram
    cases s.cfg.variant <;> cases s.fmt <;> simp [setWindow, streamPlane]
  rw [transferRun_eq, runMicros_new hno, transferMerged_new]

theorem transferRun_old (win : Bool) (s : State) : (transferRun win s).state.old = s.old :=
  runMicros_old (fun h => nomatch mem_transferProgram h) _

theorem transferRun_rst (win : Bool) (s : State) : (transferRun win s).state.pins.rst = s.pins.rst :=
  runMicros_rst (fun _ h => nomatch mem_transferProgram h) _

theorem transferRun_lut (win : Bool) (s : State) :
    (transferRun win s).state.lutValid = s.lutValid ∧ (transferRun win s).state.lutMode = s.lutMode :=
  runMicros_lut (fun h => nomatch mem_transferProgram h) (fun _ h => nomatch mem_transferProgram h) _

theorem transferRun_touched (win : Bool) (s : State) : (transferRun win s).state.touched = true :=
  transferProgram_touches _ _ _

/-- A TRANSFER accepted on NF has no window (R111, R163). -/
theorem transferRect_nf {s : State} {win : Bool} (h : transferAccepted s win) (hv : s.cfg.variant ≠ .fw) :
    transferRect s.cfg win s.regs.winOrg s.regs.winSize = fullRect s.cfg := by
  obtain ⟨-, -, -, hw, -⟩ := h
  cases win with
  | false => rfl
  | true => exact absurd (windowLegal_iff.1 (hw rfl)).1 hv

/-- Behind the merge the pseudocode sends the TRANSFER's events. -/
theorem sends_transferSent {s : State} {win : Bool} (h : transferAccepted s win) :
    Sends (transferProgram s.cfg s.fmt).tail (transferMerged win s) (transferSent win s) := by
  have hrect : (if s.cfg.variant = .fw then (transferMerged win s).rect else fullRect s.cfg)
      = transferRect s.cfg win s.regs.winOrg s.regs.winSize := by
    split
    · rfl
    · next hv => exact (transferRect_nf h hv).symm
  have hevents : transferEvents (transferMerged win s) _ = transferSent win s :=
    transferEvents_congr (s := { s with new := mergedNew win s }) rfl rfl rfl _
  rw [← hevents, ← hrect]
  exact Sends.transferPlanes (s := transferMerged win s) rfl

/-- With every transfer successful the run returns, its events in the trace (R121). -/
theorem transferRun_sends {s : State} {win : Bool} (h : transferAccepted s win)
    (hx : s.xfersOk (countXfers (transferSent win s))) :
    ∃ u, transferRun win s = .ok u ∧ u.trace = s.trace ++ transferSent win s := by
  have hi : s.idleNext (countSamples (transferSent win s)) := by
    rw [transferSent, countSamples_transferEvents]; exact idleNext_zero s
  obtain ⟨u, hu, hran⟩ := sends_transferSent h hx hi
  exact ⟨u, hu, hran.trace⟩

/-! ### The end of a TRANSFER -/

/-- What holds from s to t when a TRANSFER has run from s and ended in t, with success or failure (R121, R164). -/
structure TransferEnded (win : Bool) (s t : State) : Prop where
  new : t.new = mergedNew win s
  old : t.old = s.old
  state : t.state = .idle
  run : t.run = false
  touched : t.touched = true
  lutValid : t.lutValid = s.lutValid
  lutMode : t.lutMode = s.lutMode
  fmt : t.fmt = s.fmt
  sessMode : t.sessMode = s.sessMode
  rst : t.pins.rst = s.pins.rst
  host : hostSideSame s t

/-- The end step and the abort of a TRANSFER write the same fields; neither writes the tracker. -/
theorem toEnd_transfer {r : Res} (h : r.state.latch.op = .transfer) :
    ∃ e d, r.toEnd = { r.state with state := .idle, err := e, run := false, todo := [], degraded := d } := by
  cases r with
  | ok u => exact ⟨_, _, finish_frames (.inl h)⟩
  | raised c u => exact ⟨_, _, abort_frames (.inl h)⟩

theorem transferRun_latch (win : Bool) (s : State) : (transferRun win s).state.latch.op = .transfer := by
  rw [(transferRun_seqOnly win s).latch]; rfl

theorem transferRun_ended (win : Bool) (s : State) : TransferEnded win s (transferRun win s).toEnd := by
  have hseq := transferRun_seqOnly win s
  obtain ⟨hvalid, hmode⟩ := transferRun_lut win s
  obtain ⟨e, d, hend⟩ := toEnd_transfer (transferRun_latch win s)
  rw [hend]
  exact ⟨transferRun_new win s, transferRun_old win s, rfl, rfl, transferRun_touched win s, hvalid, hmode, hseq.fmt,
    hseq.sessMode, transferRun_rst win s, hseq.hostSide⟩

theorem transferRun_ok {win : Bool} {s u : State} (hu : transferRun win s = .ok u) :
    (finish u).err = .ok ∧ (finish u).degraded = s.degraded := by
  have hseq := transferRun_seqOnly win s
  have hlatch := transferRun_latch win s
  rw [hu, Res.state_ok] at hseq hlatch
  rw [finish_frames (.inl hlatch)]
  exact ⟨rfl, hseq.degraded⟩

/-- A TRANSFER that raises has sent its first command byte, so its abort sets DEGRADED (R164). -/
theorem transferRun_raised {win : Bool} {s u : State} {c : ErrCode} (hu : transferRun win s = .raised c u) :
    (abort c u).err = .transportFailure ∧ (abort c u).degraded = true := by
  have htouched := transferRun_touched win s
  have hlatch := transferRun_latch win s
  rw [hu, Res.state_raised] at htouched hlatch
  refine ⟨(abort_err c u).trans (transferProgram_code hu), ?_⟩
  rw [abort_frames (.inl hlatch), htouched, Bool.or_true]

end Sys2Proof.Machine

open Sys2Proof Sys2Proof.Machine

/-- Settles O23: the merge always succeeds, the planes send their events, and the end step leaves what a success
leaves. -/
theorem transferCompletes : Obligations.TransferCompletes := by
  intro s win _ h _ r merged evs hx
  obtain ⟨u, hu, htrace⟩ := transferRun_sends h hx
  have hexec := exec_transfer_accepted h
  have hended := transferRun_ended win s
  obtain ⟨herr, hdegraded⟩ := transferRun_ok hu
  rw [hu, Res.toEnd_ok] at hexec hended
  obtain ⟨-, -, hd, -, -⟩ := h
  exact ⟨finish u, hexec, (finish_trace u).trans htrace, hended.new, hended.old, hended.state, hended.run, herr,
    hdegraded.trans hd, hended.touched, hended.lutValid, hended.lutMode, hended.fmt, hended.sessMode, hended.rst,
    hended.host⟩

/-- Settles O24: the merge comes before every transfer, none of the commands waits, and the first byte sets
`st.touched`. -/
theorem transferOutcomes : Obligations.TransferOutcomes := by
  intro s win _ h _ r
  have hended := transferRun_ended win s
  refine ⟨(transferRun win s).toEnd, exec_transfer_accepted h, hended.new, hended.old, hended.state, hended.run,
    hended.lutValid, hended.lutMode, hended.fmt, hended.sessMode, hended.host, ?_⟩
  obtain ⟨-, -, hd, -, -⟩ := h
  cases hr : transferRun win s with
  | ok u =>
    obtain ⟨herr, hdegraded⟩ := transferRun_ok hr
    exact .inl ⟨herr, hdegraded.trans hd⟩
  | raised c u => exact .inr (transferRun_raised hr)

end

section
/-! `CopyForward` on the bytes of OLD (R127), and the two ends of a SLEEP (R130, R164). -/

namespace Sys2Proof.Machine

/-! ### `CopyForward` -/

/-- Of the two parts of the new OLD, only NEW's holds an offset within the slot. -/
theorem oldByte_copyForward_inside {s : State} {a : Nat} (h : a < s.cfg.slotCap) :
    (copyForward s).oldByte a = s.newByte a := by
  rw [State.oldByte, copyForward_old, Memory.lookup_append,
    Memory.lookup_filter_of_true s.new (fun _ => decide_eq_true h),
    Memory.lookup_filter_of_false s.old (fun _ => decide_eq_false h.not_ge), Option.or_none, State.newByte]

/-- Of the two parts of the new OLD, only OLD's holds an offset beyond the slot. -/
theorem oldByte_copyForward_outside {s : State} {a : Nat} (h : s.cfg.slotCap ≤ a) :
    (copyForward s).oldByte a = s.oldByte a := by
  rw [State.oldByte, copyForward_old, Memory.lookup_append,
    Memory.lookup_filter_of_false s.new (fun _ => decide_eq_false h.not_gt),
    Memory.lookup_filter_of_true s.old (fun _ => decide_eq_true h), Option.none_or, State.oldByte]

/-! ### The end of a SLEEP -/

theorem sleepRun_latch (s : State) : (sleepRun s).state.latch.op = .sleep := by
  rw [(sleepRun_seqOnly s).latch]; rfl

/-- What a SLEEP that returns leaves besides (R130). -/
structure SleepSucceeded (s t : State) : Prop where
  err : t.err = .ok
  state : t.state = .sleeping
  degraded : t.degraded = s.degraded
  lutValid : t.lutValid = false

theorem sleepRun_ok {s u : State} (hu : sleepRun s = .ok u) : SleepSucceeded s (finish u) := by
  have hseq := sleepRun_seqOnly s
  have hlatch := sleepRun_latch s
  rw [hu, Res.state_ok] at hseq hlatch
  rw [finish_sleep hlatch]
  exact ⟨rfl, rfl, hseq.degraded, rfl⟩

/-- What a SLEEP that raises leaves besides: `st.touched` says whether a transfer had started (R164). -/
structure SleepFailed (s t : State) : Prop where
  err : t.err = .busyTimeout ∨ t.err = .transportFailure
  state : t.state = .idle
  degraded : t.degraded = (s.degraded || t.touched)

theorem sleepRun_raised {s u : State} {c : ErrCode} (hu : sleepRun s = .raised c u) : SleepFailed s (abort c u) := by
  have hseq := sleepRun_seqOnly s
  have hlatch := sleepRun_latch s
  rw [hu, Res.state_raised] at hseq hlatch
  have hdegraded : u.degraded = s.degraded := hseq.degraded
  rw [abort_frames (.inr (.inr hlatch))]
  exact ⟨runMicros_code hu, rfl, congrArg (· || u.touched) hdegraded⟩

end Sys2Proof.Machine

open Sys2Proof Sys2Proof.Machine

/-- Settles O34: the pseudocode returns and the end step enters SLEEPING, or it raises and the abort returns to IDLE. -/
theorem sleepOutcomes : Obligations.SleepOutcomes := by
  intro s hc hr hstate
  have hended := sleepRun_ended hc
  refine ⟨(sleepRun s).toEnd, exec_sleep_accepted hr hstate, hended.run, hended.new, hended.old, hended.fmt,
    hended.sessMode, hended.host, ?_⟩
  cases hu : sleepRun s with
  | ok u =>
    have hok := sleepRun_ok hu
    exact .inl ⟨hok.err, hok.state, hok.degraded, hok.lutValid⟩
  | raised c u =>
    have hfailed := sleepRun_raised hu
    exact .inr ⟨hfailed.err, hfailed.state, hfailed.degraded⟩

/-- Settles O32: the new OLD is NEW's cells within the slot and OLD's own cells beyond it. -/
theorem copyForwardCopiesTheSlot : Obligations.CopyForwardCopiesTheSlot :=
  fun _ _ => ⟨oldByte_copyForward_inside, oldByte_copyForward_outside⟩

end

section
/-! What the panel commands of fixed rules send (R142 to R160): each has its byte, and its plan names a payload of the
command's own. -/

namespace Sys2Proof.Machine

/-- A panel command whose plan names its data outright sends those data. -/
theorem sendsCommand_lit {s : State} {i : Instr} {op : Byte} {data : List Byte} {wait : Bool}
    (hi : panelByte s.cfg i = some op) (hplan : planOf i s = commandPlan s.cfg op (.lit data) wait) :
    sendsCommand s i op data wait :=
  sendsCommand_of_plan (src := .lit data) hi hplan

/-! ### The RAM writes of FW (R144, R145) -/

theorem planOf_fwRamWriteA_region {s : State} (h : s.fmt = false) :
    planOf .fwRamWriteA s = commandPlan s.cfg 0x24 (.region s.rect) false := by
  rw [planOf, planFwRamWriteA, h]; rfl

theorem planOf_fwRamWriteA_planeA {s : State} (h : s.fmt = true) :
    planOf .fwRamWriteA s = commandPlan s.cfg 0x24 (.planeA s.rect) false := by
  rw [planOf, planFwRamWriteA, h]; rfl

theorem planOf_fwRamWriteB_oldFrame {s : State} (h : s.latch.op = .refresh) :
    planOf .fwRamWriteB s = commandPlan s.cfg 0x26 (.oldFrame s.cfg.frame1) false := by
  rw [planOf, planFwRamWriteB, if_pos h]

theorem planOf_fwRamWriteB_planeB {s : State} (h : s.latch.op ≠ .refresh) :
    planOf .fwRamWriteB s = commandPlan s.cfg 0x26 (.planeB s.rect) false := by
  rw [planOf, planFwRamWriteB, if_neg h]

/-! ### Parameters by mode (R87, R124) -/

/-- `P_UPD[FULL]` is no parameter (R124). -/
theorem ite_full_upd (c : Config) (m : Mode) : (if m = .full then 0xC7 else c.upd m) = c.upd m := by
  split
  · next h => rw [h]; rfl
  · rfl

/-- In a differential mode the sub-tables are those of the mode's register table (R87). -/
theorem regLutTable_eq {c : Config} {m : Mode} {t : Five (List Byte)}
    (h : (m = .part ∧ t = c.lutRegPart) ∨ (m = .fast ∧ t = c.lutRegFast)) (i : Nat) :
    regLutTable c i m = t.toList.getD i [] := by
  obtain ⟨rfl, rfl⟩ | ⟨rfl, rfl⟩ := h <;> rfl

/-- A register-LUT command, given which one it is, sends its sub-table of the latched mode's register table (R160). -/
theorem sendsCommand_regLut {s : State} {t : Five (List Byte)} {i : Instr} {k : Nat} {wait : Bool}
    (h : (s.latch.mode = .part ∧ t = s.cfg.lutRegPart) ∨ (s.latch.mode = .fast ∧ t = s.cfg.lutRegFast))
    (hi : panelByte s.cfg i = some (regLutOpcode s.cfg k))
    (hplan : planOf i s
      = commandPlan s.cfg (regLutOpcode s.cfg k) (.lit (regLutTable s.cfg k s.latch.mode)) wait) :
    sendsCommand s i (regLutOpcode s.cfg k) (t.toList.getD k []) wait := by
  rw [← regLutTable_eq h k]
  exact sendsCommand_lit hi hplan

end Sys2Proof.Machine

open Sys2Proof Sys2Proof.Machine

/-- Settles O41: the two RAM writes by what selects their source; the other plans name their data, and the byte of FULL
is fixed. -/
theorem fwRuleCommandsSend : Obligations.FwRuleCommandsSend := by
  intro s
  rw [ite_full_upd]
  refine ⟨sendsCommand_lit rfl rfl, sendsCommand_lit rfl rfl, fun h => ?_, fun h => ?_, fun h => ?_, fun h => ?_,
    sendsCommand_lit rfl rfl, sendsCommand_lit rfl rfl, sendsCommand_lit rfl rfl, sendsCommand_lit rfl rfl,
    sendsCommand_lit rfl rfl⟩
  · exact sendsCommand_of_plan rfl (planOf_fwRamWriteA_region h)
  · exact sendsCommand_of_plan rfl (planOf_fwRamWriteA_planeA h)
  · exact sendsCommand_of_plan rfl (planOf_fwRamWriteB_oldFrame h)
  · exact sendsCommand_of_plan rfl (planOf_fwRamWriteB_planeB h)

/-- Settles O42: transmission-2 sends the full frame's region, which is NEW's first FRAME1 bytes; each register-LUT
command sends its sub-table of the latched mode. -/
theorem nfCommandsSend : Obligations.NfCommandsSend := by
  intro s data wait
  refine ⟨sendsCommand_lit rfl rfl, sendsCommand_lit rfl rfl, sendsCommand_lit rfl rfl,
    sendsCommand_of_plan (src := .oldFrame s.cfg.frame1) rfl rfl, sendsCommand_lit rfl rfl, ?_, fun t ht => ?_⟩
  · rw [← region1_fullRect s]
    exact sendsCommand_of_plan (src := .region (fullRect s.cfg)) rfl rfl
  · exact ⟨sendsCommand_regLut (k := 0) ht rfl rfl, sendsCommand_regLut (k := 1) ht rfl rfl,
      sendsCommand_regLut (k := 2) ht rfl rfl, sendsCommand_regLut (k := 3) ht rfl rfl,
      sendsCommand_regLut (k := 4) ht rfl rfl⟩

end

section
/-! A CMD write while an operation runs (R162), and the timed milliseconds (R190) of the procedures and of the
operations that succeed. -/

namespace Sys2Proof.Machine

/-! ### A CMD write while an operation runs -/

/-- The CMD write of each of the six goes through the check of RUN first. -/
theorem issue_hostOp_running {i : Instr} {s : State} (hi : isHostOp i) (hr : s.run = true) :
    issue i s = overrunCmd s := by
  rcases hi with rfl | ⟨m, rfl⟩ | ⟨win, rfl⟩ | ⟨m, rfl⟩ | rfl | rfl <;> exact issueCmd_running hr

theorem exec_hostOp_running {i : Instr} {s : State} (hi : isHostOp i) (hr : s.run = true) :
    exec i s = .next (overrunCmd s) := by
  rw [exec_hostOp hi, carryOut_running hr, issue_hostOp_running hi hr]

/-- Legal or not, and whether or not the host then waits. -/
theorem cmdWrite_running (w : Word) {s : State} (hr : s.run = true) : cmdWrite w s = .next (overrunCmd s) := by
  cases hd : decodeHostOp w with
  | error e => rw [cmdWrite_illegal hd, issueIllegal, issueCmd_running hr]
  | ok i =>
    have hi := decodeHostOp_cases hd
    cases hw : s.hostWaits with
    | true => rw [cmdWrite_waits hd hw, exec_hostOp_running hi hr]
    | false => rw [cmdWrite_goesOn hd hw, issue_hostOp_running hi hr]

theorem hostWaits_access {s : State} {a : Access} {rest : List HostStmt} (hq : s.hostq = .access a :: rest) :
    s.hostWaits = false := by
  rw [State.hostWaits, hq]

/-! ### The milliseconds of a busy-wait (R82) -/

/-- Each poll is a busy sample and a delay. -/
theorem timedMs_polls (c : Config) (j : Nat) :
    timedMs (List.replicate j ([.busySample c.busyActive] ++ delayEvents c.pollMs)).flatten = j * c.pollMs := by
  induction j with
  | zero => simp [timedMs]
  | succ j ih =>
    rw [List.replicate_succ, List.flatten_cons, timedMs_append, ih, timedMs_append, timedMs_delay, Nat.succ_mul]
    simp [timedMs, Nat.add_comm]

theorem timedMs_wEvents (c : Config) (j : Nat) : timedMs (wEvents c j) = j * c.pollMs + c.postIdleMs := by
  rw [wEvents, timedMs_append, timedMs_append, timedMs_polls, timedMs_delay]; rfl

theorem timedMs_timeoutEvents (c : Config) (j : Nat) : timedMs (timeoutEvents c j) = j * c.pollMs := by
  rw [timeoutEvents, timedMs_append, timedMs_polls]; rfl

/-! ### The milliseconds of what does not wait -/

/-- Primitives without a busy-wait take the milliseconds found for them, with no poll delay besides. -/
theorem Timed.ofNoWait {ps : List Prim} {s t : State} {n : Nat} (h : Timed s t n) (hr : runPrims ps s = .ok t)
    (hw : ∀ p ∈ ps, ∀ k, p ≠ .poll k) : ∃ evs, t.trace = s.trace ++ evs ∧ timedMs evs = n := by
  obtain ⟨evs, htrace, hbusy⟩ := runPrims_noWait hw hr s.cfg
  exact ⟨evs, htrace, h.noWait htrace hbusy⟩

/-- Pseudocode without a busy-wait takes its fixed milliseconds. -/
theorem runMicros_noWait {ms : List Micro} {s t : State} {n : Nat} (hr : runMicros ms s = .ok t) (h : Takes s.cfg ms n)
    (hw : ∀ p ∈ ms.flatMap (Micro.expand s), ∀ k, p ≠ .poll k) :
    ∃ evs, t.trace = s.trace ++ evs ∧ timedMs evs = n :=
  (h s t rfl hr).ofNoWait ((runMicros_expand ms s).symm.trans hr) hw

theorem commandFrame_noWait {c : Config} {op : Byte} {p : Prim} (h : p ∈ commandFrame c op) (k : Nat) : p ≠ .poll k :=
  commandPlan_noWait (src := .lit []) (List.mem_append_left _ (List.mem_append_left _ h)) k

theorem dataFrame_noWait {c : Config} {src : Source} {p : Prim} (h : p ∈ dataFrame c src) (k : Nat) : p ≠ .poll k :=
  commandPlan_noWait (op := 0) (List.mem_append_left _ (List.mem_append_right _ h)) k

/-- `ResetPulse` never raises, and holds RST twice (R96). -/
theorem resetPulse_timed (s : State) :
    ∃ t evs, runPrims (resetPulse s.cfg) s = .ok t ∧ t.trace = s.trace ++ evs
      ∧ timedMs evs = 2 * s.cfg.resetHoldMs := by
  have hrun : runPrims (resetPulse s.cfg) s = .ok _ := rfl
  have htimed := runPrims_timed hrun
  obtain ⟨evs, htrace, hms⟩ := htimed.ofNoWait hrun (by simp [resetPulse])
  exact ⟨_, evs, hrun, htrace, by rw [hms]; simp [resetPulse, Prim.fixedMs, Nat.two_mul]⟩

/-! ### The milliseconds of an operation that succeeds -/

/-- An operation that reports no error has returned, and its end step sends nothing. -/
theorem toEnd_returned {ms : List Micro} {a : State} (herr : (runMicros ms a).toEnd.err = .ok) :
    ∃ u, runMicros ms a = .ok u ∧ (runMicros ms a).toEnd.trace = u.trace := by
  cases hr : runMicros ms a with
  | ok u => exact ⟨u, rfl, finish_trace u⟩
  | raised c u =>
    rw [hr, Res.toEnd_raised, abort_err] at herr
    rcases runMicros_code hr with rfl | rfl <;> cases herr

/-- The operation takes what its pseudocode takes. -/
theorem Takes.toEnd {ms : List Micro} {a : State} {n : Nat} (h : Takes a.cfg ms n)
    (herr : (runMicros ms a).toEnd.err = .ok) : Timed a (runMicros ms a).toEnd n := by
  obtain ⟨u, hu, htrace⟩ := toEnd_returned herr
  obtain ⟨evs, hevs, hms⟩ := h a u rfl hu
  exact ⟨evs, htrace.trans hevs, hms⟩

/-- Commands and waits, with the poll delays of the busy samples seen, are `commandMs` (R190). -/
theorem Timed.commandMs {s t : State} {n w : Nat} (h : Timed s t (fixedMs s.cfg n w)) :
    ∃ evs, t.trace = s.trace ++ evs ∧ timedMs evs = commandMs s.cfg n w evs := h

theorem initRun_timed {op : OpCode} {m : Mode} {s : State} (hc : s.cfg.wf = true)
    (herr : (initRun op m s).toEnd.err = .ok) :
    ∃ evs, (initRun op m s).toEnd.trace = s.trace ++ evs
      ∧ timedMs evs = 2 * s.cfg.resetHoldMs + commandMs s.cfg (s.cfg.initSeq.map (entryCommands s.cfg m)).sum
          (s.cfg.initSeq.map (entryWaits s.cfg m)).sum evs := by
  obtain ⟨evs, htrace, hms⟩ := (Takes.initProgram hc m).toEnd (a := { acceptInit op m s with todo := [] }) herr
  exact ⟨evs, htrace, hms.trans (Nat.add_assoc _ _ _)⟩

theorem transferRun_timed {win : Bool} {s : State} (herr : (transferRun win s).toEnd.err = .ok) :
    ∃ evs, (transferRun win s).toEnd.trace = s.trace ++ evs
      ∧ timedMs evs = transferCommands s.cfg s.fmt * s.cfg.cmdSettleMs := by
  obtain ⟨u, hu, hend⟩ := toEnd_returned (a := { acceptTransfer win s with todo := [] }) herr
  obtain ⟨evs, htrace, hms⟩ := runMicros_noWait hu (Takes.transferProgram s.cfg s.fmt) (transferProgram_noWait _ s.fmt)
  exact ⟨evs, hend.trans htrace, by rw [hms, fixedMs, Nat.zero_mul, Nat.add_zero]⟩

theorem refreshRun_timed {m : Mode} {s : State} (hc : s.cfg.wf = true) (herr : (refreshRun m s).toEnd.err = .ok) :
    ∃ evs, (refreshRun m s).toEnd.trace = s.trace ++ evs
      ∧ timedMs evs = commandMs s.cfg ((if lutNeeded s m then lutCommands s.cfg else 0) + refreshCommands s.cfg m)
          ((if lutNeeded s m then 1 else 0) + 1) evs :=
  ((Takes.refreshProgram hc m).toEnd (a := { acceptRefresh m s with todo := [] }) herr).commandMs

theorem sleepRun_timed {s : State} (hc : s.cfg.wf = true) (herr : (sleepRun s).toEnd.err = .ok) :
    ∃ evs, (sleepRun s).toEnd.trace = s.trace ++ evs
      ∧ timedMs evs = commandMs s.cfg (s.cfg.sleepSeq.map (entryCommands s.cfg .gray)).sum
          (s.cfg.sleepSeq.map (entryWaits s.cfg .gray)).sum evs :=
  ((Takes.sleepSeq hc).toEnd (a := { acceptSleep s with todo := [] }) herr).commandMs

/-- RESET is its pulse; neither its acceptance nor its end sends anything (R97). -/
theorem exec_reset_timed {s t : State} (hr : s.run = false) (ht : exec .reset s = .next t) :
    ∃ evs, t.trace = s.trace ++ evs ∧ timedMs evs = 2 * s.cfg.resetHoldMs := by
  rw [exec_reset_accepted hr] at ht
  cases ht
  obtain ⟨u, evs, hu, htrace, hms⟩ := resetPulse_timed { acceptReset s with todo := [] }
  cases hu
  exact ⟨evs, (finish_trace _).trans htrace, hms⟩

end Sys2Proof.Machine

open Sys2Proof Sys2Proof.Machine

/-- Settles O35: RUN is checked before the word and the operation are looked at. -/
theorem cmdWriteWhileRunning : Obligations.CmdWriteWhileRunning := by
  intro s hr
  refine ⟨fun m win i hi => exec_hostOp_running ?_ hr, fun w rest hc hq hfirst => ?_⟩
  · revert i
    simp [isHostOp]
  · rw [step_hostFirst hc hr (hostWaits_access hq) hfirst]
    exact (hostStep_cmd (s := { s with schedIn := s.schedIn.rest }) hq).trans (cmdWrite_running w hr)

/-- Settles O49: each procedure's fixed milliseconds, and, for the two ends of a wait, its events. -/
theorem timedLengths : Obligations.TimedLengths := by
  intro s hc
  refine ⟨fun op hx => ?_, fun src t ht => ?_, fun j hj hbusy hidle => ?_, fun hbusy => ?_, resetPulse_timed s,
    fun t hv ht => ?_, fun m t ht => ?_⟩
  · obtain ⟨t, ht, -⟩ := commandFrame_sent op (s := s) fun k hk => by rwa [Nat.lt_one_iff.1 hk]
    have htimed := runPrims_timed ht
    rw [commandFrame_ms] at htimed
    obtain ⟨evs, hevs⟩ := htimed.ofNoWait ht fun _ => commandFrame_noWait
    exact ⟨t, evs, ht, hevs⟩
  · have htimed := runPrims_timed ht
    rw [dataFrame_ms] at htimed
    exact htimed.ofNoWait ht fun _ => dataFrame_noWait
  · obtain ⟨t, ht, hsent, -, -⟩ := runPrim_poll_returns (wf_pollMs hc) hj hbusy hidle
    exact ⟨t, _, ht, hsent.trace, timedMs_wEvents s.cfg j⟩
  · obtain ⟨t, ht, hsent, -, -⟩ := runPrim_poll_times_out (wf_pollMs hc) hbusy
    exact ⟨t, _, ht, hsent.trace, timedMs_timeoutEvents s.cfg s.maxPolls⟩
  · exact runMicros_noWait ((runMicros_expand _ s).trans ht) (Takes.setWindow hv) (setWindow_noWait hv)
  · exact (Takes.installLut hc m s t rfl ((runMicros_expand _ s).trans ht)).commandMs

/-- Settles O60: each operation takes what its pseudocode takes. -/
theorem timedOperations : Obligations.TimedOperations := by
  intro s t hc hr
  refine ⟨exec_reset_timed hr, fun i m hi hmode ht herr => ?_, fun win h ht herr => ?_, fun m h ht herr => ?_,
    fun hstate ht herr => ?_⟩
  · obtain ⟨op, -, hexec⟩ := exec_initOp_accepted hi hr hmode
    cases hexec.symm.trans ht
    exact initRun_timed hc herr
  · cases (exec_transfer_accepted h).symm.trans ht
    exact transferRun_timed herr
  · cases (exec_refresh_accepted h).symm.trans ht
    exact refreshRun_timed hc herr
  · cases (exec_sleep_accepted hr hstate).symm.trans ht
    exact sleepRun_timed hc herr

end
